-- ==== Sys2Proof/Word.lean ====
section
/-!
DEFINITION. The word types of the block: every register, operand, expander byte and LCD instruction
byte is 8 bits, a nibble is 4 bits (00_scope.md R11, R12; all values are unsigned).
-/

namespace Sys2Proof

/-- An 8-bit value (R12). -/
abbrev Byte := BitVec 8

/-- A 4-bit value, "half of a byte" (R14). -/
abbrev Nibble := BitVec 4

/-- A 7-bit address: a bus device address (R51) or a DDRAM address (R54). -/
abbrev Addr7 := BitVec 7

end Sys2Proof
end

