-- ==== Sys2Proof/Config.lean ====
section
/-!
DEFINITION. What is fixed for one built block: the construction parameters (00_scope.md R7, R8), and
the free values, which the spec leaves open (92_eei_decisions.md, 93_implementation_defined.md).
-/

namespace Sys2Proof

/-- `FAMILY` (R2, R7). "Kept symbolic; no numbers" (D32). -/
inductive Family where
  | hd44780
  | splc780d
  | ks0066
deriving DecidableEq, Repr, Inhabited

/-- `FONT`: 0 = 5x8, 1 = 5x10 (R7). -/
inductive Font where
  | f5x8
  | f5x10
deriving DecidableEq, Repr, Inhabited

/-- `SIZE_Y`, one of {1, 2, 3, 4} (R7). -/
inductive LineCount where
  | one
  | two
  | three
  | four
deriving DecidableEq, Repr, Inhabited

/-- The parameters of one block, "fixed at construction and never changed after it" (R7), with the two
open parameters of R8. The types admit the legal values only; `Machine.checkParams` is the test
of decision D22. -/
structure Params where
  /-- `ADDR` -/
  addr : Addr7
  /-- `SIZE_X`, "8 bits, any value" (D22) -/
  sizeX : Byte
  /-- `SIZE_Y` -/
  sizeY : LineCount
  /-- `FONT` -/
  font : Font
  /-- `FAMILY` -/
  family : Family
  /-- `BL_RESET`, open (D11) -/
  blReset : Bool
  /-- `CLOCK_RES`, open (R8, D21), in microseconds for one unit of the clock's reading. The spec gives no legal
  range: DESIGN CHOICE (notes/assumptions/7), any natural number, 0 included, and no clock finer than one
  microsecond -/
  clockRes : Nat
deriving DecidableEq, Repr, Inhabited

/-- Construction arguments as plain numbers, before the legality test of D22. -/
structure RawParams where
  addr : Nat
  sizeX : Nat
  sizeY : Nat
  font : Nat
  family : Family
  blReset : Bool
  clockRes : Nat
deriving DecidableEq, Repr, Inhabited

/-- One answer of the bus adapter to `requestFrom(ADDR, 1)`: how many bytes are available, and the byte
`read()` gives (R50, R111). -/
structure Reply where
  available : Nat
  data : Byte
deriving DecidableEq, Repr, Inhabited

/-- DESIGN CHOICE (notes/assumptions/1): the parameters `State.reset` is built with. The spec fixes none
of them. No obligation rests on these values: they quantify over all parameters. -/
def Config.params : Params where
  addr := 0x20
  sizeX := 16
  sizeY := .two
  font := .f5x8
  family := .hd44780
  blReset := false
  clockRes := 1000

/-- FREE VALUE (notes/assumptions/5): the responder's answer to a read request when nothing is known of
the responder; "each `BusRead1()` may be answered by any byte or by `Short`" (R69). -/
opaque Config.freeReply : Nat → Reply

/-- FREE VALUE (notes/assumptions/7): how long a bus operation takes, in microseconds (R306, U11). -/
opaque Config.freeBusTime : Nat → Nat

/-- FREE VALUE (notes/assumptions/7): how much longer a wait lasts than it must, in microseconds; "there
is no upper bound" (R221). -/
opaque Config.freeSlack : Nat → Nat

end Sys2Proof
end

