-- ==== Sys2Proof/Machine/State.lean ====
section
/-!
DEFINITION. The state of the machine: everything 10_state.md gives the block (R20 to R31, R35), the
responder's state as far as the spec describes it (R34 and 20_memory.md section 8), and the block's four
interfaces (decision D1) as plain lists. INVENTORY.md lists every field with its rule.
-/

namespace Sys2Proof.Machine

open Sys2Proof

/-- The machine stops with a fault. THERE IS NONE: "The block raises no synchronous exception" (R250). So
this type has no constructor, nobody raises one, and every step answers a next state or refuses. -/
inductive Fault
deriving DecidableEq, Repr

/-- The machine gives no meaning to what it was handed. -/
inductive Refusal where
  /-- An instruction that has no meaning yet. No arm of `exec` raises it. Safe. -/
  | notModelled (mnemonic : String)
  /-- Raised by `step` at `READY`: the byte at the command port is 0x00 or 0x22 to 0xFF and "names no
  command", "a model refuses them" (R84, D3, U5). Safe. -/
  | noCommand (op : Byte)
  /-- Raised by `step` at `READY`: fewer bytes than the opcode's format, "is not a command" (R84, U5), and
  by the meanings of the glyph commands for data of another length (R80, R84). Safe. -/
  | shortCommand (op : Byte)
  /-- Raised by the meaning of a command run in a state that is not `READY`: "the port accepts nothing"
  (R27, R283). `step` never hands over a command in such a state. Safe. -/
  | portClosed
  /-- Raised by `State.construct`: a construction argument outside its legal values, "a model takes them as
  preconditions and refuses" (D22, U6). Safe. -/
  | illegalParameter
deriving DecidableEq, Repr

/-- A memory as (address, byte) pairs: addresses strictly rising, no entry equal to `Memory.blank`
(`Memory.wf`, Machine/Memory.lean). -/
abbrev Memory := List Host.Cell

/-- The LCD address spaces (R54, R55). -/
inductive Space where
  | ddram
  | cgram
deriving DecidableEq, Repr, Inhabited

/-- Which half of a byte the LCD controller expects or presents next (R34 (e)). -/
inductive Phase where
  | hi
  | lo
deriving DecidableEq, Repr, Inhabited

/-- The LCD controller of the reference responder (20_memory.md section 8, non-normative: PRESUMED,
notes/assumptions/10). The expander's latch `P` is `State.latch`. -/
structure Lcd where
  /-- `AC`, the address counter, 7 bits (R34 (a)) -/
  ac : Addr7
  /-- the space `AC` addresses (R53) -/
  space : Space
  /-- `DD[0..127]` -/
  dd : Memory
  /-- `CG[0..63]` -/
  cg : Memory
  /-- `ID`, the LCD controller's own direction bit: true = increment -/
  inc : Bool
  /-- `BF`, the busy flag (R34 (b)) -/
  bf : Bool
  /-- 4-bit interface mode (R34 (e)) -/
  mode4 : Bool
  /-- the nibble phase (R34 (e)) -/
  phase : Phase
  /-- `hold`, the high nibble of a byte half received -/
  hold : Nibble
  /-- `rd`, the byte being read out -/
  rd : Byte
deriving DecidableEq, Repr, Inhabited

/-- The LCD controller at its own power-on: 8-bit mode ("the controller powers up in 8-bit mode", R225);
the rest is DESIGN CHOICE (notes/assumptions/2). -/
def Lcd.powerOn : Lcd where
  ac := 0
  space := .ddram
  dd := []
  cg := []
  inc := true
  bf := false
  mode4 := false
  phase := .hi
  hold := 0
  rd := 0

/-- The sequencer position (R27). -/
inductive Seq where
  | init (k : Nat)
  | ready
  | exec
deriving DecidableEq, Repr, Inhabited

/-- Result of `BusRead1` (R111). -/
inductive Answer where
  | byte (v : Byte)
  | short
deriving DecidableEq, Repr, Inhabited

/-- An item of the bus trace (R13): `W xx`, `R=xx` or `R=short`, `T>=d` (d in microseconds). Every bus
operation names the device address (R50). -/
inductive Event where
  | write (addr : Addr7) (b : Byte)
  | read (addr : Addr7) (a : Answer)
  | wait (micros : Nat)
deriving DecidableEq, Repr, Inhabited

/-- The response to a command (R81). -/
inductive Response where
  | unit
  | byte (v : Byte)
  | bool (b : Bool)
deriving DecidableEq, Repr, Inhabited

/-- What the sequencer has still to issue for the command or init step in progress: the
micro-operations of 40_codec.md and 44_init_sequences.md. -/
inductive Micro where
  /-- `WaitAtLeast(d)`, d in microseconds (R221) -/
  | wait (micros : Nat)
  /-- `NibbleWrite(rs, n)` alone (R112, R222) -/
  | nibble (rs : Bool) (n : Byte)
  /-- `BusWrite(b)` (R110) -/
  | bus (b : Byte)
  /-- `RegWrite(rs, v)` (R120) -/
  | regWrite (rs : Bool) (v : Byte)
  /-- `saved = SaveAC()` (R124) -/
  | saveAC
  /-- `RestoreAC(saved)` (R124) -/
  | restoreAC
  /-- `v = RegRead(1)`, the data read of READ_DDRAM and READ_CGRAM (R177, R178) -/
  | readData
  /-- `return r` -/
  | ret (r : Response)
  /-- `return Byte(v)` of READ_DDRAM and READ_CGRAM -/
  | retValue
deriving DecidableEq, Repr, Inhabited

/-- The state. -/
structure State where
  /-- the construction parameters, latched (R30, R280) -/
  cfg : Params
  /-- `EM`, entry mode (R20, R22) -/
  em : Byte
  /-- `DC`, display control (R20, R23) -/
  dc : Byte
  /-- `SH`, cursor-or-display shift (R20, R24) -/
  sh : Byte
  /-- `FS`, function set (R20, R25) -/
  fs : Byte
  /-- `BL`, the backlight flag (R29) -/
  bl : Bool
  /-- `seq` (R27) -/
  seq : Seq
  /-- the micro-operations still to be issued; empty when none is begun -/
  ops : List Micro
  /-- the address counter value taken by `SaveAC` for the length of a command (R124) -/
  saved : Byte
  /-- the data byte read by READ_DDRAM or READ_CGRAM (R177, R178) -/
  value : Byte
  /-- the expander's output latch, the last byte written to it (R34 (d), R52) -/
  latch : Byte
  /-- the LCD controller of the reference responder, or nothing known of it (R34, R69) -/
  lcd : Option Lcd
  /-- the command port: bytes presented by the host, first byte first (R80) -/
  cmdPort : List Byte
  /-- the response port: responses given, oldest first (R81) -/
  responses : List Response
  /-- the bus port and the waits: everything issued, oldest first (R10, R13) -/
  trace : List Event
  /-- scripted answers of the responder, taken before any other (R69) -/
  replies : List Reply
  /-- the reset line: a reset with these construction arguments is asked for (R280) -/
  resetIn : Option Params
  /-- the clock: microseconds of real time since power-on (R221, R261) -/
  now : Nat
  /-- the model's own: bus operations and waits so far, the argument of the free values -/
  ticks : Nat
deriving DecidableEq, Repr, Inhabited

/-- The machine right after construction with parameters `p` (R35), nothing presented and nothing issued
yet. The responder's part is DESIGN CHOICE (notes/assumptions/2). -/
def State.powerOn (p : Params) : State where
  cfg := p
  em := 0x06
  dc := 0x0C
  sh := 0x10
  fs := 0x28
  bl := p.blReset
  seq := .init 1
  ops := []
  saved := 0
  value := 0
  latch := 0xFF
  lcd := none
  cmdPort := []
  responses := []
  trace := []
  replies := []
  resetIn := none
  now := 0
  ticks := 0

/-- The machine right after reset (R35), with the parameters of notes/assumptions/1. -/
def State.reset : State := State.powerOn Config.params

end Sys2Proof.Machine
end

