-- ==== Sys2Proof/Machine/Flags.lean ====
section
/-!
DEFINITION. Bits. The block "has no status flags and no condition codes of its own" (10_state.md R28);
what it computes on bits is here: the busy flag and the address counter of a status byte (R122, R123),
the set/clear mask function of the register model (R140, R154), the assembly of a byte read in two
samples (R115), and the named fields of the four registers (R22 to R25).
-/

namespace Sys2Proof.Machine

open Sys2Proof

/-- The busy flag: "top bit" of a status byte (R28, R118, R123). -/
def busyFlag (status : Byte) : Bool := status.getLsbD 7

/-- The address counter of a status byte: "masks off the busy-flag bit" (R122). -/
def statusAddress (status : Byte) : Byte := status &&& 0x7F

/-- `(s1.v & 0xF0) | (s2.v >> 4)` (R114, R115). -/
def joinSamples (s1 s2 : Byte) : Byte := (s1 &&& 0xF0) ||| (s2 >>> 4)

/-- `upd(current, mask)` (R140): the comparison is unsigned, and 0x10 itself is a set mask. -/
def upd (current mask : Byte) : Byte := if 0x10 < mask then current &&& mask else current ||| mask

/-- `updSH(mask)` (R154): "every update first zeroes the register, applies the mask, then forces bit 0x10
set". -/
def updSH (mask : Byte) : Byte := upd 0x00 mask ||| 0x10

/-- `EM` bit 1, `ID`: the address counter increments (R22). -/
def State.entryIncrement (s : State) : Bool := s.em.getLsbD 1

/-- `EM` bit 0, `S`: display shift on data write (R22). -/
def State.entryShift (s : State) : Bool := s.em.getLsbD 0

/-- `DC` bit 2, `D`: display on (R23). -/
def State.displayOn (s : State) : Bool := s.dc.getLsbD 2

/-- `DC` bit 1, `C`: cursor on (R23). -/
def State.cursorOn (s : State) : Bool := s.dc.getLsbD 1

/-- `DC` bit 0, `B`: blinking on (R23). -/
def State.blinkOn (s : State) : Bool := s.dc.getLsbD 0

/-- `SH` bit 3, `SC`: the last shift command shifted the display (R24). -/
def State.shiftedDisplay (s : State) : Bool := s.sh.getLsbD 3

/-- `SH` bit 2, `RL`: to the right (R24). -/
def State.shiftedRight (s : State) : Bool := s.sh.getLsbD 2

/-- `FS` bit 4, `DL`: 8-bit interface (R25). -/
def State.wideInterface (s : State) : Bool := s.fs.getLsbD 4

/-- `FS` bit 3, `N`: two lines (R25). -/
def State.twoLines (s : State) : Bool := s.fs.getLsbD 3

/-- `FS` bit 2, `F`: 5x10 font (R25). -/
def State.tallFont (s : State) : Bool := s.fs.getLsbD 2

/-- `FS` after the function-set configuration step (R224): "Font selection XORs the 5×10-font bit into
function-set only when requested; line-count XORs the one-line bit only when `sizeY == 1`". -/
def configuredFS (fs : Byte) (font : Font) (lines : LineCount) : Byte :=
  let fs := if font = .f5x10 then fs ^^^ 0x04 else fs
  if lines = .one then fs ^^^ 0x08 else fs

end Sys2Proof.Machine
end

