-- ==== Sys2Proof/Machine/InitTable.lean ====
section
/-!
DEFINITION. The two initialization sequences as tables (44_init_sequences.md R220, R225, R226).
-/

namespace Sys2Proof.Machine

open Sys2Proof

/-- What one init step does. -/
inductive InitAction where
  /-- `WaitAtLeast(d)`, d in microseconds (R221) -/
  | wait (micros : Nat)
  /-- `NibbleWrite(0, n)` (R222) -/
  | rawNibble (n : Byte)
  /-- the function-set configuration step (R224) -/
  | functionSet
  /-- `RegWrite(0, 0x08)`, display off, `DC` left alone (R227) -/
  | displayOff
  /-- `RegWrite(0, 0x01)`, clear display -/
  | clear
  /-- `RegWrite(0, x[EM])` -/
  | entryMode
  /-- `x[DC] <- upd(x[DC], 0x04); RegWrite(0, x[DC])` -/
  | displayOn
deriving DecidableEq, Repr

/-- Variant A (HD44780, SPLC780D), steps 1 to 12 (R225). -/
def variantA : List InitAction :=
  [.wait 40000, .rawNibble 0x30, .wait 4100, .rawNibble 0x30, .wait 100, .rawNibble 0x30,
   .rawNibble 0x20, .functionSet, .displayOff, .clear, .entryMode, .displayOn]

/-- Variant B (KS0066), steps 1 to 10 (R226). -/
def variantB : List InitAction :=
  [.wait 30000, .rawNibble 0x20, .functionSet, .wait 39, .displayOff, .wait 39, .clear, .wait 1500,
   .entryMode, .displayOn]

/-- Selection (R220). -/
def initSequence : Family → List InitAction
  | .hd44780 | .splc780d => variantA
  | .ks0066 => variantB

/-- The action of step k, counted from 1 (R225, R226). -/
def initAction (family : Family) (k : Nat) : Option InitAction :=
  match k with
  | 0 => none
  | k + 1 => (initSequence family)[k]?

/-- The register update a step makes before it transmits (R224, R225 step 12, R226 step 10). -/
def InitAction.prepare (a : InitAction) (s : State) : State :=
  match a with
  | .functionSet => { s with fs := configuredFS s.fs s.cfg.font s.cfg.sizeY }
  | .displayOn => { s with dc := upd s.dc 0x04 }
  | .wait _ | .rawNibble _ | .displayOff | .clear | .entryMode => s

/-- The micro-operations of a step, the register update made. -/
def InitAction.ops (a : InitAction) (s : State) : List Micro :=
  match a with
  | .wait d => [.wait d]
  | .rawNibble n => [.nibble false n]
  | .functionSet => [.regWrite false s.fs]
  | .displayOff => [.regWrite false 0x08]
  | .clear => [.regWrite false 0x01]
  | .entryMode => [.regWrite false s.em]
  | .displayOn => [.regWrite false s.dc]

end Sys2Proof.Machine
end

