-- ==== Sys2Proof/Machine/Memory.lean ====
section
/-!
DEFINITION. The responder's memories, DDRAM and CGRAM (20_memory.md R54, R55, section 8), as lists of
(address, byte) pairs in one canonical form. The block has no memory of its own (10_state.md R33).
-/

namespace Sys2Proof.Machine

open Sys2Proof

/-- What an unlisted address reads as. 0x20 is what clearing the display leaves in DDRAM (20_memory.md
section 8); for CGRAM, and for DDRAM before a clear, it is DESIGN CHOICE (notes/assumptions/2). -/
def Memory.blank : Byte := 0x20

/-- One byte. -/
def Memory.read : Memory → Nat → Byte
  | [], _ => Memory.blank
  | (k, w) :: m, a => if k = a then w else Memory.read m a

/-- Store one byte; storing the blank byte takes the entry out. -/
def Memory.write : Memory → Nat → Byte → Memory
  | [], a, v => if v = Memory.blank then [] else [(a, v)]
  | (k, w) :: m, a, v =>
    if a < k then (if v = Memory.blank then (k, w) :: m else (a, v) :: (k, w) :: m)
    else if a = k then (if v = Memory.blank then m else (a, v) :: m)
    else (k, w) :: Memory.write m a v

/-- Addresses strictly rising from `lo` and below `hi`, no blank byte listed. -/
def Memory.wfFrom (lo hi : Nat) : Memory → Bool
  | [] => true
  | (k, w) :: m => decide (lo ≤ k) && decide (k < hi) && decide (w ≠ Memory.blank) && wfFrom (k + 1) hi m

/-- The canonical form of a memory of `size` bytes. -/
def Memory.wf (size : Nat) (m : Memory) : Bool := Memory.wfFrom 0 size m

/-- Number of DDRAM addresses: 7-bit addresses (R54). -/
def ddramSize : Nat := 128

/-- Number of CGRAM addresses: 0x00 to 0x3F (R178). -/
def cgramSize : Nat := 64

end Sys2Proof.Machine
end

