-- ==== Sys2Proof/Machine/Operands.lean ====
section
/-!
DEFINITION. How operands become bytes: the expander frames (30_encoding.md R95 to R97), the two nibbles
of a byte (20_memory.md R57), the line offset table (10_state.md R31), the address-set bytes and the
glyph bases (42_addressing_commands.md R182). All arithmetic is on 8 bits and wraps (R12).
-/

namespace Sys2Proof.Machine

open Sys2Proof

/-- A bit at a place of a byte. -/
def bitAt (b : Bool) (place : Nat) : Byte := if b then 1#8 <<< place else 0

/-- Write frame: `XW(n, rs, e) = (n & 0xF0) | (BL << 3) | (e << 2) | rs` (R96). -/
def writeFrame (bl : Bool) (n : Byte) (rs e : Bool) : Byte :=
  (n &&& 0xF0) ||| bitAt bl 3 ||| bitAt e 2 ||| bitAt rs 0

/-- Read frame: `XR(rs, e) = 0xF2 | (BL << 3) | (e << 2) | rs` (R97). -/
def readFrame (bl : Bool) (rs e : Bool) : Byte :=
  0xF2 ||| bitAt bl 3 ||| bitAt e 2 ||| bitAt rs 0

/-- The first nibble of a byte: `v & 0xF0` (R57, R120). -/
def highNibble (v : Byte) : Byte := v &&& 0xF0

/-- The second nibble of a byte, "low nibble shifted into the high position": `(v << 4) & 0xF0` (R57, R120). -/
def lowNibble (v : Byte) : Byte := (v <<< 4) &&& 0xF0

/-- `LINEOFF[y]` for y in 0..3, with none above: "requests for line index > 3 are rejected (no-op), never
produce an address" (R31). -/
def lineOffset (sizeX : Byte) (y : Byte) : Option Byte :=
  if y = 0 then some 0x00
  else if y = 1 then some 0x40
  else if y = 2 then some sizeX
  else if y = 3 then some (0x40 + sizeX)
  else none

/-- DDRAM-address-set byte: `a | 0x80` on the full 8-bit operand (R54, R98, D15). -/
def ddramSet (a : Byte) : Byte := a ||| 0x80

/-- CGRAM-address-set byte: `a | 0x40` on the full 8-bit operand (R55, R98, D15). -/
def cgramSet (a : Byte) : Byte := a ||| 0x40

/-- The byte `SET_CURSOR x, y` sends, `(LINEOFF[y] + x) | 0x80`, or none when y > 3 (R170). -/
def cursorByte (sizeX x y : Byte) : Option Byte := (lineOffset sizeX y).map fun base => ddramSet (base + x)

/-- `(slot & 0x07) << 3` (R180). -/
def glyph8Base (slot : Byte) : Byte := (slot &&& 0x07) <<< 3

/-- `(slot & 0x06) << 3`: the mask is applied first (R181, 90_conflicts.md C6). -/
def glyph11Base (slot : Byte) : Byte := (slot &&& 0x06) <<< 3

end Sys2Proof.Machine
end

