-- ==== Sys2Proof/Machine/Responder.lean ====
section
/-!
DEFINITION. The reference responder of 20_memory.md section 8: the LCD controller behind the expander, as
that section describes it, sentence by sentence. It is "not normative" and "wholly from general
knowledge" (GK12): PRESUMED, notes/assumptions/10. It answers reads only in states whose `lcd` holds one;
the block's rules hold for every responder (R69).
-/

namespace Sys2Proof.Machine

open Sys2Proof

/-- `mem[AC]`: `DD[AC]` in DDRAM space, `CG[AC & 0x3F]` in CGRAM space. -/
def Lcd.memRead (l : Lcd) : Byte :=
  match l.space with
  | .ddram => l.dd.read l.ac.toNat
  | .cgram => l.cg.read (l.ac &&& 0x3F).toNat

/-- `mem[AC] <- byte`. -/
def Lcd.memWrite (l : Lcd) (v : Byte) : Lcd :=
  match l.space with
  | .ddram => { l with dd := l.dd.write l.ac.toNat v }
  | .cgram => { l with cg := l.cg.write (l.ac &&& 0x3F).toNat v }

/-- `AC <- AC + 1` if `ID` else `AC - 1` (7-bit wrap). -/
def Lcd.stepAC (l : Lcd) : Lcd := { l with ac := if l.inc then l.ac + 1 else l.ac - 1 }

/-- "Executing a byte with RS = 0". Section 8 says of 0x20 to 0x3F only "function set", and lists no 0x00. DESIGN
CHOICE (notes/assumptions/10): in 4-bit mode a function-set byte, one with DL = 1 (0x30 to 0x3F) too, changes
nothing here: `mode4` stays set and `phase` goes back to the high half as after every byte; and 0x00 does nothing.
Of 0x08 to 0x1F it says only "no effect on memory". DESIGN CHOICE (notes/assumptions/10): they change nothing here, so
a cursor-shift byte (0x10 to 0x17) leaves `AC` as it is. R34 (a) does not list it among what moves `AC`; R24 says that
such a command "moved the cursor".
What a rerun of the init sequence does to lost nibble pairing (R293) is said at `Lcd.onFallWrite`. -/
def Lcd.instruction (l : Lcd) (b : Byte) : Lcd :=
  if b.getLsbD 7 then { l with space := .ddram, ac := b.extractLsb' 0 7 }
  else if b.getLsbD 6 then { l with space := .cgram, ac := (b &&& 0x3F).extractLsb' 0 7 }
  else if b.getLsbD 5 then l
  else if b.getLsbD 4 then l
  else if b.getLsbD 3 then l
  else if b.getLsbD 2 then { l with inc := b.getLsbD 1 }
  else if b.getLsbD 1 then { l with ac := 0, space := .ddram }
  else if b.getLsbD 0 then { l with dd := [], ac := 0, space := .ddram, inc := true }
  else l

/-- Executing a byte, RS = 0 or RS = 1: with RS = 1, "`mem[AC] <- byte`, then `AC` steps as for a read". -/
def Lcd.execute (l : Lcd) (rs : Bool) (b : Byte) : Lcd :=
  if rs then (l.memWrite b).stepAC else l.instruction b

/-- The byte made of a held high nibble and the nibble in bits 7:4 of an expander byte: `(hold << 4) | b[7:4]`. -/
def joinNibbles (hold : Nibble) (b : Byte) : Byte := hold ++ b.extractLsb' 4 4

/-- A rising E in read mode: the byte to read out is loaded at the high phase. -/
def Lcd.onRise (l : Lcd) (b : Byte) : Lcd :=
  if b.getLsbD 1 && l.phase == .hi then
    { l with rd := if b.getLsbD 0 then l.memRead else BitVec.ofBool l.bf ++ l.ac }
  else l

/-- A falling E in write mode: the nibble `b[7:4]` is latched. In 8-bit mode it is executed as the
instruction `b[7:4] << 4`, and 0x20 turns to 4-bit mode.

DESIGN CHOICE (notes/assumptions/10): section 8 is followed also where the pairing is lost, which the spec leaves open
(R293; 93_implementation_defined.md U3, "any value"). In 4-bit mode every nibble, a raw one too, turns `phase` over.
So, no read aborting, a rerun of Variant A (four raw nibbles) leaves lost pairing lost and pairing in step in step,
while Variant B (one raw nibble) brings lost pairing back, without the power cycle R293 asks for, and breaks pairing
that was in step. -/
def Lcd.onFallWrite (l : Lcd) (b : Byte) : Lcd :=
  if l.mode4 then
    match l.phase with
    | .hi => { l with hold := b.extractLsb' 4 4, phase := .lo }
    | .lo => { l.execute (b.getLsbD 0) (joinNibbles l.hold b) with phase := .hi }
  else if highNibble b = 0x20 then { l with mode4 := true, phase := .hi }
  else l.instruction (highNibble b)

/-- A falling E in read mode: "`phase` toggles; when it returns to hi and RS = 1", `AC` steps. -/
def Lcd.onFallRead (l : Lcd) (b : Byte) : Lcd :=
  match l.phase with
  | .hi => { l with phase := .lo }
  | .lo => if b.getLsbD 0 then { l.stepAC with phase := .hi } else { l with phase := .hi }

/-- On `BusWrite(b)`: what the LCD controller does, `p` being the expander's latch before. -/
def Lcd.onBusWrite (l : Lcd) (p b : Byte) : Lcd :=
  match p.getLsbD 2, b.getLsbD 2 with
  | false, true => l.onRise b
  | true, false => if b.getLsbD 1 then l.onFallRead b else l.onFallWrite b
  | _, _ => l

/-- On `BusRead1()`: the pins. `v[3:0] = P[3:0]`, `v[7:4] = P[7:4] & out`. -/
def Lcd.pins (l : Lcd) (p : Byte) : Byte :=
  let out : Nibble :=
    if p.getLsbD 1 && p.getLsbD 2 then
      match l.phase with
      | .hi => l.rd.extractLsb' 4 4
      | .lo => l.rd.extractLsb' 0 4
    else 0xF
  (p.extractLsb' 4 4 &&& out) ++ p.extractLsb' 0 4

end Sys2Proof.Machine
end

