-- ==== Sys2Proof/Machine/Ops.lean ====
section
/-!
DEFINITION. The named operations every meaning is built from: the bus compositions and the nibble
protocol codec (40_codec.md R110 to R124), the wait (44_init_sequences.md R221), and the sequencer that
issues micro-operations in order (10_state.md R27, 40_codec.md R125).

TAKING AN EXCEPTION has no operation here, because the block has none: no exception (R250), no interrupt
(R256), "no trap entry and no trap return: no state is saved, no mode changes, control goes nowhere"
(R258).
-/

namespace Sys2Proof.Machine

open Sys2Proof

/-! ## The bus port (R50, R110, R111) -/

/-- Issue one item of the bus trace. It takes time, how much the spec does not say (R306). -/
def State.record (s : State) (e : Event) : State :=
  { s with
    trace := s.trace ++ [e]
    now := s.now + Config.freeBusTime s.ticks
    ticks := s.ticks + 1 }

/-- `BusWrite(b)`: one transmission to `ADDR`. "Whatever status `endTransmission()` gives back is not
looked at" (R110). The expander's latch takes the byte (R52) and the reference responder, where there is
one, sees the change of its pins. -/
def busWrite (b : Byte) (s : State) : State :=
  { s.record (.write s.cfg.addr b) with
    latch := b
    lcd := s.lcd.map fun l => l.onBusWrite s.latch b }

/-- The responder's answer to `requestFrom(ADDR, 1)`: the next scripted answer, else the reference
responder's pins, else anything (R69). -/
def nextReply (s : State) : Reply :=
  match s.replies, s.lcd with
  | r :: _, _ => r
  | [], some l => ⟨1, l.pins s.latch⟩
  | [], none => Config.freeReply s.ticks

/-- "if n != 1 then return Short; return Byte(read())" (R111). -/
def replyAnswer (r : Reply) : Answer := if r.available = 1 then .byte r.data else .short

/-- `BusRead1()`: one one-byte read request to `ADDR` (R111). -/
def busRead1 (s : State) : Answer × State :=
  let a := replyAnswer (nextReply s)
  (a, { s.record (.read s.cfg.addr a) with replies := s.replies.tail })

/-! ## The codec (R112 to R123) -/

/-- `NibbleWrite(rs, n)`: E high, high, low (R112). -/
def nibbleWrite (rs : Bool) (n : Byte) (s : State) : State :=
  let s := busWrite (writeFrame s.bl n rs true) s
  let s := busWrite (writeFrame s.bl n rs true) s
  busWrite (writeFrame s.bl n rs false) s

/-- One half of a register read: E low, E high, sample. -/
def sampleNibble (rs : Bool) (s : State) : Answer × State :=
  let s := busWrite (readFrame s.bl rs false) s
  let s := busWrite (readFrame s.bl rs true) s
  busRead1 s

/-- `RegRead(rs)`: five transmissions, a sample after the 2nd and the 4th (R114). On a short sample it
returns 0x00 at once and issues none of its remaining operations (R116). -/
def regRead (rs : Bool) (s : State) : Byte × State :=
  match sampleNibble rs s with
  | (.short, s) => (0x00, s)
  | (.byte v1, s) =>
    match sampleNibble rs s with
    | (.short, s) => (0x00, s)
    | (.byte v2, s) => (joinSamples v1 v2, busWrite (readFrame s.bl rs false) s)

/-- The two nibble writes of a full register write, high nibble first (R57, R120). -/
def byteWrite (rs : Bool) (v : Byte) (s : State) : State :=
  nibbleWrite rs (lowNibble v) (nibbleWrite rs (highNibble v) s)

/-- `ReadAddressCounter()` (R122). -/
def readAddressCounter (s : State) : Byte × State :=
  let (v, s) := regRead false s
  (statusAddress v, s)

/-- `ReadBusyFlag()` (R123). -/
def readBusyFlag (s : State) : Bool × State :=
  let (v, s) := regRead false s
  (busyFlag v, s)

/-! ## Time (R221) -/

/-- How many times the clock's reading must change, at least, for `d` microseconds to have passed when one
unit of the reading is `res` microseconds: one change may come at once, so one more than `d / res` rounded
up. DEDUCED from R221 ("with a 1 ms clock a wait of at least 100 µs is met by waiting until the reading has
changed twice"), notes/assumptions/7. -/
def waitReadings (d res : Nat) : Nat := (d + res - 1) / res + 1

/-- `WaitAtLeast(d)`: no bus operation until at least `d` has elapsed and the reading of the clock has
changed often enough to show it; there is no upper bound (R221). DESIGN CHOICE (notes/assumptions/7): with
`clockRes` 0, which the spec does not exclude (R8), division by 0 gives 0 and the wait ends on real time alone. -/
def waitAtLeast (d : Nat) (s : State) : State :=
  let res := s.cfg.clockRes
  let shown := (s.now / res + waitReadings d res) * res
  { s with
    trace := s.trace ++ [.wait d]
    now := max (s.now + d) shown + Config.freeSlack s.ticks
    ticks := s.ticks + 1 }

/-! ## The sequencer (R27, R125) -/

/-- How a micro-operation ends: it is over, or it is a full register write whose busy poll has just read a
busy status and will read again. -/
inductive Turn where
  | done (s : State)
  | busy (s : State)
deriving DecidableEq, Repr

/-- `RegWrite(rs, v)` (R120), one turn of its busy poll (R118): a status read, then, if the busy flag is
clear, the two nibble writes. The status read always uses rs = 0. -/
def regWrite (rs : Bool) (v : Byte) (s : State) : Turn :=
  match regRead false s with
  | (status, s) => if busyFlag status then .busy s else .done (byteWrite rs v s)

/-- `return r`: the response is given (R81). -/
def State.respond (s : State) (r : Response) : State := { s with responses := s.responses ++ [r] }

/-- One micro-operation. -/
def micro (m : Micro) (s : State) : Turn :=
  match m with
  | .wait d => .done (waitAtLeast d s)
  | .nibble rs n => .done (nibbleWrite rs n s)
  | .bus b => .done (busWrite b s)
  | .regWrite rs v => regWrite rs v s
  | .saveAC => match readAddressCounter s with | (v, s) => .done { s with saved := v }
  | .restoreAC => regWrite false (ddramSet s.saved) s
  | .readData => match regRead true s with | (v, s) => .done { s with value := v }
  | .ret r => .done (s.respond r)
  | .retValue => .done (s.respond (.byte s.value))

/-- Where `seq` goes when a command, or step k of initialization, is over (R27, R220). -/
def nextSeq (family : Family) : Seq → Seq
  | .init k => if k < (initSequence family).length then .init (k + 1) else .ready
  | .exec => .ready
  | .ready => .ready

/-- The command or init step is over. -/
def State.finish (s : State) : State :=
  { s with seq := nextSeq s.cfg.family s.seq, ops := [], saved := 0, value := 0 }

/-- Issue micro-operations "in the straight-line order the command's rule gives" (R125), until they are all
issued or a busy poll has read a busy status. In that case the poll, and what stands behind it, stays to be
issued: "A model must keep this as an infinite run and must not give the command a step that leaves the
loop" (R254). -/
def run : List Micro → State → State
  | [], s => s.finish
  | m :: ms, s =>
    match micro m s with
    | .done s => run ms s
    | .busy s => { s with ops := m :: ms }

/-- A command is accepted: `READY` goes to `EXEC` (R27). -/
def State.accept (s : State) : State := { s with seq := .exec, ops := [], saved := 0, value := 0 }

/-- A command: the port accepts it at `READY` only (R27, R283); what it does is `effect`, from the state in
which it is in progress. -/
def command (s : State) (effect : State → State) : Host.Outcome State Fault Refusal :=
  match s.seq with
  | .ready => .next (effect s.accept)
  | .init _ => .refused .portClosed
  | .exec => .refused .portClosed

/-- A command that is one list of micro-operations. -/
def commandOps (s : State) (ops : List Micro) : Host.Outcome State Fault Refusal :=
  command s (run ops)

/-- The sequencer position while a word is emitted that no command asked for. -/
def emitSeq : Seq → Seq
  | .ready => .exec
  | .exec => .exec
  | .init k => .init k

/-- A word the block itself emits (an LCD instruction byte, a raw nibble, a frame): its micro-operations are
issued in front of whatever the sequencer has still to issue. At `READY` there is nothing else; at a step
of initialization not yet begun, they are the step. -/
def emit (s : State) (ops : List Micro) : Host.Outcome State Fault Refusal :=
  .next (run (ops ++ s.ops) { s with seq := emitSeq s.seq })

end Sys2Proof.Machine
end

