-- ==== Sys2Proof/Machine/AddressingCommands.lean ====
section
/-!
DEFINITION. The addressing layer and the data commands of 42_addressing_commands.md. None writes a
register of the block or `BL`.
-/

namespace Sys2Proof.Machine

open Sys2Proof

/-- `SET_CURSOR x, y` as a step of a command: no bus operation at all if y > 3 (R170). -/
def cursorOps (sizeX x y : Byte) : List Micro :=
  match cursorByte sizeX x y with
  | some b => [.regWrite false b]
  | none => []

/-- The save, access, restore pattern (R175): save, address-set, the data transactions, restore. -/
def saveAccessRestore (addressSet : Byte) (data : List Micro) : List Micro :=
  .saveAC :: .regWrite false addressSet :: (data ++ [.restoreAC])

/-- Data bytes to the LCD data register, in ascending index order, one full register write each (R58). -/
def dataWrites (d : List Byte) : List Micro := d.map (.regWrite true)

/-- A glyph command: the save, access, restore pattern with the glyph's bytes (R180, R181). Data of another
length than the format's is not this command (R80, R84). -/
def glyphCommand (op : Byte) (length : Nat) (base : Byte) (d : List Byte) (s : State) :
    Host.Outcome State Fault Refusal :=
  if d.length = length then
    commandOps s (saveAccessRestore (cgramSet base) (dataWrites d) ++ [.ret .unit])
  else .refused (.shortCommand op)

/-- R170. -/
def execSetCursor (x y : Byte) (s : State) : Host.Outcome State Fault Refusal :=
  commandOps s (cursorOps s.cfg.sizeX x y ++ [.ret .unit])

/-- R171. -/
def execDisplayChar (c : Byte) (s : State) : Host.Outcome State Fault Refusal :=
  commandOps s [.regWrite true c, .ret .unit]

/-- R173: cursor to (0, line), `SIZE_X` spaces (code 0x20, D24), cursor to (0, line); the cursor steps are
no-ops for a line above 3, the spaces are still written (D16). -/
def execEraseLine (line : Byte) (s : State) : Host.Outcome State Fault Refusal :=
  let sizeX := s.cfg.sizeX
  commandOps s
    (cursorOps sizeX 0 line ++ dataWrites (List.replicate sizeX.toNat 0x20) ++ cursorOps sizeX 0 line
      ++ [.ret .unit])

/-- R176. -/
def execWriteDdram (addr data : Byte) (s : State) : Host.Outcome State Fault Refusal :=
  commandOps s (saveAccessRestore (ddramSet addr) [.regWrite true data] ++ [.ret .unit])

/-- R177. No busy poll stands between the address-set write and the data read (D8). -/
def execReadDdram (addr : Byte) (s : State) : Host.Outcome State Fault Refusal :=
  commandOps s (saveAccessRestore (ddramSet addr) [.readData] ++ [.retValue])

/-- R178. -/
def execReadCgram (addr : Byte) (s : State) : Host.Outcome State Fault Refusal :=
  commandOps s (saveAccessRestore (cgramSet addr) [.readData] ++ [.retValue])

/-- R179. -/
def execWriteCgram (addr data : Byte) (s : State) : Host.Outcome State Fault Refusal :=
  commandOps s (saveAccessRestore (cgramSet addr) [.regWrite true data] ++ [.ret .unit])

/-- R180. -/
def execWriteGlyph5x8 (slot : Byte) (d : List Byte) (s : State) : Host.Outcome State Fault Refusal :=
  glyphCommand 0x15 8 (glyph8Base slot) d s

/-- R181. -/
def execWriteGlyph5x10 (slot : Byte) (d : List Byte) (s : State) : Host.Outcome State Fault Refusal :=
  glyphCommand 0x16 11 (glyph11Base slot) d s

end Sys2Proof.Machine
end

