-- ==== Sys2Proof/Syntax.lean ====
section
/-!
DEFINITION. The whole syntax: one constructor for each of the 45 rows of spec/opcode_table.json. The
33 commands of the host's command port (30_encoding.md R82), the 8 LCD instruction bytes the block
writes with RS = 0 (R98), the 2 raw nibbles of the init sequences (R223), and the 2 expander frames
(R96, R97).
-/

namespace Sys2Proof

/-- The instructions of the opcode table. -/
inductive Instr where
  -- format OP0 / OP1 / OP2 / G8 / G11: the commands (R82)
  | clearDisplay
  | moveToHome
  | enableDisplay
  | disableDisplay
  | enableCursor
  | disableCursor
  | enableBlinking
  | disableBlinking
  | displayToLeft
  | displayToRight
  | enableShiftOnWrite
  | disableShiftOnWrite
  | shiftCursorLeft
  | shiftCursorRight
  | shiftDisplayLeft
  | shiftDisplayRight
  | setCursor (x y : Byte)
  | writeDdram (addr data : Byte)
  | readDdram (addr : Byte)
  | displayChar (c : Byte)
  | writeGlyph5x8 (slot : Byte) (d : List Byte)
  | writeGlyph5x10 (slot : Byte) (d : List Byte)
  | eraseLine (line : Byte)
  | enableBacklight
  | disableBacklight
  | getEntryMode
  | getDisplayControl
  | getShift
  | getFunctionSet
  | readCgram (addr : Byte)
  | writeCgram (addr data : Byte)
  | readAddressCounter
  | readBusyFlag
  -- format LCDI: the LCD instruction bytes the block emits (R98)
  | lcdClearDisplay
  | lcdReturnHome
  | lcdEntryModeSet (i s : Bool)
  | lcdDisplayControl (d c b : Bool)
  | lcdCursorDisplayShift (s r : Bool)
  | lcdFunctionSet4bit (n f : Bool)
  | lcdSetCgramAddress (a : BitVec 6)
  | lcdSetDdramAddress (a : Addr7)
  -- format RAWN: the raw nibbles of the init sequences (R222, R223)
  | rawNibble8bitInterface
  | rawNibble4bitInterface
  -- format EXPANDER_FRAME: the codec's wire format (R96, R97)
  | xw (n : Nibble) (b e r : Bool)
  | xr (b e r : Bool)
deriving DecidableEq, Repr

/-- The formats of spec/opcode_table.json (R80 for the commands). -/
inductive Format where
  | op0
  | op1
  | op2
  | g8
  | g11
  | lcdi
  | rawn
  | expanderFrame
deriving DecidableEq, Repr

/-- What a command answers with (R81), as the column "response" of R82 gives it. -/
inductive ResponseKind where
  | unit
  | byte
  | bool
deriving DecidableEq, Repr

end Sys2Proof
end

