-- ==== Sys2Proof/WellFormed.lean ====
section
/-!
DEFINITION. Well-formedness of an instruction. Every operand but the glyph data has a type that is
exactly its encoding field, so there is one check: the length of the glyph data, which the command's
format fixes (30_encoding.md R80, formats `G8` and `G11`).
-/

namespace Sys2Proof

/-- Number of data bytes of a 5x8 glyph: `d0 .. d7` (R80, format `G8`). -/
def glyph8Length : Nat := 8

/-- Number of data bytes of a 5x10 glyph: `d0 .. d10` (R80, format `G11`). -/
def glyph11Length : Nat := 11

/-- The check. -/
def Instr.wellFormed : Instr → Bool
  | .writeGlyph5x8 _ d => d.length == glyph8Length
  | .writeGlyph5x10 _ d => d.length == glyph11Length
  | .clearDisplay | .moveToHome | .enableDisplay | .disableDisplay | .enableCursor
  | .disableCursor | .enableBlinking | .disableBlinking | .displayToLeft | .displayToRight
  | .enableShiftOnWrite | .disableShiftOnWrite | .shiftCursorLeft | .shiftCursorRight
  | .shiftDisplayLeft | .shiftDisplayRight | .setCursor _ _ | .writeDdram _ _ | .readDdram _
  | .displayChar _ | .eraseLine _ | .enableBacklight | .disableBacklight | .getEntryMode
  | .getDisplayControl | .getShift | .getFunctionSet | .readCgram _ | .writeCgram _ _
  | .readAddressCounter | .readBusyFlag | .lcdClearDisplay | .lcdReturnHome
  | .lcdEntryModeSet _ _ | .lcdDisplayControl _ _ _ | .lcdCursorDisplayShift _ _
  | .lcdFunctionSet4bit _ _ | .lcdSetCgramAddress _ | .lcdSetDdramAddress _
  | .rawNibble8bitInterface | .rawNibble4bitInterface | .xw _ _ _ _ | .xr _ _ _ => true

end Sys2Proof
end

