-- ==== Sys2Proof/Decode.lean ====
section
/-!
DEFINITION. Decoding and encoding. Four kinds of words exist (30_encoding.md): the commands of the
host's command port (R80, R82), the LCD instruction bytes (R98), the raw nibbles (R223) and the
expander frames (R95 to R97). The words of the kinds overlap as numbers (0x01 is both CLEAR_DISPLAY and
the LCD's clear-display byte), so a word is always read as a word of a stated kind.
-/

namespace Sys2Proof

/-- An encoded instruction, with its kind. -/
inductive Encoded where
  /-- bytes at the command port, byte 0 first (R80) -/
  | command (bytes : List Byte)
  /-- a byte written with RS = 0 (R98) -/
  | lcdByte (b : Byte)
  /-- one nibble written alone (R222) -/
  | rawNibble (n : Nibble)
  /-- one bus transmission (R95) -/
  | frame (b : Byte)
deriving DecidableEq, Repr

/-- Why bytes are refused, by name. -/
inductive DecodeError where
  /-- nothing there -/
  | empty
  /-- the first byte names no command: 0x00, 0x22 to 0xFF (R84) -/
  | noCommand (op : Byte)
  /-- fewer bytes than the opcode's format has: "not a command" (R84) -/
  | shortCommand (op : Byte)
  /-- more bytes than one command where exactly one was expected -/
  | trailingBytes
  /-- the byte is in no row of R98's table -/
  | notAnLcdByte (b : Byte)
  /-- the nibble is neither of R223's two -/
  | notARawNibble (n : Nibble)
  /-- bit 1 set without the pattern 0xF2: neither frame of R96, R97 -/
  | notAFrame (b : Byte)
deriving DecidableEq, Repr

/-- The command named by opcode `op`, its operands taken from the bytes behind the opcode, and what is
left of them (R80, R82, R83). -/
def decodeOp (op : Byte) (rest : List Byte) : Except DecodeError (Instr × List Byte) :=
  match op with
  | 0x01#8 => .ok (.clearDisplay, rest)
  | 0x02#8 => .ok (.moveToHome, rest)
  | 0x03#8 => .ok (.enableDisplay, rest)
  | 0x04#8 => .ok (.disableDisplay, rest)
  | 0x05#8 => .ok (.enableCursor, rest)
  | 0x06#8 => .ok (.disableCursor, rest)
  | 0x07#8 => .ok (.enableBlinking, rest)
  | 0x08#8 => .ok (.disableBlinking, rest)
  | 0x09#8 => .ok (.displayToLeft, rest)
  | 0x0A#8 => .ok (.displayToRight, rest)
  | 0x0B#8 => .ok (.enableShiftOnWrite, rest)
  | 0x0C#8 => .ok (.disableShiftOnWrite, rest)
  | 0x0D#8 => .ok (.shiftCursorLeft, rest)
  | 0x0E#8 => .ok (.shiftCursorRight, rest)
  | 0x0F#8 => .ok (.shiftDisplayLeft, rest)
  | 0x10#8 => .ok (.shiftDisplayRight, rest)
  | 0x11#8 => op2 .setCursor
  | 0x12#8 => op2 .writeDdram
  | 0x13#8 => op1 .readDdram
  | 0x14#8 => op1 .displayChar
  | 0x15#8 => glyph .writeGlyph5x8 glyph8Length
  | 0x16#8 => glyph .writeGlyph5x10 glyph11Length
  | 0x17#8 => op1 .eraseLine
  | 0x18#8 => .ok (.enableBacklight, rest)
  | 0x19#8 => .ok (.disableBacklight, rest)
  | 0x1A#8 => .ok (.getEntryMode, rest)
  | 0x1B#8 => .ok (.getDisplayControl, rest)
  | 0x1C#8 => .ok (.getShift, rest)
  | 0x1D#8 => .ok (.getFunctionSet, rest)
  | 0x1E#8 => op1 .readCgram
  | 0x1F#8 => op2 .writeCgram
  | 0x20#8 => .ok (.readAddressCounter, rest)
  | 0x21#8 => .ok (.readBusyFlag, rest)
  | _ => .error (.noCommand op)
where
  /-- format `OP1`: `op`, `a` -/
  op1 (mk : Byte → Instr) : Except DecodeError (Instr × List Byte) :=
    match rest with
    | a :: rest => .ok (mk a, rest)
    | [] => .error (.shortCommand op)
  /-- format `OP2`: `op`, `a`, `b` -/
  op2 (mk : Byte → Byte → Instr) : Except DecodeError (Instr × List Byte) :=
    match rest with
    | a :: b :: rest => .ok (mk a b, rest)
    | _ => .error (.shortCommand op)
  /-- formats `G8` and `G11`: `op`, `slot`, `n` data bytes, first byte first -/
  glyph (mk : Byte → List Byte → Instr) (n : Nat) : Except DecodeError (Instr × List Byte) :=
    match rest with
    | slot :: data =>
      if data.length < n then .error (.shortCommand op) else .ok (mk slot (data.take n), data.drop n)
    | [] => .error (.shortCommand op)

/-- The command at the front of a byte string, and the bytes behind it: "A decoder reads byte 0, looks
the length up in rule R82, and takes that many bytes" (R80). -/
def decodeCommand : List Byte → Except DecodeError (Instr × List Byte)
  | [] => .error .empty
  | op :: rest => decodeOp op rest

/-- The row of R98's table that a byte written with RS = 0 falls in: decided by its highest set bit. -/
def decodeLcdByte (b : Byte) : Except DecodeError Instr :=
  if b.getLsbD 7 then .ok (.lcdSetDdramAddress (b.extractLsb' 0 7))
  else if b.getLsbD 6 then .ok (.lcdSetCgramAddress (b.extractLsb' 0 6))
  else if b.getLsbD 5 then
    if b &&& 0x13 = 0 then .ok (.lcdFunctionSet4bit (b.getLsbD 3) (b.getLsbD 2))
    else .error (.notAnLcdByte b)
  else if b.getLsbD 4 then
    if b &&& 0x03 = 0 then .ok (.lcdCursorDisplayShift (b.getLsbD 3) (b.getLsbD 2))
    else .error (.notAnLcdByte b)
  else if b.getLsbD 3 then .ok (.lcdDisplayControl (b.getLsbD 2) (b.getLsbD 1) (b.getLsbD 0))
  else if b.getLsbD 2 then .ok (.lcdEntryModeSet (b.getLsbD 1) (b.getLsbD 0))
  else if b = 0x02 then .ok .lcdReturnHome
  else if b = 0x01 then .ok .lcdClearDisplay
  else .error (.notAnLcdByte b)

/-- The raw nibble of R223 with these four bits. -/
def decodeRawNibble (n : Nibble) : Except DecodeError Instr :=
  if n = 0x3 then .ok .rawNibble8bitInterface
  else if n = 0x2 then .ok .rawNibble4bitInterface
  else .error (.notARawNibble n)

/-- The frame of R96 or R97 with these eight bits: bit 1 tells a write frame from a read frame (R95). -/
def decodeFrame (b : Byte) : Except DecodeError Instr :=
  if b.getLsbD 1 then
    if b &&& 0xF2 = 0xF2 then .ok (.xr (b.getLsbD 3) (b.getLsbD 2) (b.getLsbD 0))
    else .error (.notAFrame b)
  else .ok (.xw (b.extractLsb' 4 4) (b.getLsbD 3) (b.getLsbD 2) (b.getLsbD 0))

/-- The decoder, total on any word of any kind. -/
def decode : Encoded → Except DecodeError Instr
  | .command bytes =>
    match decodeCommand bytes with
    | .ok (i, []) => .ok i
    | .ok (_, _ :: _) => .error .trailingBytes
    | .error e => .error e
  | .lcdByte b => decodeLcdByte b
  | .rawNibble n => decodeRawNibble n
  | .frame b => decodeFrame b

/-- The encoder, from R80 and R82 (commands), R98, R223, R96 and R97. -/
def encode : Instr → Encoded
  | .clearDisplay => .command [0x01]
  | .moveToHome => .command [0x02]
  | .enableDisplay => .command [0x03]
  | .disableDisplay => .command [0x04]
  | .enableCursor => .command [0x05]
  | .disableCursor => .command [0x06]
  | .enableBlinking => .command [0x07]
  | .disableBlinking => .command [0x08]
  | .displayToLeft => .command [0x09]
  | .displayToRight => .command [0x0A]
  | .enableShiftOnWrite => .command [0x0B]
  | .disableShiftOnWrite => .command [0x0C]
  | .shiftCursorLeft => .command [0x0D]
  | .shiftCursorRight => .command [0x0E]
  | .shiftDisplayLeft => .command [0x0F]
  | .shiftDisplayRight => .command [0x10]
  | .setCursor x y => .command [0x11, x, y]
  | .writeDdram addr data => .command [0x12, addr, data]
  | .readDdram addr => .command [0x13, addr]
  | .displayChar c => .command [0x14, c]
  | .writeGlyph5x8 slot d => .command (0x15 :: slot :: d)
  | .writeGlyph5x10 slot d => .command (0x16 :: slot :: d)
  | .eraseLine line => .command [0x17, line]
  | .enableBacklight => .command [0x18]
  | .disableBacklight => .command [0x19]
  | .getEntryMode => .command [0x1A]
  | .getDisplayControl => .command [0x1B]
  | .getShift => .command [0x1C]
  | .getFunctionSet => .command [0x1D]
  | .readCgram addr => .command [0x1E, addr]
  | .writeCgram addr data => .command [0x1F, addr, data]
  | .readAddressCounter => .command [0x20]
  | .readBusyFlag => .command [0x21]
  | .lcdClearDisplay => .lcdByte 0b00000001
  | .lcdReturnHome => .lcdByte 0b00000010
  | .lcdEntryModeSet i s => .lcdByte (0b000001#6 ++ BitVec.ofBool i ++ BitVec.ofBool s)
  | .lcdDisplayControl d c b =>
    .lcdByte (0b00001#5 ++ BitVec.ofBool d ++ BitVec.ofBool c ++ BitVec.ofBool b)
  | .lcdCursorDisplayShift s r => .lcdByte (0b0001#4 ++ BitVec.ofBool s ++ BitVec.ofBool r ++ 0b00#2)
  | .lcdFunctionSet4bit n f => .lcdByte (0b0010#4 ++ BitVec.ofBool n ++ BitVec.ofBool f ++ 0b00#2)
  | .lcdSetCgramAddress a => .lcdByte (0b01#2 ++ a)
  | .lcdSetDdramAddress a => .lcdByte (0b1#1 ++ a)
  | .rawNibble8bitInterface => .rawNibble 0b0011
  | .rawNibble4bitInterface => .rawNibble 0b0010
  | .xw n b e r =>
    .frame (n ++ BitVec.ofBool b ++ BitVec.ofBool e ++ 0b0#1 ++ BitVec.ofBool r)
  | .xr b e r =>
    .frame (0b1111#4 ++ BitVec.ofBool b ++ BitVec.ofBool e ++ 0b1#1 ++ BitVec.ofBool r)

/-- The format of an instruction: the column "format" of spec/opcode_table.json. -/
def Instr.format : Instr → Format
  | .clearDisplay | .moveToHome | .enableDisplay | .disableDisplay | .enableCursor
  | .disableCursor | .enableBlinking | .disableBlinking | .displayToLeft | .displayToRight
  | .enableShiftOnWrite | .disableShiftOnWrite | .shiftCursorLeft | .shiftCursorRight
  | .shiftDisplayLeft | .shiftDisplayRight | .enableBacklight | .disableBacklight | .getEntryMode
  | .getDisplayControl | .getShift | .getFunctionSet | .readAddressCounter | .readBusyFlag => .op0
  | .readDdram _ | .displayChar _ | .eraseLine _ | .readCgram _ => .op1
  | .setCursor _ _ | .writeDdram _ _ | .writeCgram _ _ => .op2
  | .writeGlyph5x8 _ _ => .g8
  | .writeGlyph5x10 _ _ => .g11
  | .lcdClearDisplay | .lcdReturnHome | .lcdEntryModeSet _ _ | .lcdDisplayControl _ _ _
  | .lcdCursorDisplayShift _ _ | .lcdFunctionSet4bit _ _ | .lcdSetCgramAddress _
  | .lcdSetDdramAddress _ => .lcdi
  | .rawNibble8bitInterface | .rawNibble4bitInterface => .rawn
  | .xw _ _ _ _ | .xr _ _ _ => .expanderFrame

/-- Length in bytes of a command of a format (R80); a word that is no command has none. -/
def Format.commandLength : Format → Option Nat
  | .op0 => some 1
  | .op1 => some 2
  | .op2 => some 3
  | .g8 => some 10
  | .g11 => some 13
  | .lcdi | .rawn | .expanderFrame => none

/-- Which response a command returns: the column "response" of R82. A word that is no command returns
none. -/
def Instr.responseKind : Instr → Option ResponseKind
  | .clearDisplay | .moveToHome | .enableDisplay | .disableDisplay | .enableCursor
  | .disableCursor | .enableBlinking | .disableBlinking | .displayToLeft | .displayToRight
  | .enableShiftOnWrite | .disableShiftOnWrite | .shiftCursorLeft | .shiftCursorRight
  | .shiftDisplayLeft | .shiftDisplayRight | .setCursor _ _ | .writeDdram _ _ | .displayChar _
  | .writeGlyph5x8 _ _ | .writeGlyph5x10 _ _ | .eraseLine _ | .writeCgram _ _ => some .unit
  | .readDdram _ | .getEntryMode | .getDisplayControl | .getShift | .getFunctionSet | .readCgram _
  | .readAddressCounter => some .byte
  | .enableBacklight | .disableBacklight | .readBusyFlag => some .bool
  | .lcdClearDisplay | .lcdReturnHome | .lcdEntryModeSet _ _ | .lcdDisplayControl _ _ _
  | .lcdCursorDisplayShift _ _ | .lcdFunctionSet4bit _ _ | .lcdSetCgramAddress _
  | .lcdSetDdramAddress _ | .rawNibble8bitInterface | .rawNibble4bitInterface | .xw _ _ _ _
  | .xr _ _ _ => none

/-- The host-side expansion of the pseudo-command `DISPLAY_STRING` (R86): one `DISPLAY_CHAR` for each
character, first character first, and nothing else. -/
def displayString (s : List Byte) : List Instr := s.map .displayChar

/-- The bytes the host presents for a list of commands: each command's bytes, first command first. A
word that is no command puts nothing at the command port. -/
def commandBytes (is : List Instr) : List Byte :=
  is.flatMap fun i =>
    match encode i with
    | .command bytes => bytes
    | .lcdByte _ | .rawNibble _ | .frame _ => []

/-- A number of `n` bytes as bytes, the most significant first: "Written as one bit string, byte 0
occupies the most significant 8 bits" (R80). -/
def bytesOfNat : Nat → Nat → List Byte
  | 0, _ => []
  | n + 1, w => BitVec.ofNat 8 (w / 2 ^ (8 * n)) :: bytesOfNat n w

/-- The kind of word that a row of spec/opcode_table.json with `nbits` bits reads as (notes/assumptions/9).
Four bits: a raw nibble. Whole bytes: a command where they are one; else, for eight bits, a read frame (its
bits 7:4 and 1 are fixed), an LCD instruction byte, or a write frame, the first that it is. -/
def tableWord (nbits w : Nat) : Encoded :=
  let bytes := bytesOfNat (nbits / 8) w
  let b := BitVec.ofNat 8 w
  if nbits = 4 then .rawNibble (BitVec.ofNat 4 w)
  else if (decode (.command bytes)).isOk || nbits ≠ 8 then .command bytes
  else if b &&& 0xF2 = 0xF2 then .frame b
  else if (decode (.lcdByte b)).isOk then .lcdByte b
  else if (decode (.frame b)).isOk then .frame b
  else .command bytes

/-- The instruction the decoder reads from a row's word, numbered as spec/opcode_table.json numbers its
bits: bit 0 is the least significant bit of the LAST byte (R80, and the file's "match" and "mask"). -/
def decodeTableWord (nbits w : Nat) : Option Instr :=
  (decode (tableWord nbits w)).toOption

end Sys2Proof
end

