-- ==== Sys2Proof/Machine/EmittedWords.lean ====
section
/-!
DEFINITION. The words the block itself emits, which spec/opcode_table.json lists beside the commands: the
LCD instruction bytes (30_encoding.md R98), the raw nibbles (44_init_sequences.md R222, R223) and the
expander frames (30_encoding.md R96, R97). The meaning of each is the micro-operation that emits it; none
goes through a register of the block (41_register_commands.md R159). They do not come in at the command
port: "None of them is a command" (40_codec.md).
-/

namespace Sys2Proof.Machine

open Sys2Proof

/-- The micro-operations that emit a word: `RegWrite(0, byte)` for an LCD instruction byte (R98, R120),
`NibbleWrite(0, n)` for a raw nibble (R222), `BusWrite` for a frame (R110); none for a command. -/
def emittedOps : Encoded → List Micro
  | .command _ => []
  | .lcdByte b => [.regWrite false b]
  | .rawNibble n => [.nibble false (n ++ 0#4)]
  | .frame b => [.bus b]

/-- R98: `RegWrite(0, 0x01)`. -/
def execLcdClearDisplay (s : State) : Host.Outcome State Fault Refusal :=
  emit s (emittedOps (encode .lcdClearDisplay))

/-- R98: `RegWrite(0, 0x02)`. -/
def execLcdReturnHome (s : State) : Host.Outcome State Fault Refusal :=
  emit s (emittedOps (encode .lcdReturnHome))

/-- R98: `RegWrite(0, 0b000001is)`. -/
def execLcdEntryModeSet (i sh : Bool) (s : State) : Host.Outcome State Fault Refusal :=
  emit s (emittedOps (encode (.lcdEntryModeSet i sh)))

/-- R98: `RegWrite(0, 0b00001dcb)`. -/
def execLcdDisplayControl (d c b : Bool) (s : State) : Host.Outcome State Fault Refusal :=
  emit s (emittedOps (encode (.lcdDisplayControl d c b)))

/-- R98: `RegWrite(0, 0b0001sr00)`. -/
def execLcdCursorDisplayShift (sc r : Bool) (s : State) : Host.Outcome State Fault Refusal :=
  emit s (emittedOps (encode (.lcdCursorDisplayShift sc r)))

/-- R98: `RegWrite(0, 0b0010nf00)`. -/
def execLcdFunctionSet4bit (n f : Bool) (s : State) : Host.Outcome State Fault Refusal :=
  emit s (emittedOps (encode (.lcdFunctionSet4bit n f)))

/-- R98: `RegWrite(0, 0b01aaaaaa)`. -/
def execLcdSetCgramAddress (a : BitVec 6) (s : State) : Host.Outcome State Fault Refusal :=
  emit s (emittedOps (encode (.lcdSetCgramAddress a)))

/-- R98: `RegWrite(0, 0b1aaaaaaa)`. -/
def execLcdSetDdramAddress (a : Addr7) (s : State) : Host.Outcome State Fault Refusal :=
  emit s (emittedOps (encode (.lcdSetDdramAddress a)))

/-- R223: `NibbleWrite(0, 0x30)` alone. -/
def execRawNibble8bitInterface (s : State) : Host.Outcome State Fault Refusal :=
  emit s (emittedOps (encode .rawNibble8bitInterface))

/-- R223: `NibbleWrite(0, 0x20)` alone. -/
def execRawNibble4bitInterface (s : State) : Host.Outcome State Fault Refusal :=
  emit s (emittedOps (encode .rawNibble4bitInterface))

/-- R96, R110: `BusWrite` of the write frame `nnnnbe0r`. -/
def execXw (n : Nibble) (b e r : Bool) (s : State) : Host.Outcome State Fault Refusal :=
  emit s (emittedOps (encode (.xw n b e r)))

/-- R97, R110: `BusWrite` of the read frame `1111be1r`. -/
def execXr (b e r : Bool) (s : State) : Host.Outcome State Fault Refusal :=
  emit s (emittedOps (encode (.xr b e r)))

end Sys2Proof.Machine
end

