-- ==== Sys2Proof/Machine/RegisterCommands.lean ====
section
/-!
DEFINITION. The register commands of 41_register_commands.md: clear and home, six display-control, four
entry-mode and four shift commands. Each register command first replaces the register and then sends the
whole register in the same command, "also when the new value equals the old one" (R159).
-/

namespace Sys2Proof.Machine

open Sys2Proof

/-- `x[DC] <- upd(x[DC], mask); RegWrite(0, x[DC]); return Unit` (R144 to R149). -/
def updateDC (mask : Byte) (s : State) : Host.Outcome State Fault Refusal :=
  command s fun s =>
    let v := upd s.dc mask
    run [.regWrite false v, .ret .unit] { s with dc := v }

/-- `x[EM] <- upd(x[EM], mask); RegWrite(0, x[EM]); return Unit` (R150 to R153). -/
def updateEM (mask : Byte) (s : State) : Host.Outcome State Fault Refusal :=
  command s fun s =>
    let v := upd s.em mask
    run [.regWrite false v, .ret .unit] { s with em := v }

/-- `x[SH] <- updSH(mask); RegWrite(0, x[SH]); return Unit` (R154 to R158). -/
def updateSH (mask : Byte) (s : State) : Host.Outcome State Fault Refusal :=
  command s fun s =>
    let v := updSH mask
    run [.regWrite false v, .ret .unit] { s with sh := v }

/-- R142: `RegWrite(0, 0x01); return Unit`. -/
def execClearDisplay (s : State) : Host.Outcome State Fault Refusal :=
  commandOps s [.regWrite false 0x01, .ret .unit]

/-- R143: `RegWrite(0, 0x02); return Unit`. -/
def execMoveToHome (s : State) : Host.Outcome State Fault Refusal :=
  commandOps s [.regWrite false 0x02, .ret .unit]

/-- R144. -/
def execEnableDisplay (s : State) : Host.Outcome State Fault Refusal := updateDC 0x04 s

/-- R145. -/
def execDisableDisplay (s : State) : Host.Outcome State Fault Refusal := updateDC 0xFB s

/-- R146. -/
def execEnableCursor (s : State) : Host.Outcome State Fault Refusal := updateDC 0x02 s

/-- R147. -/
def execDisableCursor (s : State) : Host.Outcome State Fault Refusal := updateDC 0xFD s

/-- R148. -/
def execEnableBlinking (s : State) : Host.Outcome State Fault Refusal := updateDC 0x01 s

/-- R149. -/
def execDisableBlinking (s : State) : Host.Outcome State Fault Refusal := updateDC 0xFE s

/-- R150, decision D17: clears `ID`. -/
def execDisplayToLeft (s : State) : Host.Outcome State Fault Refusal := updateEM 0xFD s

/-- R151, decision D17: sets `ID`. -/
def execDisplayToRight (s : State) : Host.Outcome State Fault Refusal := updateEM 0x02 s

/-- R152. -/
def execEnableShiftOnWrite (s : State) : Host.Outcome State Fault Refusal := updateEM 0x01 s

/-- R153. -/
def execDisableShiftOnWrite (s : State) : Host.Outcome State Fault Refusal := updateEM 0xFE s

/-- R155. -/
def execShiftCursorLeft (s : State) : Host.Outcome State Fault Refusal := updateSH 0x00 s

/-- R156. -/
def execShiftCursorRight (s : State) : Host.Outcome State Fault Refusal := updateSH 0x04 s

/-- R157. -/
def execShiftDisplayLeft (s : State) : Host.Outcome State Fault Refusal := updateSH 0x08 s

/-- R158. -/
def execShiftDisplayRight (s : State) : Host.Outcome State Fault Refusal := updateSH 0x0C s

end Sys2Proof.Machine
end

