-- ==== Sys2Proof/Machine/SystemCommands.lean ====
section
/-!
DEFINITION. The backlight commands, the register getters and the status commands of
43_system_commands.md. None polls the busy flag.
-/

namespace Sys2Proof.Machine

open Sys2Proof

/-- A backlight command: one read; on a short read `Bool(false)` with nothing changed and nothing sent; else
`BL` is set to `on` and `change p` is sent (R200, R201). -/
def backlightCommand (on : Bool) (change : Byte → Byte) (s : State) : Host.Outcome State Fault Refusal :=
  command s fun s =>
    match busRead1 s with
    | (.short, s) => run [.ret (.bool false)] s
    | (.byte p, s) => run [.bus (change p), .ret (.bool true)] { s with bl := on }

/-- R200: bit 3 of the byte read is set. -/
def execEnableBacklight (s : State) : Host.Outcome State Fault Refusal :=
  backlightCommand true (fun p => p ||| 0x08) s

/-- R201: bit 3 of the byte read is cleared. -/
def execDisableBacklight (s : State) : Host.Outcome State Fault Refusal :=
  backlightCommand false (fun p => p &&& 0xF7) s

/-- R204: "No bus operation, no state change, cannot block, cannot fail." -/
def execGetEntryMode (s : State) : Host.Outcome State Fault Refusal := commandOps s [.ret (.byte s.em)]

/-- R205. -/
def execGetDisplayControl (s : State) : Host.Outcome State Fault Refusal := commandOps s [.ret (.byte s.dc)]

/-- R206. -/
def execGetShift (s : State) : Host.Outcome State Fault Refusal := commandOps s [.ret (.byte s.sh)]

/-- R207. -/
def execGetFunctionSet (s : State) : Host.Outcome State Fault Refusal := commandOps s [.ret (.byte s.fs)]

/-- R210. -/
def execReadAddressCounter (s : State) : Host.Outcome State Fault Refusal :=
  command s fun s =>
    match readAddressCounter s with
    | (v, s) => run [.ret (.byte v)] s

/-- R211: "it does not loop". -/
def execReadBusyFlag (s : State) : Host.Outcome State Fault Refusal :=
  command s fun s =>
    match readBusyFlag s with
    | (b, s) => run [.ret (.bool b)] s

end Sys2Proof.Machine
end

