-- ==== Sys2Proof/Machine/Dispatch.lean ====
section
/-!
DEFINITION. The meaning of every instruction of the opcode table, one arm each.
-/

namespace Sys2Proof.Machine

open Sys2Proof

def exec (i : Instr) (s : State) : Host.Outcome State Fault Refusal :=
  match i with
  -- 41_register_commands.md
  | .clearDisplay => Sys2Proof.Machine.execClearDisplay s
  | .moveToHome => Sys2Proof.Machine.execMoveToHome s
  | .enableDisplay => Sys2Proof.Machine.execEnableDisplay s
  | .disableDisplay => Sys2Proof.Machine.execDisableDisplay s
  | .enableCursor => Sys2Proof.Machine.execEnableCursor s
  | .disableCursor => Sys2Proof.Machine.execDisableCursor s
  | .enableBlinking => Sys2Proof.Machine.execEnableBlinking s
  | .disableBlinking => Sys2Proof.Machine.execDisableBlinking s
  | .displayToLeft => Sys2Proof.Machine.execDisplayToLeft s
  | .displayToRight => Sys2Proof.Machine.execDisplayToRight s
  | .enableShiftOnWrite => Sys2Proof.Machine.execEnableShiftOnWrite s
  | .disableShiftOnWrite => Sys2Proof.Machine.execDisableShiftOnWrite s
  | .shiftCursorLeft => Sys2Proof.Machine.execShiftCursorLeft s
  | .shiftCursorRight => Sys2Proof.Machine.execShiftCursorRight s
  | .shiftDisplayLeft => Sys2Proof.Machine.execShiftDisplayLeft s
  | .shiftDisplayRight => Sys2Proof.Machine.execShiftDisplayRight s
  -- 42_addressing_commands.md
  | .setCursor x y => Sys2Proof.Machine.execSetCursor x y s
  | .writeDdram addr data => Sys2Proof.Machine.execWriteDdram addr data s
  | .readDdram addr => Sys2Proof.Machine.execReadDdram addr s
  | .displayChar c => Sys2Proof.Machine.execDisplayChar c s
  | .writeGlyph5x8 slot d => Sys2Proof.Machine.execWriteGlyph5x8 slot d s
  | .writeGlyph5x10 slot d => Sys2Proof.Machine.execWriteGlyph5x10 slot d s
  | .eraseLine line => Sys2Proof.Machine.execEraseLine line s
  -- 43_system_commands.md
  | .enableBacklight => Sys2Proof.Machine.execEnableBacklight s
  | .disableBacklight => Sys2Proof.Machine.execDisableBacklight s
  | .getEntryMode => Sys2Proof.Machine.execGetEntryMode s
  | .getDisplayControl => Sys2Proof.Machine.execGetDisplayControl s
  | .getShift => Sys2Proof.Machine.execGetShift s
  | .getFunctionSet => Sys2Proof.Machine.execGetFunctionSet s
  | .readCgram addr => Sys2Proof.Machine.execReadCgram addr s
  | .writeCgram addr data => Sys2Proof.Machine.execWriteCgram addr data s
  | .readAddressCounter => Sys2Proof.Machine.execReadAddressCounter s
  | .readBusyFlag => Sys2Proof.Machine.execReadBusyFlag s
  -- 30_encoding.md R98, R223, R96, R97
  | .lcdClearDisplay => Sys2Proof.Machine.execLcdClearDisplay s
  | .lcdReturnHome => Sys2Proof.Machine.execLcdReturnHome s
  | .lcdEntryModeSet i1 sh => Sys2Proof.Machine.execLcdEntryModeSet i1 sh s
  | .lcdDisplayControl d c b => Sys2Proof.Machine.execLcdDisplayControl d c b s
  | .lcdCursorDisplayShift sc r => Sys2Proof.Machine.execLcdCursorDisplayShift sc r s
  | .lcdFunctionSet4bit n f => Sys2Proof.Machine.execLcdFunctionSet4bit n f s
  | .lcdSetCgramAddress a => Sys2Proof.Machine.execLcdSetCgramAddress a s
  | .lcdSetDdramAddress a => Sys2Proof.Machine.execLcdSetDdramAddress a s
  | .rawNibble8bitInterface => Sys2Proof.Machine.execRawNibble8bitInterface s
  | .rawNibble4bitInterface => Sys2Proof.Machine.execRawNibble4bitInterface s
  | .xw n b e r => Sys2Proof.Machine.execXw n b e r s
  | .xr b e r => Sys2Proof.Machine.execXr b e r s

end Sys2Proof.Machine
end

