-- ==== Sys2Proof/Machine/Init.lean ====
section
/-!
DEFINITION. Running the initialization sequence (44_init_sequences.md), and reset (70_reset_and_hazards.md
R280). They are not commands and have no opcode.
-/

namespace Sys2Proof.Machine

open Sys2Proof

/-- One step of initialization at `INIT(k)`: the step is begun, or, where its busy poll has read a busy
status, goes on. A number that names no step is over at once. -/
def initTurn (k : Nat) (s : State) : State :=
  match s.ops, initAction s.cfg.family k with
  | [], some a => run (a.ops (a.prepare s)) (a.prepare s)
  | [], none => s.finish
  | m :: ms, _ => run (m :: ms) s

/-- A reset of the block with construction arguments `p`: "every piece of block state takes the value of
R35, the construction arguments are latched, and `seq` = `INIT(1)`" (R280). What stands outside the block
(the responder, the clock, the ports with what has passed through them) stays. -/
def State.resetWith (p : Params) (s : State) : State :=
  { State.powerOn p with
    latch := s.latch
    lcd := s.lcd
    cmdPort := s.cmdPort
    responses := s.responses
    trace := s.trace
    replies := s.replies
    now := s.now
    ticks := s.ticks }

/-- `SIZE_Y` as a number: {1, 2, 3, 4} (R7). -/
def lineCountOfNat : Nat → Option LineCount
  | 1 => some .one
  | 2 => some .two
  | 3 => some .three
  | 4 => some .four
  | _ => none

/-- `FONT` as a number: 0 = 5x8, 1 = 5x10 (R7). -/
def fontOfNat : Nat → Option Font
  | 0 => some .f5x8
  | 1 => some .f5x10
  | _ => none

/-- The legality of construction arguments (R7, D22): `SIZE_Y` in {1..4}, `FONT` 0 or 1, `ADDR` at most
0x7F, `SIZE_X` a byte. `CLOCK_RES` is not tested: the spec gives it no legal range (R8), so any natural
number is taken, 0 included; DESIGN CHOICE, notes/assumptions/7. -/
def checkParams (r : RawParams) : Option Params :=
  match lineCountOfNat r.sizeY, fontOfNat r.font with
  | some lines, some font =>
    if r.addr < 128 ∧ r.sizeX < 256 then
      some
        { addr := BitVec.ofNat 7 r.addr
          sizeX := BitVec.ofNat 8 r.sizeX
          sizeY := lines
          font := font
          family := r.family
          blReset := r.blReset
          clockRes := r.clockRes }
    else none
  | _, _ => none

/-- Construction (R280): with legal arguments the block is in the state of R35; with others it is refused
(U6). -/
def State.construct (r : RawParams) : Host.Outcome State Fault Refusal :=
  match checkParams r with
  | some p => .next (State.powerOn p)
  | none => .refused .illegalParameter

end Sys2Proof.Machine
end

