-- ==== Sys2Proof/Machine/Step.lean ====
section
/-!
DEFINITION. One step of the block (10_state.md R27).
-/

namespace Sys2Proof.Machine

open Sys2Proof

/-- One step. A reset asked for is taken first (R280). During `INIT(k)` the init step runs and "the command
port accepts nothing" (R220). At `EXEC` the command in progress goes on with the busy poll it is in (R118).
At `READY` the command port accepts one command (R27), an opcode that names none and a short command are
refused (R84), and with nothing presented nothing happens. -/
def step (s : State) : Host.Outcome State Fault Refusal :=
  match s.resetIn with
  | some p => .next (s.resetWith p)
  | none =>
    match s.seq with
    | .init k => .next (initTurn k s)
    | .exec => .next (run s.ops s)
    | .ready =>
      match s.cmdPort with
      | [] => .next s
      | op :: rest =>
        match decodeCommand (op :: rest) with
        | .ok (i, rest) => exec i { s with cmdPort := rest }
        | .error (.noCommand op) => .refused (.noCommand op)
        | .error _ => .refused (.shortCommand op)

/-- The host presents bytes at the command port (R80), behind those it has presented already. -/
def State.present (s : State) (bytes : List Byte) : State := { s with cmdPort := s.cmdPort ++ bytes }

/-- `s` with one instruction of spec/opcode_table.json where the next step takes it from, its bits numbered
as that file numbers them (notes/assumptions/9). A command stands at the command port of a block that is
`READY`. A word that the block itself emits stands as the micro-operation to be issued next, the block being
in `EXEC` with nothing else to issue. -/
def State.withFetchWord (s : State) (nbits w : Nat) : State :=
  match tableWord nbits w with
  | .command bytes =>
    { s with seq := .ready, ops := [], saved := 0, value := 0, resetIn := none, cmdPort := bytes }
  | .lcdByte b =>
    { s with seq := .exec, ops := emittedOps (.lcdByte b), saved := 0, value := 0, resetIn := none }
  | .rawNibble n =>
    { s with seq := .exec, ops := emittedOps (.rawNibble n), saved := 0, value := 0, resetIn := none }
  | .frame b =>
    { s with seq := .exec, ops := emittedOps (.frame b), saved := 0, value := 0, resetIn := none }

end Sys2Proof.Machine
end

