-- ==== Sys2Proof/Safety.lean ====
section
/-!
DEFINITION. What statements about the machine speak of: the frames a micro-operation sends, what the bus
trace shows, when a status read is free, a responder in step with the block, and the invariant of the
state.
-/

namespace Sys2Proof.Machine

open Sys2Proof

/-! ## What the codec sends, written out (R112, R114, R120) -/

/-- The three frames of a nibble write: E high, high, low (R112). -/
def nibbleFrames (bl rs : Bool) (n : Byte) : List Byte :=
  [writeFrame bl n rs true, writeFrame bl n rs true, writeFrame bl n rs false]

/-- The six frames of a byte, high nibble first (R57, R120). -/
def byteFrames (bl rs : Bool) (v : Byte) : List Byte :=
  nibbleFrames bl rs (highNibble v) ++ nibbleFrames bl rs (lowNibble v)

/-- The five frames of a register read (R114). -/
def readFrames (bl rs : Bool) : List Byte :=
  [readFrame bl rs false, readFrame bl rs true, readFrame bl rs false, readFrame bl rs true,
   readFrame bl rs false]

/-- A full register write whose poll takes one turn: five frames of the status read, six of the byte (R121). -/
def writeCycle (bl rs : Bool) (v : Byte) : List Byte := readFrames bl false ++ byteFrames bl rs v

/-- Transmissions as trace items. -/
def writeEvents (addr : Addr7) (bs : List Byte) : List Event := bs.map (Event.write addr)

/-- The trace items of a register read answered by two bytes (R114). -/
def readEvents (addr : Addr7) (bl rs : Bool) (v1 v2 : Byte) : List Event :=
  [.write addr (readFrame bl rs false), .write addr (readFrame bl rs true), .read addr (.byte v1),
   .write addr (readFrame bl rs false), .write addr (readFrame bl rs true), .read addr (.byte v2),
   .write addr (readFrame bl rs false)]

/-! ## What the trace shows -/

/-- The byte an item transmits. -/
def Event.sent : Event → Option Byte
  | .write _ b => some b
  | .read _ _ => none
  | .wait _ => none

/-- The bytes transmitted, in order. -/
def sentBytes (tr : List Event) : List Byte := tr.filterMap Event.sent

/-- Is the item a read request? -/
def Event.isRead : Event → Bool
  | .read _ _ => true
  | .write _ _ => false
  | .wait _ => false

/-- The number of read requests. -/
def readCount (tr : List Event) : Nat := tr.countP Event.isRead

/-- The device address an item names; a wait names none. -/
def Event.address : Event → Option Addr7
  | .write a _ => some a
  | .read a _ => some a
  | .wait _ => none

/-! ## Answers -/

/-- One byte available. -/
def byteReply (v : Byte) : Reply := ⟨1, v⟩

/-- The answers to register reads, two bytes each. -/
def pairReplies (ps : List (Byte × Byte)) : List Reply :=
  ps.flatMap fun p => [byteReply p.1, byteReply p.2]

/-- Status reads that do not find the busy flag set: bit 7 of the first sample is clear (R115, R118). -/
def freePolls (ps : List (Byte × Byte)) : Prop := ∀ p ∈ ps, p.1.getLsbD 7 = false

/-- What answers one register read: two samples, or an abort at the first or at the second of them (R114 to
R116). -/
inductive ReadAnswer where
  | bytes (v1 v2 : Byte)
  | short1 (r : Reply)
  | short2 (v1 : Byte) (r : Reply)
deriving DecidableEq, Repr

/-- The replies called short are short: other than one byte available (R111). -/
def ReadAnswer.legal : ReadAnswer → Bool
  | .bytes _ _ => true
  | .short1 r => r.available != 1
  | .short2 _ r => r.available != 1

/-- The bus adapter's answers that it consists of. -/
def ReadAnswer.replies : ReadAnswer → List Reply
  | .bytes v1 v2 => [byteReply v1, byteReply v2]
  | .short1 r => [r]
  | .short2 v1 r => [byteReply v1, r]

/-- The byte the register read returns: the samples joined (R115), or 0x00 (R116). -/
def ReadAnswer.value : ReadAnswer → Byte
  | .bytes v1 v2 => (v1 &&& 0xF0) ||| (v2 >>> 4)
  | .short1 _ => 0x00
  | .short2 _ _ => 0x00

/-- The trace items of a register read so answered (R114, R116). -/
def ReadAnswer.events (addr : Addr7) (bl rs : Bool) : ReadAnswer → List Event
  | .bytes v1 v2 => readEvents addr bl rs v1 v2
  | .short1 _ =>
    [.write addr (readFrame bl rs false), .write addr (readFrame bl rs true), .read addr .short]
  | .short2 v1 _ =>
    [.write addr (readFrame bl rs false), .write addr (readFrame bl rs true), .read addr (.byte v1),
     .write addr (readFrame bl rs false), .write addr (readFrame bl rs true), .read addr .short]

/-- Register reads one after another. -/
def answerReplies (as : List ReadAnswer) : List Reply := as.flatMap ReadAnswer.replies

/-- Status reads none of which finds the busy flag set: free, or aborted (R119). -/
def freeAnswers (as : List ReadAnswer) : Prop := ∀ a ∈ as, a.legal = true ∧ a.value.getLsbD 7 = false

/-- The trace items of full register writes, one status read of one turn before each: `polls` what answers the
status reads, `bytes` the register selects and bytes written. -/
def answeredCycles (addr : Addr7) (bl : Bool) (polls : List ReadAnswer) (bytes : List (Bool × Byte)) :
    List Event :=
  (polls.zip bytes).flatMap fun pb =>
    pb.1.events addr bl false ++ writeEvents addr (byteFrames bl pb.2.1 pb.2.2)

/-- The trace items of full register writes, one status read of one turn before each: `polls` the answers to
the status reads, `bytes` the register selects and bytes written. -/
def cycleEvents (addr : Addr7) (bl : Bool) (polls : List (Byte × Byte)) (bytes : List (Bool × Byte)) :
    List Event :=
  (polls.zip bytes).flatMap fun pb =>
    readEvents addr bl false pb.1.1 pb.1.2 ++ writeEvents addr (byteFrames bl pb.2.1 pb.2.2)

/-- A status read now would not find the busy flag set: it reads a byte with bit 7 clear, or aborts (R119). -/
def State.statusFree (s : State) : Bool := !busyFlag (regRead false s).1

/-! ## A responder in step with the block -/

/-- The expander's E line is low (R34 (d)). -/
def State.eLow (s : State) : Bool := !s.latch.getLsbD 2

/-- The reference responder is in 4-bit mode and expects a high nibble, and E is low: the pairing the block
relies on "from the end of initialization on" (R34 (e), R293). -/
def State.inStep (s : State) (l : Lcd) : Prop :=
  s.lcd = some l ∧ l.mode4 = true ∧ l.phase = .hi ∧ s.eLow = true ∧ s.replies = []

/-! ## The invariant -/

/-- The registers keep their tag bits and their always-zero bits (R22 to R25). -/
def State.registersLegal (s : State) : Bool :=
  s.em &&& 0xFC == 0x04 && s.dc &&& 0xF8 == 0x08 && s.sh &&& 0xF3 == 0x10 && s.fs &&& 0xF3 == 0x20

/-- Is the micro-operation a wait? -/
def Micro.isWait : Micro → Bool
  | .wait _ => true
  | .nibble _ _ | .bus _ | .regWrite _ _ | .saveAC | .restoreAC | .readData | .ret _ | .retValue => false

/-- `seq` is a position the variant has; nothing is left to issue at `READY`, something at `EXEC` (R27), and
that is never a wait ("After initialization the block never reads the clock", R261). -/
def State.sequencerLegal (s : State) : Bool :=
  match s.seq with
  | .init k => decide (1 ≤ k ∧ k ≤ (initSequence s.cfg.family).length)
  | .ready => s.ops == []
  | .exec => s.ops != [] && s.ops.all fun m => !m.isWait

/-- The reference responder's memories are in canonical form. -/
def State.memoryLegal (s : State) : Bool :=
  match s.lcd with
  | some l => l.dd.wf ddramSize && l.cg.wf cgramSize
  | none => true

/-- The invariant of the machine. -/
def State.Inv (s : State) : Prop :=
  s.registersLegal = true ∧ s.sequencerLegal = true ∧ s.memoryLegal = true

/-- Which micro-operations are codec operations: all but a wait, a bare transmission, and a response. -/
def Micro.isCodec : Micro → Bool
  | .nibble _ _ | .regWrite _ _ | .saveAC | .restoreAC | .readData => true
  | .wait _ | .bus _ | .ret _ | .retValue => false

/-- The kind of a response (R81). -/
def Response.kind : Response → ResponseKind
  | .unit => .unit
  | .byte _ => .byte
  | .bool _ => .bool

/-- The kind of response a micro-operation gives, if it gives one. -/
def Micro.answerKind : Micro → Option ResponseKind
  | .ret r => some r.kind
  | .retValue => some .byte
  | .wait _ | .nibble _ _ | .bus _ | .regWrite _ _ | .saveAC | .restoreAC | .readData => none

/-- The kind of response that what is left to issue ends in. -/
def State.pendingAnswer (s : State) : Option ResponseKind := s.ops.getLast?.bind Micro.answerKind

/-- What is left to issue is what a command or an init step leaves: in `EXEC` codec operations and, at the end, one
response (R81); in `INIT(k)` codec operations and waits; at `READY` nothing. The words of the opcode table that are
no commands (notes/assumptions/9) leave other things in `EXEC` when `withFetchWord` puts them there. -/
def State.pendingLegal (s : State) : Bool :=
  match s.seq with
  | .init _ => s.ops.all fun m => m.isCodec || m.isWait
  | .ready => s.ops == []
  | .exec => s.ops.dropLast.all Micro.isCodec && s.pendingAnswer.isSome

/-- Registers, backlight flag and parameters are unchanged. -/
def sameRegisters (s t : State) : Prop :=
  t.cfg = s.cfg ∧ t.em = s.em ∧ t.dc = s.dc ∧ t.sh = s.sh ∧ t.fs = s.fs ∧ t.bl = s.bl

/-- The host's side is untouched: what it has presented, and the reset line. -/
def sameInputs (s t : State) : Prop := t.cmdPort = s.cmdPort ∧ t.resetIn = s.resetIn

/-- The responder's memories are untouched. -/
def sameMemory (s t : State) : Prop :=
  t.lcd.map Lcd.dd = s.lcd.map Lcd.dd ∧ t.lcd.map Lcd.cg = s.lcd.map Lcd.cg

/-- A command has ended: the block is `READY` with nothing left to issue, and has given response `r`. -/
def State.completed (s t : State) (r : Response) : Prop :=
  t.seq = .ready ∧ t.ops = [] ∧ t.saved = 0 ∧ t.value = 0 ∧ t.responses = s.responses ++ [r]

/-- What a state `t` must look like after an operation that is one `RegWrite(rs, v)` and gives the responses
`r`, from a state `s`: with a free status read it is over, the status read and the six frames on the bus;
with a busy one the write, and what stands behind it, is still to be issued, and nothing of it is sent
(R118, R120, R254). -/
def sendsByte (rs : Bool) (v : Byte) (r : List Response) (s t : State) : Prop :=
  (s.statusFree = true →
    t.seq = .ready ∧ t.ops = [] ∧ t.saved = 0 ∧ t.value = 0 ∧ t.responses = s.responses ++ r ∧
    t.trace = (regRead false s).2.trace ++ writeEvents s.cfg.addr (byteFrames s.bl rs v)) ∧
  (s.statusFree = false →
    t.seq = .exec ∧ t.ops = .regWrite rs v :: r.map .ret ∧ t.responses = s.responses ∧
    t.trace = (regRead false s).2.trace)

/-- Is the instruction a command of the host's command port (R82)? -/
def isCommand (i : Instr) : Bool :=
  match encode i with
  | .command _ => true
  | .lcdByte _ | .rawNibble _ | .frame _ => false

/-- `SET_CURSOR x, y` as register selects and bytes: one byte, or none for a line above 3 (R170). -/
def cursorBytes (sizeX x y : Byte) : List (Bool × Byte) :=
  (cursorByte sizeX x y).toList.map fun b => (false, b)

/-- The save, access, restore pattern's full register writes, `ac` being the address counter saved (R175). -/
def restoringBytes (ac : Addr7) (addressSet : Byte) (d : List Byte) : List (Bool × Byte) :=
  (false, addressSet) :: (d.map (fun v => (true, v)) ++ [(false, 0b1#1 ++ ac)])

/-- The full register writes an instruction makes from state `s`, register select and byte each, in order,
`ac` being the address counter when it starts (41_register_commands.md R142 to R158,
42_addressing_commands.md R170 to R181, 30_encoding.md R98). None for an instruction that also reads data
or sends less than a byte. -/
def writtenBytes (s : State) (ac : Addr7) (i : Instr) : Option (List (Bool × Byte)) :=
  match i with
  | .clearDisplay => some [(false, 0x01)]
  | .moveToHome => some [(false, 0x02)]
  | .enableDisplay => some [(false, upd s.dc 0x04)]
  | .disableDisplay => some [(false, upd s.dc 0xFB)]
  | .enableCursor => some [(false, upd s.dc 0x02)]
  | .disableCursor => some [(false, upd s.dc 0xFD)]
  | .enableBlinking => some [(false, upd s.dc 0x01)]
  | .disableBlinking => some [(false, upd s.dc 0xFE)]
  | .displayToLeft => some [(false, upd s.em 0xFD)]
  | .displayToRight => some [(false, upd s.em 0x02)]
  | .enableShiftOnWrite => some [(false, upd s.em 0x01)]
  | .disableShiftOnWrite => some [(false, upd s.em 0xFE)]
  | .shiftCursorLeft => some [(false, 0x10)]
  | .shiftCursorRight => some [(false, 0x14)]
  | .shiftDisplayLeft => some [(false, 0x18)]
  | .shiftDisplayRight => some [(false, 0x1C)]
  | .setCursor x y => some (cursorBytes s.cfg.sizeX x y)
  | .displayChar c => some [(true, c)]
  | .eraseLine line =>
    some (cursorBytes s.cfg.sizeX 0 line ++
      (List.replicate s.cfg.sizeX.toNat (true, 0x20) ++ cursorBytes s.cfg.sizeX 0 line))
  | .writeDdram addr data => some (restoringBytes ac (addr ||| 0x80) [data])
  | .writeCgram addr data => some (restoringBytes ac (addr ||| 0x40) [data])
  | .writeGlyph5x8 slot d => some (restoringBytes ac (((slot &&& 0x07) <<< 3) ||| 0x40) d)
  | .writeGlyph5x10 slot d => some (restoringBytes ac (((slot &&& 0x06) <<< 3) ||| 0x40) d)
  | .enableBacklight | .disableBacklight | .getEntryMode | .getDisplayControl | .getShift
  | .getFunctionSet | .readAddressCounter | .readBusyFlag => some []
  | .lcdClearDisplay | .lcdReturnHome | .lcdEntryModeSet _ _ | .lcdDisplayControl _ _ _
  | .lcdCursorDisplayShift _ _ | .lcdFunctionSet4bit _ _ | .lcdSetCgramAddress _
  | .lcdSetDdramAddress _ =>
    match encode i with
    | .lcdByte b => some [(false, b)]
    | .command _ | .rawNibble _ | .frame _ => none
  | .readDdram _ | .readCgram _ | .rawNibble8bitInterface | .rawNibble4bitInterface | .xw _ _ _ _
  | .xr _ _ _ => none

/-- The LCD controller after executing bytes in order (20_memory.md section 8). -/
def Lcd.executeAll (l : Lcd) (bytes : List (Bool × Byte)) : Lcd :=
  bytes.foldl (fun l b => l.execute b.1 b.2) l

/-- Two controllers agree in memories, address counter, space and direction. -/
def sameLcd (l k : Lcd) : Prop :=
  k.dd = l.dd ∧ k.cg = l.cg ∧ k.ac = l.ac ∧ k.space = l.space ∧ k.inc = l.inc

end Sys2Proof.Machine
end

