-- ==== Sys2Proof/Certificates/Slice0/Obligations.lean ====
section
/-!
DEFINITION. The statements for the provers. Each docstring names the rule of spec/ it formalises.
-/

open Sys2Proof Sys2Proof.Machine

/-! ## Encodings (30_encoding.md) -/

/-- Every row of the opcode table: decoding the encoding of a well-formed instruction gives it back (R80, R82,
R98, R223, R96, R97). -/
def Obligations.DecodeEncodeRoundTrip : Prop :=
  ∀ i : Instr, i.wellFormed = true → decode (encode i) = .ok i

/-- At the command port a well-formed command's bytes decode to it whatever follows them, and their number is
the format's (R80, R82). -/
def Obligations.CommandBytesDecodeInAnyStream : Prop :=
  ∀ (i : Instr) (bs rest : List Byte), i.wellFormed = true → encode i = .command bs →
    decodeCommand (bs ++ rest) = .ok (i, rest) ∧ i.format.commandLength = some bs.length

/-- The other direction: what the command port decodes is well-formed, and its encoding is exactly the bytes
taken (R80, R82). -/
def Obligations.DecodedCommandReencodes : Prop :=
  ∀ (bytes rest : List Byte) (i : Instr), decodeCommand bytes = .ok (i, rest) →
    i.wellFormed = true ∧ ∃ bs, encode i = .command bs ∧ bytes = bs ++ rest

/-- The other direction for the words the block emits: LCD instruction bytes (R98), raw nibbles (R223),
frames (R96, R97). -/
def Obligations.DecodedEmittedWordReencodes : Prop :=
  (∀ (b : Byte) (i : Instr), decodeLcdByte b = .ok i → encode i = .lcdByte b) ∧
  (∀ (n : Nibble) (i : Instr), decodeRawNibble n = .ok i → encode i = .rawNibble n) ∧
  (∀ (b : Byte) (i : Instr), decodeFrame b = .ok i → encode i = .frame b)

/-- A few words written out from the spec's encodings decode to what they stand for (R82, R98, R223, R96, R97;
95_test_vectors.md TG1, TA6, P5, TX1, TX10). -/
def Obligations.SpecWordsDecode : Prop :=
  decode (.command [0x01]) = .ok .clearDisplay ∧
  decode (.command [0x11, 0x05, 0x01]) = .ok (.setCursor 0x05 0x01) ∧
  decode (.command [0x15, 0x0A, 0x0E, 0x11, 0x11, 0x11, 0x0E, 0x00, 0x00, 0x00])
    = .ok (.writeGlyph5x8 0x0A [0x0E, 0x11, 0x11, 0x11, 0x0E, 0x00, 0x00, 0x00]) ∧
  decode (.command [0x1E, 0x11]) = .ok (.readCgram 0x11) ∧
  decode (.command [0x21]) = .ok .readBusyFlag ∧
  decode (.lcdByte 0b00000110) = .ok (.lcdEntryModeSet true false) ∧
  decode (.lcdByte 0b00101000) = .ok (.lcdFunctionSet4bit true false) ∧
  decode (.lcdByte 0b11000101) = .ok (.lcdSetDdramAddress 0x45) ∧
  decode (.rawNibble 0b0011) = .ok .rawNibble8bitInterface ∧
  decode (.frame 0x34) = .ok (.xw 0x3 false true false) ∧
  decode (.frame 0xF6) = .ok (.xr false true false)

/-- Opcodes 0x00 and 0x22 to 0xFF, and commands shorter than their format, are refused by the step that would
take them (R84, D3, U5). -/
def Obligations.UndefinedCommandsAreRefused : Prop :=
  (∀ (s : State) (op : Byte) (rest : List Byte), s.resetIn = none → s.seq = .ready →
    s.cmdPort = op :: rest → (op = 0x00 ∨ 0x22 ≤ op) → step s = .refused (.noCommand op)) ∧
  (∀ (s : State) (i : Instr) (op : Byte) (operands given : List Byte), s.resetIn = none → s.seq = .ready →
    i.wellFormed = true → encode i = .command (op :: operands) → given.length < operands.length →
    s.cmdPort = op :: given → step s = .refused (.shortCommand op))

/-- Every operand of a defined command has a defined meaning: no well-formed command is refused at `READY`,
and SET_CURSOR with a line above 3 issues nothing (R83, R84). The first clause holds of all 45 rows of the opcode
table; that a row that is no command has a meaning at `READY`, which `exec` runs, is the model's choice (DESIGN CHOICE,
notes/assumptions/9). -/
def Obligations.EveryOperandHasAMeaning : Prop :=
  (∀ (i : Instr) (s : State), i.wellFormed = true → s.seq = .ready → ∃ t, exec i s = .next t) ∧
  (∀ (x y : Byte) (s : State), s.seq = .ready → 3 < y →
    ∃ t, exec (.setCursor x y) s = .next t ∧ t.trace = s.trace ∧ sameRegisters s t ∧ s.completed t .unit)

/-- The pseudo-command DISPLAY_STRING expands to one DISPLAY_CHAR per character, first character first, and
the empty string to no command (R86). -/
def Obligations.DisplayStringExpandsToCharacters : Prop :=
  commandBytes (displayString []) = [] ∧
  ∀ (c : Byte) (cs rest : List Byte),
    displayString (c :: cs) = .displayChar c :: displayString cs ∧
    decodeCommand (commandBytes (displayString (c :: cs)) ++ rest)
      = .ok (.displayChar c, commandBytes (displayString cs) ++ rest)

/-! ## Bits (30_encoding.md, 41_register_commands.md, 42_addressing_commands.md) -/

/-- R140. -/
def Obligations.UpdFollowsTheMaskConvention : Prop :=
  (∀ current mask : Byte, 0x10 < mask.toNat → upd current mask = current &&& mask) ∧
  (∀ current mask : Byte, mask.toNat ≤ 0x10 → upd current mask = current ||| mask) ∧
  (∀ current : Byte, upd current 0x11 = current &&& 0x11 ∧ upd current 0x00 = current ∧
    upd current 0x10 = current ||| 0x10 ∧ (upd current 0xFE).getLsbD 0 = false)

/-- R141: idempotence; a set mask clears nothing and a clear mask sets nothing; the single-bit masks 0x20, 0x40
and 0x80 are AND-ed. -/
def Obligations.UpdIsIdempotentAndOneSided : Prop :=
  (∀ current mask : Byte, upd (upd current mask) mask = upd current mask) ∧
  (∀ current mask : Byte, mask.toNat ≤ 0x10 → current &&& upd current mask = current) ∧
  (∀ current mask : Byte, 0x10 < mask.toNat → current ||| upd current mask = current) ∧
  (∀ current : Byte, upd current 0x20 = current &&& 0x20 ∧ upd current 0x40 = current &&& 0x40 ∧
    upd current 0x80 = current &&& 0x80)

/-- R96 and R97: where each bit of a frame comes from, and the values the spec gives. -/
def Obligations.ExpanderFrameBits : Prop :=
  (∀ (bl : Bool) (n : Byte) (rs e : Bool),
    (writeFrame bl n rs e).extractLsb' 4 4 = n.extractLsb' 4 4 ∧ (writeFrame bl n rs e).getLsbD 3 = bl ∧
    (writeFrame bl n rs e).getLsbD 2 = e ∧ (writeFrame bl n rs e).getLsbD 1 = false ∧
    (writeFrame bl n rs e).getLsbD 0 = rs) ∧
  (∀ bl rs e : Bool,
    (readFrame bl rs e).extractLsb' 4 4 = 0xF ∧ (readFrame bl rs e).getLsbD 3 = bl ∧
    (readFrame bl rs e).getLsbD 2 = e ∧ (readFrame bl rs e).getLsbD 1 = true ∧
    (readFrame bl rs e).getLsbD 0 = rs) ∧
  writeFrame false 0x30 false true = 0x34 ∧ writeFrame false 0x30 false false = 0x30 ∧
  writeFrame true 0x40 true true = 0x4D ∧
  readFrame false false false = 0xF2 ∧ readFrame false true false = 0xF3 ∧
  readFrame false false true = 0xF6 ∧ readFrame false true true = 0xF7 ∧
  readFrame true false false = 0xFA ∧ readFrame true true false = 0xFB ∧
  readFrame true false true = 0xFE ∧ readFrame true true true = 0xFF

/-- R31: the four entries, with 8-bit wrap-around, and none above. -/
def Obligations.LineOffsetTable : Prop :=
  ∀ sizeX : Byte, lineOffset sizeX 0 = some 0x00 ∧ lineOffset sizeX 1 = some 0x40 ∧
    lineOffset sizeX 2 = some sizeX ∧ lineOffset sizeX 3 = some (0x40 + sizeX) ∧
    ∀ y : Byte, 3 < y → lineOffset sizeX y = none

/-- R182 (glyph bases, with the values of R55): the masked slot times 8, aligned to 8 and to 16, and the
shift loses no bit. -/
def Obligations.GlyphBases : Prop :=
  ∀ slot : Byte, (glyph8Base slot).toNat = 8 * (slot.toNat % 8) ∧
    (glyph11Base slot).toNat = 16 * (slot.toNat % 8 / 2)

/-- R99: which row of R98's table an address-set byte falls in, for every operand, and the address in it. -/
def Obligations.AddressTagsAreOredUnmasked : Prop :=
  (∀ addr : Byte, 0x80 ≤ addr →
    decodeLcdByte (cgramSet addr) = .ok (.lcdSetDdramAddress ((addr ||| 0x40).extractLsb' 0 7))) ∧
  (∀ addr : Byte, addr ≤ 0x7F →
    decodeLcdByte (cgramSet addr) = .ok (.lcdSetCgramAddress ((addr &&& 0x3F).extractLsb' 0 6))) ∧
  (∀ addr : Byte, decodeLcdByte (ddramSet addr) = .ok (.lcdSetDdramAddress (addr.extractLsb' 0 7))) ∧
  (∀ sizeX x y b : Byte, cursorByte sizeX x y = some b → b.getLsbD 7 = true)

/-! ## The codec (40_codec.md) -/

/-- R112: three transmissions, E high, high, low; bits 3:0 of n are ignored; no state of the block is
written. -/
def Obligations.NibbleWriteSendsThreeFrames : Prop :=
  ∀ (rs : Bool) (n : Byte) (s : State),
    (nibbleWrite rs n s).trace = s.trace ++
      [Event.write s.cfg.addr (writeFrame s.bl n rs true), Event.write s.cfg.addr (writeFrame s.bl n rs true),
       Event.write s.cfg.addr (writeFrame s.bl n rs false)] ∧
    nibbleWrite rs n s = nibbleWrite rs (n &&& 0xF0) s ∧
    sameRegisters s (nibbleWrite rs n s) ∧ sameInputs s (nibbleWrite rs n s) ∧
    (nibbleWrite rs n s).seq = s.seq ∧ (nibbleWrite rs n s).responses = s.responses ∧
    (nibbleWrite rs n s).replies = s.replies

/-- R114, R115, R116: the five transactions with their two samples, the assembly of the result, and the two
aborts; no state of the block is written. -/
def Obligations.RegReadTransactions : Prop :=
  (∀ (rs : Bool) (s : State) (v1 v2 : Byte) (rest : List Reply),
    s.replies = byteReply v1 :: byteReply v2 :: rest →
    (regRead rs s).1 = ((v1 &&& 0xF0) ||| (v2 >>> 4)) ∧
    (regRead rs s).2.trace = s.trace ++ readEvents s.cfg.addr s.bl rs v1 v2 ∧
    (regRead rs s).2.replies = rest) ∧
  (∀ (rs : Bool) (s : State) (r : Reply) (rest : List Reply), s.replies = r :: rest → r.available ≠ 1 →
    (regRead rs s).1 = 0x00 ∧
    (regRead rs s).2.trace = s.trace ++
      [Event.write s.cfg.addr (readFrame s.bl rs false), Event.write s.cfg.addr (readFrame s.bl rs true),
       Event.read s.cfg.addr .short] ∧
    (regRead rs s).2.replies = rest) ∧
  (∀ (rs : Bool) (s : State) (v1 : Byte) (r : Reply) (rest : List Reply),
    s.replies = byteReply v1 :: r :: rest → r.available ≠ 1 →
    (regRead rs s).1 = 0x00 ∧
    (regRead rs s).2.trace = s.trace ++
      [Event.write s.cfg.addr (readFrame s.bl rs false), Event.write s.cfg.addr (readFrame s.bl rs true),
       Event.read s.cfg.addr (.byte v1),
       Event.write s.cfg.addr (readFrame s.bl rs false), Event.write s.cfg.addr (readFrame s.bl rs true),
       Event.read s.cfg.addr .short] ∧
    (regRead rs s).2.replies = rest) ∧
  (∀ (rs : Bool) (s : State), sameRegisters s (regRead rs s).2 ∧ sameInputs s (regRead rs s).2 ∧
    (regRead rs s).2.seq = s.seq ∧ (regRead rs s).2.responses = s.responses)

/-- R122 and R123, with what they give on a read aborted at its first or its second sample. -/
def Obligations.StatusByteFields : Prop :=
  (∀ s : State, readAddressCounter s = ((regRead false s).1 &&& 0x7F, (regRead false s).2) ∧
    readBusyFlag s = (((regRead false s).1 &&& 0x80) != 0, (regRead false s).2)) ∧
  (∀ (s : State) (r : Reply) (rest : List Reply), s.replies = r :: rest → r.available ≠ 1 →
    (readAddressCounter s).1 = 0x00 ∧ (readBusyFlag s).1 = false) ∧
  (∀ (s : State) (v1 : Byte) (r : Reply) (rest : List Reply), s.replies = byteReply v1 :: r :: rest →
    r.available ≠ 1 → (readAddressCounter s).1 = 0x00 ∧ (readBusyFlag s).1 = false)

/-- R119 (b): a status read that aborts, at its first sample or at its second after any first one, a busy one too
(95_test_vectors.md TC14, TC15), ends the poll, so the full register write goes out. -/
def Obligations.AbortedPollCountsAsFree : Prop :=
  (∀ (rs : Bool) (v : Byte) (s : State) (r : Reply) (rest : List Reply), s.replies = r :: rest →
    r.available ≠ 1 →
    ∃ t, regWrite rs v s = .done t ∧ t.replies = rest ∧ t.trace = s.trace ++
      [Event.write s.cfg.addr (readFrame s.bl false false), Event.write s.cfg.addr (readFrame s.bl false true),
       Event.read s.cfg.addr .short] ++ writeEvents s.cfg.addr (byteFrames s.bl rs v)) ∧
  (∀ (rs : Bool) (v v1 : Byte) (s : State) (r : Reply) (rest : List Reply),
    s.replies = byteReply v1 :: r :: rest → r.available ≠ 1 →
    ∃ t, regWrite rs v s = .done t ∧ t.replies = rest ∧ t.trace = s.trace ++
      [Event.write s.cfg.addr (readFrame s.bl false false), Event.write s.cfg.addr (readFrame s.bl false true),
       Event.read s.cfg.addr (.byte v1),
       Event.write s.cfg.addr (readFrame s.bl false false), Event.write s.cfg.addr (readFrame s.bl false true),
       Event.read s.cfg.addr .short] ++ writeEvents s.cfg.addr (byteFrames s.bl rs v))

/-- R121, R118, R119 (a): one full register write whose poll takes k turns, none aborted, in a command or an init
step, with anything behind it (`ms`): 5k + 6 transmissions and 2k read requests, in the order of R118 and R120, and
then `ms` is issued; where `ms` is only the command's response, the command ends with that one response. That the
k turns are k steps, in which the write stays to be issued until the last, is the model's choice
(notes/assumptions/4). -/
def Obligations.PollOfKTurnsCosts : Prop :=
  ∀ (s : State) (rs : Bool) (v : Byte) (m : Micro) (ms : List Micro) (busy : List (Byte × Byte))
    (free : Byte × Byte) (rest : List Reply),
    s.resetIn = none → s.seq ≠ .ready → s.ops = m :: ms →
    (m = .regWrite rs v ∨ (m = .restoreAC ∧ rs = false ∧ v = s.saved ||| 0x80)) →
    (∀ p ∈ busy, p.1.getLsbD 7 = true) → free.1.getLsbD 7 = false →
    s.replies = pairReplies (busy ++ [free]) ++ rest →
    (∀ j, j ≤ busy.length → ∃ t, Sys2Proof.core.run j s = .next t ∧ t.seq = s.seq ∧ t.ops = m :: ms ∧
      t.responses = s.responses ∧ sameRegisters s t ∧ sameInputs s t) ∧
    ∃ u, Sys2Proof.core.run (busy.length + 1) s = .next (run ms u) ∧ u.seq = s.seq ∧ u.saved = s.saved ∧
      u.value = s.value ∧ u.responses = s.responses ∧ sameRegisters s u ∧ sameInputs s u ∧ u.replies = rest ∧
      u.trace = s.trace ++ ((busy ++ [free]).flatMap fun p => readEvents s.cfg.addr s.bl false p.1 p.2)
        ++ writeEvents s.cfg.addr (byteFrames s.bl rs v) ∧
      (sentBytes u.trace).length = (sentBytes s.trace).length + 5 * (busy.length + 1) + 6 ∧
      readCount u.trace = readCount s.trace + 2 * (busy.length + 1) ∧
      (∀ r, s.seq = .exec → ms = [.ret r] → s.completed (run ms u) r ∧ (run ms u).trace = u.trace) ∧
      (s.seq = .exec → ms = [.retValue] → s.completed (run ms u) (.byte s.value) ∧ (run ms u).trace = u.trace) ∧
      (ms = [] → (run ms u).ops = [] ∧ (run ms u).responses = s.responses ∧ (run ms u).trace = u.trace ∧
        (s.seq = .exec → (run ms u).seq = .ready) ∧
        ∀ k, s.seq = .init k → (run ms u).seq =
          if k < (initSequence s.cfg.family).length then .init (k + 1) else .ready)

/-- R119 (c), R254: while every status read finds the busy flag set (here: a responder in step whose busy flag
is set, which nothing the block does clears), the operation in progress never ends, however many steps are
run: only status reads are sent, and `seq` and the registers stay. The responder is the reference responder
(PRESUMED, notes/assumptions/10), and one turn of the poll is one step (DESIGN CHOICE, notes/assumptions/4). -/
def Obligations.EndlessBusyNeverEnds : Prop :=
  ∀ (n : Nat) (s : State) (l : Lcd) (m : Micro) (ms : List Micro),
    s.resetIn = none → s.inStep l → l.bf = true → s.seq ≠ .ready → s.ops = m :: ms →
    ((∃ rs v, m = .regWrite rs v) ∨ m = .restoreAC) →
    ∃ t, Sys2Proof.core.run n s = .next t ∧ t.seq = s.seq ∧ t.ops = s.ops ∧ t.responses = s.responses ∧
      sameRegisters s t ∧ sameInputs s t ∧
      sentBytes t.trace = sentBytes s.trace ++ (List.replicate n (readFrames s.bl false)).flatten

/-- R292, R299: after a nibble write and after a register read that is not aborted E is low; after an aborted
one it is left high. -/
def Obligations.EnableLineLevels : Prop :=
  (∀ (rs : Bool) (n : Byte) (s : State), (nibbleWrite rs n s).eLow = true) ∧
  (∀ (rs : Bool) (s : State) (v1 v2 : Byte) (rest : List Reply),
    s.replies = byteReply v1 :: byteReply v2 :: rest → (regRead rs s).2.eLow = true) ∧
  (∀ (rs : Bool) (s : State) (r : Reply) (rest : List Reply), s.replies = r :: rest → r.available ≠ 1 →
    (regRead rs s).2.eLow = false) ∧
  (∀ (rs : Bool) (s : State) (v1 : Byte) (r : Reply) (rest : List Reply),
    s.replies = byteReply v1 :: r :: rest → r.available ≠ 1 → (regRead rs s).2.eLow = false)

/-! ## Register commands (41_register_commands.md) -/

/-- R142, R143: clear and home send their byte; no register of the block changes. -/
def Obligations.ClearAndHomeSendTheirByte : Prop :=
  ∀ (i : Instr) (v : Byte), (i, v) ∈ [(Instr.clearDisplay, 0x01#8), (.moveToHome, 0x02#8)] →
    ∀ s : State, s.seq = .ready →
      ∃ t, exec i s = .next t ∧ sendsByte false v [.unit] s t ∧ sameRegisters s t ∧ sameInputs s t

/-- R144 to R149: the display-control commands replace `DC` by `upd(DC, mask)`, send it, and change no other
register. -/
def Obligations.DisplayControlCommands : Prop :=
  ∀ (i : Instr) (mask : Byte),
    (i, mask) ∈ [(Instr.enableDisplay, 0x04#8), (.disableDisplay, 0xFB#8), (.enableCursor, 0x02#8),
      (.disableCursor, 0xFD#8), (.enableBlinking, 0x01#8), (.disableBlinking, 0xFE#8)] →
    ∀ s : State, s.seq = .ready →
      ∃ t, exec i s = .next t ∧ t.dc = upd s.dc mask ∧ sendsByte false (upd s.dc mask) [.unit] s t ∧
        sameRegisters { s with dc := upd s.dc mask } t ∧ sameInputs s t

/-- R150 to R153: the entry-mode commands replace `EM` by `upd(EM, mask)`, send it, and change no other
register. -/
def Obligations.EntryModeCommands : Prop :=
  ∀ (i : Instr) (mask : Byte),
    (i, mask) ∈ [(Instr.displayToLeft, 0xFD#8), (.displayToRight, 0x02#8), (.enableShiftOnWrite, 0x01#8),
      (.disableShiftOnWrite, 0xFE#8)] →
    ∀ s : State, s.seq = .ready →
      ∃ t, exec i s = .next t ∧ t.em = upd s.em mask ∧ sendsByte false (upd s.em mask) [.unit] s t ∧
        sameRegisters { s with em := upd s.em mask } t ∧ sameInputs s t

/-- R154 to R158: the shift commands set `SH` to 0x10, 0x14, 0x18, 0x1C whatever it was, send it, and change no
other register. -/
def Obligations.ShiftCommands : Prop :=
  (∀ mask : Byte, updSH mask = (if 0x10 < mask.toNat then 0x10 else mask ||| 0x10)) ∧
  ∀ (i : Instr) (v : Byte),
    (i, v) ∈ [(Instr.shiftCursorLeft, 0x10#8), (.shiftCursorRight, 0x14#8), (.shiftDisplayLeft, 0x18#8),
      (.shiftDisplayRight, 0x1C#8)] →
    ∀ s : State, s.seq = .ready →
      ∃ t, exec i s = .next t ∧ t.sh = v ∧ sendsByte false v [.unit] s t ∧
        sameRegisters { s with sh := v } t ∧ sameInputs s t

/-! ## Addressing and data commands (42_addressing_commands.md) -/

/-- R170: a line above 3 is a no-op answered `Unit`; else the DDRAM-address-set byte is sent, computed with
8-bit wrap-around. -/
def Obligations.SetCursorCommand : Prop :=
  ∀ (x y : Byte) (s : State), s.seq = .ready →
    ∃ t, exec (.setCursor x y) s = .next t ∧ sameRegisters s t ∧ sameInputs s t ∧
      (3 < y → t.trace = s.trace ∧ t.replies = s.replies ∧ s.completed t .unit) ∧
      (y = 0 → sendsByte false (x ||| 0x80) [.unit] s t) ∧
      (y = 1 → sendsByte false ((0x40 + x) ||| 0x80) [.unit] s t) ∧
      (y = 2 → sendsByte false ((s.cfg.sizeX + x) ||| 0x80) [.unit] s t) ∧
      (y = 3 → sendsByte false ((0x40 + s.cfg.sizeX + x) ||| 0x80) [.unit] s t)

/-- R171. -/
def Obligations.DisplayCharCommand : Prop :=
  ∀ (c : Byte) (s : State), s.seq = .ready →
    ∃ t, exec (.displayChar c) s = .next t ∧ sendsByte true c [.unit] s t ∧ sameRegisters s t ∧ sameInputs s t

/-- R173: cursor to (0, line), `SIZE_X` spaces, cursor to (0, line); for a line above 3 the spaces alone. The
status reads are answered, each of them free. -/
def Obligations.EraseLineCommand : Prop :=
  (∀ (line b : Byte) (s : State) (polls : List (Byte × Byte)) (rest : List Reply), s.seq = .ready →
    lineOffset s.cfg.sizeX line = some b → polls.length = s.cfg.sizeX.toNat + 2 → freePolls polls →
    s.replies = pairReplies polls ++ rest →
    ∃ t, exec (.eraseLine line) s = .next t ∧ s.completed t .unit ∧ sameRegisters s t ∧ sameInputs s t ∧
      t.replies = rest ∧
      t.trace = s.trace ++ cycleEvents s.cfg.addr s.bl polls
        ((false, b ||| 0x80) :: (List.replicate s.cfg.sizeX.toNat (true, 0x20#8) ++ [(false, b ||| 0x80)]))) ∧
  (∀ (line : Byte) (s : State) (polls : List (Byte × Byte)) (rest : List Reply), s.seq = .ready →
    3 < line → polls.length = s.cfg.sizeX.toNat → freePolls polls →
    s.replies = pairReplies polls ++ rest →
    ∃ t, exec (.eraseLine line) s = .next t ∧ s.completed t .unit ∧ sameRegisters s t ∧ sameInputs s t ∧
      t.replies = rest ∧
      t.trace = s.trace ++ cycleEvents s.cfg.addr s.bl polls (List.replicate s.cfg.sizeX.toNat (true, 0x20#8)))

/-- R176 and R179: save (a status read that does not poll), address-set, data, restore with the saved address
counter. The reads are answered, the polls free. -/
def Obligations.SingleByteWriteCommands : Prop :=
  ∀ (i : Instr) (addressSet data : Byte),
    ((∃ addr, i = .writeDdram addr data ∧ addressSet = addr ||| 0x80) ∨
      (∃ addr, i = .writeCgram addr data ∧ addressSet = addr ||| 0x40)) →
    ∀ (s : State) (save : Byte × Byte) (polls : List (Byte × Byte)) (rest : List Reply), s.seq = .ready →
      polls.length = 3 → freePolls polls → s.replies = pairReplies (save :: polls) ++ rest →
      ∃ t, exec i s = .next t ∧ s.completed t .unit ∧ sameRegisters s t ∧ sameInputs s t ∧ t.replies = rest ∧
        t.trace = s.trace ++ readEvents s.cfg.addr s.bl false save.1 save.2 ++
          cycleEvents s.cfg.addr s.bl polls
            [(false, addressSet), (true, data), (false, (joinSamples save.1 save.2 &&& 0x7F) ||| 0x80)]

/-- R177 and R178: save, address-set, a data read with no poll before it, restore; the response is the byte
read. -/
def Obligations.SingleByteReadCommands : Prop :=
  ∀ (i : Instr) (addressSet : Byte),
    ((∃ addr, i = .readDdram addr ∧ addressSet = addr ||| 0x80) ∨
      (∃ addr, i = .readCgram addr ∧ addressSet = addr ||| 0x40)) →
    ∀ (s : State) (save p1 d p2 : Byte × Byte) (rest : List Reply), s.seq = .ready →
      freePolls [p1, p2] → s.replies = pairReplies [save, p1, d, p2] ++ rest →
      ∃ t, exec i s = .next t ∧ s.completed t (.byte ((d.1 &&& 0xF0) ||| (d.2 >>> 4))) ∧ sameRegisters s t ∧
        sameInputs s t ∧ t.replies = rest ∧
        t.trace = s.trace ++ readEvents s.cfg.addr s.bl false save.1 save.2 ++
          cycleEvents s.cfg.addr s.bl [p1] [(false, addressSet)] ++
          readEvents s.cfg.addr s.bl true d.1 d.2 ++
          cycleEvents s.cfg.addr s.bl [p2] [(false, (joinSamples save.1 save.2 &&& 0x7F) ||| 0x80)]

/-- R180 and R181: save, one CGRAM-address-set of the glyph's base, the data bytes in ascending order, restore.
Each command applies its own mask. -/
def Obligations.GlyphCommands : Prop :=
  ∀ (i : Instr) (base : Byte) (d : List Byte),
    ((∃ slot, i = .writeGlyph5x8 slot d ∧ d.length = 8 ∧ base = (slot &&& 0x07) <<< 3) ∨
      (∃ slot, i = .writeGlyph5x10 slot d ∧ d.length = 11 ∧ base = (slot &&& 0x06) <<< 3)) →
    ∀ (s : State) (save : Byte × Byte) (polls : List (Byte × Byte)) (rest : List Reply), s.seq = .ready →
      polls.length = d.length + 2 → freePolls polls → s.replies = pairReplies (save :: polls) ++ rest →
      ∃ t, exec i s = .next t ∧ s.completed t .unit ∧ sameRegisters s t ∧ sameInputs s t ∧ t.replies = rest ∧
        t.trace = s.trace ++ readEvents s.cfg.addr s.bl false save.1 save.2 ++
          cycleEvents s.cfg.addr s.bl polls
            ((false, base ||| 0x40) :: (d.map (fun v => (true, v)) ++
              [(false, (joinSamples save.1 save.2 &&& 0x7F) ||| 0x80)]))

/-- What `exec` refuses, exactly (the model's choice, notes/assumptions/4, 9 and 11; the spec has no such inputs: the
port accepts nothing outside `READY`, R27, and a command shorter than its format is not a command, R84): a
command in a state that is not `READY`, and a glyph command whose data has another length than its format's. -/
def Obligations.ExecRefusesTheseFormsOnly : Prop :=
  (∀ (i : Instr) (s : State), i.wellFormed = true → isCommand i = true → s.seq ≠ .ready →
    exec i s = .refused .portClosed) ∧
  (∀ (slot : Byte) (d : List Byte) (s : State), d.length ≠ 8 →
    exec (.writeGlyph5x8 slot d) s = .refused (.shortCommand 0x15)) ∧
  (∀ (slot : Byte) (d : List Byte) (s : State), d.length ≠ 11 →
    exec (.writeGlyph5x10 slot d) s = .refused (.shortCommand 0x16)) ∧
  (∀ (i : Instr) (s : State) (r : Refusal), exec i s = .refused r →
    isCommand i = true ∧ (s.seq ≠ .ready ∨ i.wellFormed = false))

/-- R117, R119, R124, R251: whichever of their reads abort, at the first sample or at the second, the save and restore
commands run on and complete: the value saved by an aborted save is 0x00, so the restore sends 0x80; an aborted
data read is the byte 0x00 and the restore is still issued; an aborted status read ends its poll
(`ReadAnswer.value`, `ReadAnswer.events`). No status read finds the busy flag set. -/
def Obligations.ShortReadsDoNotStopACommand : Prop :=
  (∀ (i : Instr) (addressSet : Byte) (d : List Byte),
    ((∃ addr v, i = .writeDdram addr v ∧ addressSet = addr ||| 0x80 ∧ d = [v]) ∨
      (∃ addr v, i = .writeCgram addr v ∧ addressSet = addr ||| 0x40 ∧ d = [v]) ∨
      (∃ slot, i = .writeGlyph5x8 slot d ∧ d.length = 8 ∧ addressSet = ((slot &&& 0x07) <<< 3) ||| 0x40) ∨
      (∃ slot, i = .writeGlyph5x10 slot d ∧ d.length = 11 ∧ addressSet = ((slot &&& 0x06) <<< 3) ||| 0x40)) →
    ∀ (s : State) (save : ReadAnswer) (polls : List ReadAnswer) (rest : List Reply), s.seq = .ready →
      save.legal = true → polls.length = d.length + 2 → freeAnswers polls →
      s.replies = answerReplies (save :: polls) ++ rest →
      ∃ t, exec i s = .next t ∧ s.completed t .unit ∧ sameRegisters s t ∧ sameInputs s t ∧ t.replies = rest ∧
        t.trace = s.trace ++ save.events s.cfg.addr s.bl false ++
          answeredCycles s.cfg.addr s.bl polls
            ((false, addressSet) :: (d.map (fun v => (true, v)) ++ [(false, (save.value &&& 0x7F) ||| 0x80)]))) ∧
  (∀ (i : Instr) (addressSet : Byte),
    ((∃ addr, i = .readDdram addr ∧ addressSet = addr ||| 0x80) ∨
      (∃ addr, i = .readCgram addr ∧ addressSet = addr ||| 0x40)) →
    ∀ (s : State) (save p1 d p2 : ReadAnswer) (rest : List Reply), s.seq = .ready → save.legal = true →
      d.legal = true → freeAnswers [p1, p2] → s.replies = answerReplies [save, p1, d, p2] ++ rest →
      ∃ t, exec i s = .next t ∧ s.completed t (.byte d.value) ∧ sameRegisters s t ∧ sameInputs s t ∧
        t.replies = rest ∧
        t.trace = s.trace ++ save.events s.cfg.addr s.bl false ++
          answeredCycles s.cfg.addr s.bl [p1] [(false, addressSet)] ++ d.events s.cfg.addr s.bl true ++
          answeredCycles s.cfg.addr s.bl [p2] [(false, (save.value &&& 0x7F) ||| 0x80)]) ∧
  (∀ (r : Reply) (v1 : Byte), (ReadAnswer.short1 r).value = 0x00 ∧ (ReadAnswer.short2 v1 r).value = 0x00 ∧
    ((0x00 &&& 0x7F) ||| 0x80 : Byte) = 0x80)

/-! ## Backlight, getters, status (43_system_commands.md) -/

/-- R200 and R201: a read; on a short read `Bool(false)`, `BL` unchanged and nothing transmitted; else `BL` is set
or cleared and the byte read goes back with bit 3 set or cleared. -/
def Obligations.BacklightCommands : Prop :=
  ∀ (s : State), s.seq = .ready →
    (∃ t, exec .enableBacklight s = .next t ∧ sameInputs s t ∧
      ((busRead1 s).1 = .short → s.completed t (.bool false) ∧ sameRegisters s t ∧
        t.trace = s.trace ++ [Event.read s.cfg.addr .short]) ∧
      (∀ p, (busRead1 s).1 = .byte p → s.completed t (.bool true) ∧ sameRegisters { s with bl := true } t ∧
        t.trace = s.trace ++ [Event.read s.cfg.addr (.byte p), Event.write s.cfg.addr (p ||| 0x08)])) ∧
    (∃ t, exec .disableBacklight s = .next t ∧ sameInputs s t ∧
      ((busRead1 s).1 = .short → s.completed t (.bool false) ∧ sameRegisters s t ∧
        t.trace = s.trace ++ [Event.read s.cfg.addr .short]) ∧
      (∀ p, (busRead1 s).1 = .byte p → s.completed t (.bool true) ∧ sameRegisters { s with bl := false } t ∧
        t.trace = s.trace ++ [Event.read s.cfg.addr (.byte p), Event.write s.cfg.addr (p &&& 0xF7)]))

/-- R204 to R207: the getters answer with the register, with no bus operation and no state change. -/
def Obligations.GettersAnswerWithTheRegister : Prop :=
  ∀ (s : State), s.seq = .ready → ∀ (i : Instr) (v : Byte),
    (i, v) ∈ [(Instr.getEntryMode, s.em), (.getDisplayControl, s.dc), (.getShift, s.sh),
      (.getFunctionSet, s.fs)] →
    exec i s = .next { s with responses := s.responses ++ [.byte v], ops := [], saved := 0, value := 0 }

/-- R210 and R211: one status read, and its address counter or its busy flag as the response; no poll. -/
def Obligations.StatusCommands : Prop :=
  ∀ (s : State), s.seq = .ready →
    (∃ t, exec .readAddressCounter s = .next t ∧ s.completed t (.byte ((regRead false s).1 &&& 0x7F)) ∧
      t.trace = (regRead false s).2.trace ∧ sameRegisters s t ∧ sameInputs s t ∧ sameMemory s t) ∧
    (∃ t, exec .readBusyFlag s = .next t ∧ s.completed t (.bool (((regRead false s).1 &&& 0x80) != 0)) ∧
      t.trace = (regRead false s).2.trace ∧ sameRegisters s t ∧ sameInputs s t ∧ sameMemory s t)

/-! ## Words the block emits (30_encoding.md R98, 44_init_sequences.md R222, R223) -/

/-- Each LCD instruction byte of R98's table, emitted at `READY`, is one `RegWrite(0, byte)` of exactly its
encoding, gives no response and goes through no register (R98, R120, R159; the model's reading of the table's
rows: notes/assumptions/9). -/
def Obligations.LcdInstructionBytesAreWritten : Prop :=
  ∀ (i : Instr) (b : Byte), encode i = .lcdByte b → ∀ s : State, s.seq = .ready → s.ops = [] →
    ∃ t, exec i s = .next t ∧ sendsByte false b [] s t ∧ sameRegisters s t ∧ sameInputs s t

/-- The raw nibbles are one nibble write alone, with no poll before and no second nibble after (R222, R223), and
a frame is one transmission of its byte (R96, R97, R110). -/
def Obligations.RawNibblesAndFramesAreSent : Prop :=
  ∀ (s : State), s.seq = .ready → s.ops = [] →
    (∃ t, exec .rawNibble8bitInterface s = .next t ∧ t.seq = .ready ∧ sameRegisters s t ∧ sameInputs s t ∧
      t.responses = s.responses ∧ t.replies = s.replies ∧
      t.trace = s.trace ++ writeEvents s.cfg.addr (nibbleFrames s.bl false 0x30)) ∧
    (∃ t, exec .rawNibble4bitInterface s = .next t ∧ t.seq = .ready ∧ sameRegisters s t ∧ sameInputs s t ∧
      t.responses = s.responses ∧ t.replies = s.replies ∧
      t.trace = s.trace ++ writeEvents s.cfg.addr (nibbleFrames s.bl false 0x20)) ∧
    (∀ (n : Nibble) (b e r : Bool), ∃ t, exec (.xw n b e r) s = .next t ∧ t.seq = .ready ∧
      sameRegisters s t ∧ sameInputs s t ∧ t.responses = s.responses ∧ t.replies = s.replies ∧
      t.latch = writeFrame b (n ++ 0#4) r e ∧
      t.trace = s.trace ++ [Event.write s.cfg.addr (writeFrame b (n ++ 0#4) r e)]) ∧
    (∀ (b e r : Bool), ∃ t, exec (.xr b e r) s = .next t ∧ t.seq = .ready ∧
      sameRegisters s t ∧ sameInputs s t ∧ t.responses = s.responses ∧ t.replies = s.replies ∧
      t.latch = readFrame b r e ∧ t.trace = s.trace ++ [Event.write s.cfg.addr (readFrame b r e)])

/-! ## Initialization, reset, the sequencer (10_state.md, 44_init_sequences.md, 70_reset_and_hazards.md) -/

/-- R35: the state at reset, for every choice of the construction parameters. -/
def Obligations.StateAtConstruction : Prop :=
  ∀ p : Params, (State.powerOn p).em = 0x06 ∧ (State.powerOn p).dc = 0x0C ∧ (State.powerOn p).sh = 0x10 ∧
    (State.powerOn p).fs = 0x28 ∧ (State.powerOn p).bl = p.blReset ∧ (State.powerOn p).seq = .init 1 ∧
    (State.powerOn p).cfg = p

/-- R7, D22, U6: construction with legal arguments latches them, each of them; with others it is refused. That every
CLOCK_RES is accepted is the model's choice (notes/assumptions/7). -/
def Obligations.ConstructionChecksItsArguments : Prop :=
  (∀ r : RawParams, r.addr < 128 → r.sizeX < 256 → 1 ≤ r.sizeY → r.sizeY ≤ 4 → r.font ≤ 1 →
    ∃ p, State.construct r = .next (State.powerOn p) ∧ p.addr.toNat = r.addr ∧ p.sizeX.toNat = r.sizeX ∧
      (p.sizeY = .one ↔ r.sizeY = 1) ∧ (p.sizeY = .two ↔ r.sizeY = 2) ∧ (p.sizeY = .three ↔ r.sizeY = 3) ∧
      (p.sizeY = .four ↔ r.sizeY = 4) ∧ (p.font = .f5x8 ↔ r.font = 0) ∧ (p.font = .f5x10 ↔ r.font = 1) ∧
      p.family = r.family ∧ p.blReset = r.blReset ∧ p.clockRes = r.clockRes) ∧
  (∀ r : RawParams, (128 ≤ r.addr ∨ 256 ≤ r.sizeX ∨ r.sizeY < 1 ∨ 4 < r.sizeY ∨ 1 < r.font) →
    State.construct r = .refused .illegalParameter)

/-- R280: a reset, from any state (an endless poll too), reloads the values of R35 with the new arguments; what
stands outside the block is untouched. -/
def Obligations.ResetReloadsFromAnyState : Prop :=
  ∀ (s : State) (p : Params), s.resetIn = some p →
    ∃ t, step s = .next t ∧ t.em = 0x06 ∧ t.dc = 0x0C ∧ t.sh = 0x10 ∧ t.fs = 0x28 ∧ t.bl = p.blReset ∧
      t.cfg = p ∧ t.seq = .init 1 ∧ t.ops = [] ∧ t.resetIn = none ∧ t.trace = s.trace ∧
      t.responses = s.responses ∧ t.latch = s.latch ∧ t.lcd = s.lcd ∧ t.cmdPort = s.cmdPort ∧ t.now = s.now

/-- R36, R228, with the whole trace of R225 and R226: from construction with any parameters, no status read finding
the busy flag set, the variant's steps end at `READY` with the registers of R36, and the trace is exactly the
variant's waits, raw nibbles and full register writes, each in its place. That an init step, its poll of one turn
included, is one step is the model's choice (notes/assumptions/4). -/
def Obligations.InitializationEndsReady : Prop :=
  ∀ (p : Params) (s : State) (q1 q2 q3 q4 q5 : ReadAnswer) (rest : List Reply),
    s = { State.powerOn p with replies := answerReplies [q1, q2, q3, q4, q5] ++ rest } →
    freeAnswers [q1, q2, q3, q4, q5] →
    let fs := 0x28#8 ^^^ (if p.font = .f5x10 then 0x04 else 0) ^^^ (if p.sizeY = .one then 0x08 else 0)
    let nibble := fun n : Byte => writeEvents p.addr (nibbleFrames p.blReset false n)
    let write := fun (q : ReadAnswer) (v : Byte) => answeredCycles p.addr p.blReset [q] [(false, v)]
    ∃ t, Sys2Proof.core.run (initSequence p.family).length s = .next t ∧ t.seq = .ready ∧ t.em = 0x06 ∧
      t.dc = 0x0C ∧ t.sh = 0x10 ∧ t.fs = fs ∧ t.bl = p.blReset ∧ t.responses = [] ∧ t.replies = rest ∧
      (p.family ≠ .ks0066 → t.trace =
        [Event.wait 40000] ++ nibble 0x30 ++ [Event.wait 4100] ++ nibble 0x30 ++ [Event.wait 100] ++ nibble 0x30
          ++ nibble 0x20 ++ write q1 fs ++ write q2 0x08 ++ write q3 0x01 ++ write q4 0x06 ++ write q5 0x0C) ∧
      (p.family = .ks0066 → t.trace =
        [Event.wait 30000] ++ nibble 0x20 ++ write q1 fs ++ [Event.wait 39] ++ write q2 0x08 ++ [Event.wait 39]
          ++ write q3 0x01 ++ [Event.wait 1500] ++ write q4 0x06 ++ write q5 0x0C)

/-- R229: a responder that answers no read at all does not block initialization; the end state is the same. That an
init step, its aborted poll included, is one step, so that as many steps as the variant has lead to `READY`, is the
model's choice (DESIGN CHOICE, notes/assumptions/4). -/
def Obligations.SilentResponderDoesNotBlockInitialization : Prop :=
  ∀ (p : Params) (s : State) (short : List Reply) (rest : List Reply),
    s = { State.powerOn p with replies := short ++ rest } → short.length = 5 →
    (∀ r ∈ short, r.available ≠ 1) →
    ∃ t, Sys2Proof.core.run (initSequence p.family).length s = .next t ∧ t.seq = .ready ∧ t.em = 0x06 ∧
      t.dc = 0x0C ∧ t.sh = 0x10 ∧ t.fs = configuredFS 0x28 p.font p.sizeY ∧ t.bl = p.blReset ∧ t.replies = rest

/-- R221, R305: a wait ends no earlier than its bound, whatever the clock's resolution; seeing the reading change
as often as the model asks for shows that the bound has passed; the bounds are those of R305. -/
def Obligations.WaitsAreLowerBounds : Prop :=
  (∀ (d : Nat) (s : State), s.now + d ≤ (waitAtLeast d s).now ∧ (waitAtLeast d s).trace = s.trace ++ [Event.wait d]) ∧
  (∀ d res t0 t1 : Nat, 0 < res → t0 / res + waitReadings d res ≤ t1 / res → t0 + d ≤ t1) ∧
  waitReadings 100 1000 = 2 ∧
  (∀ k d, initAction .hd44780 k = some (.wait d) ↔ (k, d) ∈ [(1, 40000), (3, 4100), (5, 100)]) ∧
  (∀ k d, initAction .ks0066 k = some (.wait d) ↔ (k, d) ∈ [(1, 30000), (4, 39), (6, 39), (8, 1500)])

/-- The init steps that send a fixed word are the word of the opcode table (R222, R223, R225 to R227): a step
begun at such a position is that word's meaning. That a word emitted at an init position with nothing begun is that
init step is the model's choice (DESIGN CHOICE, notes/assumptions/9). -/
def Obligations.InitStepsAreTheEmittedWords : Prop :=
  ∀ (s : State) (k : Nat) (i : Instr), s.resetIn = none → s.seq = .init k → s.ops = [] →
    ((s.cfg.family ≠ .ks0066 ∧ (k, i) ∈ [(2, Instr.rawNibble8bitInterface), (4, .rawNibble8bitInterface),
        (6, .rawNibble8bitInterface), (7, .rawNibble4bitInterface), (9, .lcdDisplayControl false false false),
        (10, .lcdClearDisplay)]) ∨
      (s.cfg.family = .ks0066 ∧ (k, i) ∈ [(2, Instr.rawNibble4bitInterface),
        (5, .lcdDisplayControl false false false), (7, .lcdClearDisplay)])) →
    step s = exec i s

/-- When the bytes at the command port of a `READY` block decode to a command, the step is that command's
meaning, with the bytes taken; with nothing presented, nothing happens (R27, R80). -/
def Obligations.StepRunsTheDecodedCommand : Prop :=
  (∀ (s : State) (i : Instr) (rest : List Byte), s.resetIn = none → s.seq = .ready →
    decodeCommand s.cmdPort = .ok (i, rest) → step s = exec i { s with cmdPort := rest }) ∧
  (∀ s : State, s.resetIn = none → s.seq = .ready → s.cmdPort = [] → step s = .next s)

/-- R27, R220, R283: outside `READY` the command port accepts nothing: every step answers a next state and takes no
byte from the port. -/
def Obligations.PortIsClosedOutsideReady : Prop :=
  ∀ (s : State), s.resetIn = none → s.seq ≠ .ready → ∃ t, step s = .next t ∧ t.cmdPort = s.cmdPort

/-- R27: "never re-entered": without a reset no step leads from `READY` or `EXEC` to `INIT`, and `INIT(k)` is left
only for `INIT(k+1)` or, after the last step, `READY`. -/
def Obligations.InitializationIsNeverReentered : Prop :=
  ∀ s t : State, s.resetIn = none → step s = .next t →
    ((∀ k, s.seq ≠ .init k) → ∀ k, t.seq ≠ .init k) ∧
    (∀ k, s.seq = .init k → t.seq = .init k ∨ (k < (initSequence s.cfg.family).length ∧ t.seq = .init (k + 1)) ∨
      ((initSequence s.cfg.family).length ≤ k ∧ t.seq = .ready))

/-! ## Whole-machine rules -/

/-- R22 to R25, R27, 20_memory.md section 8: every step keeps the registers' tag and zero bits, the sequencer's
positions, and the canonical form of the responder's memories; and it keeps that what is left to issue is what a
command or an init step leaves (R81, R125). -/
def Obligations.EveryStepKeepsTheInvariant : Prop :=
  (∀ s t : State, s.Inv → step s = .next t → t.Inv) ∧
  (∀ s t : State, s.pendingLegal = true → step s = .next t → t.pendingLegal = true)

/-- The invariant, and the one of what is left to issue, hold after construction with any parameters. -/
def Obligations.ConstructionMeetsTheInvariant : Prop :=
  ∀ p : Params, (State.powerOn p).Inv ∧ (State.powerOn p).pendingLegal = true

/-- R21, R29, R30: which instruction may change which register. No instruction changes `FS` or a parameter;
`EM`, `DC`, `SH` and `BL` are changed by their own commands only. This is the frame of every instruction. For the rows
of the opcode table that are no commands it rests on the model's reading of them (R98, R159; notes/assumptions/9). -/
def Obligations.WhoWritesWhichRegister : Prop :=
  ∀ (i : Instr) (s t : State), exec i s = .next t →
    t.fs = s.fs ∧ t.cfg = s.cfg ∧ t.cmdPort = s.cmdPort ∧ t.resetIn = s.resetIn ∧
    (i ∉ [.displayToLeft, .displayToRight, .enableShiftOnWrite, .disableShiftOnWrite] → t.em = s.em) ∧
    (i ∉ [.enableDisplay, .disableDisplay, .enableCursor, .disableCursor, .enableBlinking, .disableBlinking] →
      t.dc = s.dc) ∧
    (i ∉ [.shiftCursorLeft, .shiftCursorRight, .shiftDisplayLeft, .shiftDisplayRight] → t.sh = s.sh) ∧
    (i ∉ [.enableBacklight, .disableBacklight] → t.bl = s.bl)

/-- R81, R82: one response per command, of the kind the opcode map gives. After the command's first step and after
every further step in which it goes on with a busy poll, either it has ended and has given that one response, or it
has given none and what is left to issue ends in it. -/
def Obligations.OneResponsePerCommand : Prop :=
  (∀ (i : Instr) (s t : State), isCommand i = true → exec i s = .next t →
    (t.seq = .ready ∧ t.ops = [] ∧
      ∃ r : Response, t.responses = s.responses ++ [r] ∧ i.responseKind = some r.kind) ∨
    (t.seq = .exec ∧ t.ops ≠ [] ∧ t.responses = s.responses ∧ t.pendingLegal = true ∧
      t.pendingAnswer = i.responseKind)) ∧
  (∀ s : State, s.resetIn = none → s.seq = .exec → s.pendingLegal = true →
    ∃ t, step s = .next t ∧
      ((t.seq = .ready ∧ t.ops = [] ∧
          ∃ r : Response, t.responses = s.responses ++ [r] ∧ s.pendingAnswer = some r.kind) ∨
        (t.seq = .exec ∧ t.ops ≠ [] ∧ t.responses = s.responses ∧ t.pendingLegal = true ∧
          t.pendingAnswer = s.pendingAnswer)))

/-- R50, R51, R64, R221, R261: a step only appends to the bus trace, every bus operation names `ADDR`, a wait
stands in it during initialization only, and the clock does not run back. -/
def Obligations.TraceGrowsAtOneAddress : Prop :=
  (∀ s t : State, s.Inv → step s = .next t →
    ∃ new, t.trace = s.trace ++ new ∧
      ∀ e ∈ new, e.address = some s.cfg.addr ∨ ((∃ k, s.seq = .init k) ∧ ∃ d, e = Event.wait d)) ∧
  (∀ s t : State, step s = .next t → s.now ≤ t.now)

/-- R29, R95, R202: every byte a command transmits carries the backlight flag in bit 3, the flag as the command
leaves it; and so does every byte of any step (a command's first, a later one in a busy poll, one of
initialization), under the invariant of what is left to issue that every step keeps. -/
def Obligations.EveryFrameCarriesTheBacklightFlag : Prop :=
  (∀ (i : Instr) (s t : State), isCommand i = true → exec i s = .next t →
    ∃ new, t.trace = s.trace ++ new ∧ ∀ b ∈ sentBytes new, b.getLsbD 3 = t.bl) ∧
  (∀ s t : State, s.pendingLegal = true → step s = .next t →
    ∃ new, t.trace = s.trace ++ new ∧ ∀ b ∈ sentBytes new, b.getLsbD 3 = t.bl)

/-! ## The block together with the reference responder (20_memory.md section 8, not normative: PRESUMED,
notes/assumptions/10) -/

/-- One memory: a byte read after a write to its address is the byte written, every other address reads as
before, and the canonical form is kept. -/
def Obligations.ResponderMemoryLaws : Prop :=
  ∀ (size : Nat) (m : Memory) (a : Nat) (v : Byte), m.wf size = true → a < size →
    (m.write a v).read a = v ∧ (∀ b, b ≠ a → (m.write a v).read b = m.read b) ∧ (m.write a v).wf size = true

/-- R293: with a responder in step that is not busy, every well-formed command ends at once, and leaves the
responder in step: the nibble pairing is not lost while no read is short. -/
def Obligations.CommandsEndAndKeepTheResponderInStep : Prop :=
  ∀ (i : Instr) (s : State) (l : Lcd), i.wellFormed = true → isCommand i = true → s.seq = .ready →
    s.inStep l → l.bf = false →
    ∃ t l', exec i s = .next t ∧ t.seq = .ready ∧ t.inStep l' ∧ l'.bf = false

/-- R53, R57, R58, R62: what an instruction writes is what an LCD controller in step executes, byte by byte: its
memories, address counter, space and direction are those the bytes in order give, it stays in step, and its busy flag
stays clear (its nibble buffers `hold` and `rd` are not spoken of); an instruction that writes no data byte and does
not clear leaves every byte of both memories as it was. That an LCD instruction byte of R98's table, too, is a run of
its own from `READY` back to `READY` is the model's choice (DESIGN CHOICE, notes/assumptions/9); that a cursor-shift
byte leaves the address counter as it is, too (DESIGN CHOICE, notes/assumptions/10). -/
def Obligations.ResponderExecutesTheBytesWritten : Prop :=
  ∀ (i : Instr) (s : State) (l : Lcd) (bytes : List (Bool × Byte)), i.wellFormed = true → s.seq = .ready →
    s.ops = [] → s.inStep l → l.bf = false → writtenBytes s l.ac i = some bytes →
    ∃ t l', exec i s = .next t ∧ t.seq = .ready ∧ t.inStep l' ∧ l'.bf = false ∧
      sameLcd (l.executeAll bytes) l' ∧
      ((∀ b ∈ bytes, b.1 = false ∧ b.2 ≠ 0x01) → l'.dd = l.dd ∧ l'.cg = l.cg)

/-- R176, R177: WRITE_DDRAM then READ_DDRAM of the same address returns the byte written, leaves the address
counter as it was, and changes no other byte of either memory. -/
def Obligations.DdramRoundTrip : Prop :=
  ∀ (a v : Byte) (s : State) (l : Lcd), a < 0x80 → s.seq = .ready → s.inStep l → l.bf = false →
    l.dd.wf ddramSize = true →
    ∃ t1 t2 l2, exec (.writeDdram a v) s = .next t1 ∧ exec (.readDdram a) t1 = .next t2 ∧
      t2.responses = s.responses ++ [.unit, .byte v] ∧ t2.seq = .ready ∧ t2.inStep l2 ∧ l2.ac = l.ac ∧
      l2.space = .ddram ∧ l2.dd.read a.toNat = v ∧ (∀ b, b ≠ a.toNat → l2.dd.read b = l.dd.read b) ∧ l2.cg = l.cg

/-- R178, R179: the same for CGRAM addresses 0x00 to 0x3F. -/
def Obligations.CgramRoundTrip : Prop :=
  ∀ (a v : Byte) (s : State) (l : Lcd), a < 0x40 → s.seq = .ready → s.inStep l → l.bf = false →
    l.cg.wf cgramSize = true →
    ∃ t1 t2 l2, exec (.writeCgram a v) s = .next t1 ∧ exec (.readCgram a) t1 = .next t2 ∧
      t2.responses = s.responses ++ [.unit, .byte v] ∧ t2.seq = .ready ∧ t2.inStep l2 ∧ l2.ac = l.ac ∧
      l2.space = .ddram ∧ l2.cg.read a.toNat = v ∧ (∀ b, b ≠ a.toNat → l2.cg.read b = l.cg.read b) ∧ l2.dd = l.dd

/-- R55, R180, R181, R294: while the LCD controller increments, a glyph lands at base+0 .. base+7 (5x8) or base+10
(5x10), every other byte of CGRAM and all of DDRAM stay, and the address counter is restored, in DDRAM space. -/
def Obligations.GlyphStoresItsRows : Prop :=
  ∀ (i : Instr) (base : Nat) (d : List Byte),
    ((∃ slot, i = .writeGlyph5x8 slot d ∧ d.length = 8 ∧ base = 8 * (slot.toNat % 8)) ∨
      (∃ slot, i = .writeGlyph5x10 slot d ∧ d.length = 11 ∧ base = 16 * (slot.toNat % 8 / 2))) →
    ∀ (s : State) (l : Lcd), s.seq = .ready → s.inStep l → l.bf = false → l.inc = true →
      l.cg.wf cgramSize = true →
      ∃ t l', exec i s = .next t ∧ t.seq = .ready ∧ t.inStep l' ∧ l'.ac = l.ac ∧ l'.space = .ddram ∧
        (∀ k, (h : k < d.length) → l'.cg.read (base + k) = d[k]) ∧
        (∀ a, a < base ∨ base + d.length ≤ a → l'.cg.read a = l.cg.read a) ∧ l'.dd = l.dd
end

