-- ==== Sys2Proof/Laws/Bits.lean ====
section
/-!
SUPPORT. Small facts about the bits of frames, nibbles, status bytes and masks.
-/

namespace Sys2Proof.Machine

open Sys2Proof

@[simp] theorem writeFrame_e (bl : Bool) (n : Byte) (rs e : Bool) : (writeFrame bl n rs e)[2] = e := by
  revert bl rs e n; decide

@[simp] theorem writeFrame_rw (bl : Bool) (n : Byte) (rs e : Bool) : (writeFrame bl n rs e)[1] = false := by
  revert bl rs e n; decide

@[simp] theorem writeFrame_rs (bl : Bool) (n : Byte) (rs e : Bool) : (writeFrame bl n rs e)[0] = rs := by
  revert bl rs e n; decide

@[simp] theorem writeFrame_bl (bl : Bool) (n : Byte) (rs e : Bool) : (writeFrame bl n rs e)[3] = bl := by
  revert bl rs e n; decide

@[simp] theorem writeFrame_data (bl : Bool) (n : Byte) (rs e : Bool) :
    (writeFrame bl n rs e).extractLsb' 4 4 = n.extractLsb' 4 4 := by
  revert bl rs e n; decide

/-- Bits 3:0 of the nibble operand are ignored (R112). -/
theorem writeFrame_mask (bl : Bool) (n : Byte) (rs e : Bool) :
    writeFrame bl (n &&& 0xF0) rs e = writeFrame bl n rs e := by
  revert bl rs e n; decide

@[simp] theorem readFrame_e (bl rs e : Bool) : (readFrame bl rs e)[2] = e := by
  revert bl rs e; decide

@[simp] theorem readFrame_rw (bl rs e : Bool) : (readFrame bl rs e)[1] = true := by
  revert bl rs e; decide

@[simp] theorem readFrame_rs (bl rs e : Bool) : (readFrame bl rs e)[0] = rs := by
  revert bl rs e; decide

@[simp] theorem readFrame_bl (bl rs e : Bool) : (readFrame bl rs e)[3] = bl := by
  revert bl rs e; decide

@[simp] theorem readFrame_data (bl rs e : Bool) : (readFrame bl rs e).extractLsb' 4 4 = 0xF := by
  revert bl rs e; decide

@[simp] theorem highNibble_data (v : Byte) : (highNibble v).extractLsb' 4 4 = v.extractLsb' 4 4 := by
  revert v; decide

@[simp] theorem lowNibble_data (v : Byte) : (lowNibble v).extractLsb' 4 4 = v.extractLsb' 0 4 := by
  revert v; decide

/-- The two nibbles of a byte make the byte (R57). -/
theorem nibbles_append (v : Byte) : v.extractLsb' 4 4 ++ v.extractLsb' 0 4 = v := by
  revert v; decide

/-- A byte read in two samples is the two upper halves (R115). -/
theorem joinSamples_eq (a b : Byte) : joinSamples a b = a.extractLsb' 4 4 ++ b.extractLsb' 4 4 := by
  unfold joinSamples
  apply BitVec.eq_of_getLsbD_eq
  intro i hi
  rw [BitVec.getLsbD_append]
  interval_cases i <;> simp

theorem joinSamples_append (h l p q : Nibble) : joinSamples (h ++ p) (l ++ q) = h ++ l := by
  rw [joinSamples_eq]
  congr 1
  · revert h p; decide
  · revert l q; decide

/-- A status byte with the busy flag clear is its address counter. -/
theorem busyFlag_append (bf : Bool) (ac : Addr7) : busyFlag (BitVec.ofBool bf ++ ac) = bf := by
  revert bf ac; decide

theorem statusAddress_append (bf : Bool) (ac : Addr7) :
    statusAddress (BitVec.ofBool bf ++ ac) = (0#1 ++ ac : BitVec 8) := by
  revert bf ac; decide

/-- The first sample carries the busy flag (R115, R118). -/
theorem busyFlag_joinSamples (a b : Byte) : busyFlag (joinSamples a b) = a.getLsbD 7 := by
  simp [busyFlag, joinSamples]

theorem ofNat_and_busy (v : Byte) : ((v &&& 0x80) != 0) = busyFlag v := by
  revert v; decide

/-- The table has no entry above 3 (R31). -/
theorem lineOffset_above {y : Byte} (h : 3 < y) (sizeX : Byte) : lineOffset sizeX y = none := by
  have h0 : y ≠ 0 := by rintro rfl; revert h; decide
  have h1 : y ≠ 1 := by rintro rfl; revert h; decide
  have h2 : y ≠ 2 := by rintro rfl; revert h; decide
  have h3 : y ≠ 3 := by rintro rfl; revert h; decide
  unfold lineOffset
  rw [if_neg h0, if_neg h1, if_neg h2, if_neg h3]

end Sys2Proof.Machine
end

