-- ==== Sys2Proof/Laws/State.lean ====
section
/-!
SUPPORT. One lemma for each field of each update of State (its first group: the field is unchanged), so
that no later proof unfolds a record update.
-/

namespace Sys2Proof.Machine

open Sys2Proof

/-! ## `record` -/

@[simp] theorem record_cfg (s : State) (e : Event) : (s.record e).cfg = s.cfg := rfl
@[simp] theorem record_em (s : State) (e : Event) : (s.record e).em = s.em := rfl
@[simp] theorem record_dc (s : State) (e : Event) : (s.record e).dc = s.dc := rfl
@[simp] theorem record_sh (s : State) (e : Event) : (s.record e).sh = s.sh := rfl
@[simp] theorem record_fs (s : State) (e : Event) : (s.record e).fs = s.fs := rfl
@[simp] theorem record_bl (s : State) (e : Event) : (s.record e).bl = s.bl := rfl
@[simp] theorem record_seq (s : State) (e : Event) : (s.record e).seq = s.seq := rfl
@[simp] theorem record_ops (s : State) (e : Event) : (s.record e).ops = s.ops := rfl
@[simp] theorem record_saved (s : State) (e : Event) : (s.record e).saved = s.saved := rfl
@[simp] theorem record_value (s : State) (e : Event) : (s.record e).value = s.value := rfl
@[simp] theorem record_latch (s : State) (e : Event) : (s.record e).latch = s.latch := rfl
@[simp] theorem record_lcd (s : State) (e : Event) : (s.record e).lcd = s.lcd := rfl
@[simp] theorem record_cmdPort (s : State) (e : Event) : (s.record e).cmdPort = s.cmdPort := rfl
@[simp] theorem record_responses (s : State) (e : Event) : (s.record e).responses = s.responses := rfl
@[simp] theorem record_trace (s : State) (e : Event) :
    (s.record e).trace = s.trace ++ [e] := rfl
@[simp] theorem record_replies (s : State) (e : Event) : (s.record e).replies = s.replies := rfl
@[simp] theorem record_resetIn (s : State) (e : Event) : (s.record e).resetIn = s.resetIn := rfl
@[simp] theorem record_now (s : State) (e : Event) :
    (s.record e).now = s.now + Config.freeBusTime s.ticks := rfl
@[simp] theorem record_ticks (s : State) (e : Event) :
    (s.record e).ticks = s.ticks + 1 := rfl

/-! ## `respond` -/

@[simp] theorem respond_cfg (s : State) (r : Response) : (s.respond r).cfg = s.cfg := rfl
@[simp] theorem respond_em (s : State) (r : Response) : (s.respond r).em = s.em := rfl
@[simp] theorem respond_dc (s : State) (r : Response) : (s.respond r).dc = s.dc := rfl
@[simp] theorem respond_sh (s : State) (r : Response) : (s.respond r).sh = s.sh := rfl
@[simp] theorem respond_fs (s : State) (r : Response) : (s.respond r).fs = s.fs := rfl
@[simp] theorem respond_bl (s : State) (r : Response) : (s.respond r).bl = s.bl := rfl
@[simp] theorem respond_seq (s : State) (r : Response) : (s.respond r).seq = s.seq := rfl
@[simp] theorem respond_ops (s : State) (r : Response) : (s.respond r).ops = s.ops := rfl
@[simp] theorem respond_saved (s : State) (r : Response) : (s.respond r).saved = s.saved := rfl
@[simp] theorem respond_value (s : State) (r : Response) : (s.respond r).value = s.value := rfl
@[simp] theorem respond_latch (s : State) (r : Response) : (s.respond r).latch = s.latch := rfl
@[simp] theorem respond_lcd (s : State) (r : Response) : (s.respond r).lcd = s.lcd := rfl
@[simp] theorem respond_cmdPort (s : State) (r : Response) : (s.respond r).cmdPort = s.cmdPort := rfl
@[simp] theorem respond_responses (s : State) (r : Response) :
    (s.respond r).responses = s.responses ++ [r] := rfl
@[simp] theorem respond_trace (s : State) (r : Response) : (s.respond r).trace = s.trace := rfl
@[simp] theorem respond_replies (s : State) (r : Response) : (s.respond r).replies = s.replies := rfl
@[simp] theorem respond_resetIn (s : State) (r : Response) : (s.respond r).resetIn = s.resetIn := rfl
@[simp] theorem respond_now (s : State) (r : Response) : (s.respond r).now = s.now := rfl
@[simp] theorem respond_ticks (s : State) (r : Response) : (s.respond r).ticks = s.ticks := rfl

/-! ## `accept` -/

@[simp] theorem accept_cfg (s : State) : (s.accept).cfg = s.cfg := rfl
@[simp] theorem accept_em (s : State) : (s.accept).em = s.em := rfl
@[simp] theorem accept_dc (s : State) : (s.accept).dc = s.dc := rfl
@[simp] theorem accept_sh (s : State) : (s.accept).sh = s.sh := rfl
@[simp] theorem accept_fs (s : State) : (s.accept).fs = s.fs := rfl
@[simp] theorem accept_bl (s : State) : (s.accept).bl = s.bl := rfl
@[simp] theorem accept_seq (s : State) :
    (s.accept).seq = .exec := rfl
@[simp] theorem accept_ops (s : State) :
    (s.accept).ops = [] := rfl
@[simp] theorem accept_saved (s : State) :
    (s.accept).saved = 0 := rfl
@[simp] theorem accept_value (s : State) :
    (s.accept).value = 0 := rfl
@[simp] theorem accept_latch (s : State) : (s.accept).latch = s.latch := rfl
@[simp] theorem accept_lcd (s : State) : (s.accept).lcd = s.lcd := rfl
@[simp] theorem accept_cmdPort (s : State) : (s.accept).cmdPort = s.cmdPort := rfl
@[simp] theorem accept_responses (s : State) : (s.accept).responses = s.responses := rfl
@[simp] theorem accept_trace (s : State) : (s.accept).trace = s.trace := rfl
@[simp] theorem accept_replies (s : State) : (s.accept).replies = s.replies := rfl
@[simp] theorem accept_resetIn (s : State) : (s.accept).resetIn = s.resetIn := rfl
@[simp] theorem accept_now (s : State) : (s.accept).now = s.now := rfl
@[simp] theorem accept_ticks (s : State) : (s.accept).ticks = s.ticks := rfl

/-! ## `finish` -/

@[simp] theorem finish_cfg (s : State) : (s.finish).cfg = s.cfg := rfl
@[simp] theorem finish_em (s : State) : (s.finish).em = s.em := rfl
@[simp] theorem finish_dc (s : State) : (s.finish).dc = s.dc := rfl
@[simp] theorem finish_sh (s : State) : (s.finish).sh = s.sh := rfl
@[simp] theorem finish_fs (s : State) : (s.finish).fs = s.fs := rfl
@[simp] theorem finish_bl (s : State) : (s.finish).bl = s.bl := rfl
@[simp] theorem finish_seq (s : State) :
    (s.finish).seq = nextSeq s.cfg.family s.seq := rfl
@[simp] theorem finish_ops (s : State) :
    (s.finish).ops = [] := rfl
@[simp] theorem finish_saved (s : State) :
    (s.finish).saved = 0 := rfl
@[simp] theorem finish_value (s : State) :
    (s.finish).value = 0 := rfl
@[simp] theorem finish_latch (s : State) : (s.finish).latch = s.latch := rfl
@[simp] theorem finish_lcd (s : State) : (s.finish).lcd = s.lcd := rfl
@[simp] theorem finish_cmdPort (s : State) : (s.finish).cmdPort = s.cmdPort := rfl
@[simp] theorem finish_responses (s : State) : (s.finish).responses = s.responses := rfl
@[simp] theorem finish_trace (s : State) : (s.finish).trace = s.trace := rfl
@[simp] theorem finish_replies (s : State) : (s.finish).replies = s.replies := rfl
@[simp] theorem finish_resetIn (s : State) : (s.finish).resetIn = s.resetIn := rfl
@[simp] theorem finish_now (s : State) : (s.finish).now = s.now := rfl
@[simp] theorem finish_ticks (s : State) : (s.finish).ticks = s.ticks := rfl

/-! ## `busWrite` -/

@[simp] theorem busWrite_cfg (b : Byte) (s : State) : (busWrite b s).cfg = s.cfg := rfl
@[simp] theorem busWrite_em (b : Byte) (s : State) : (busWrite b s).em = s.em := rfl
@[simp] theorem busWrite_dc (b : Byte) (s : State) : (busWrite b s).dc = s.dc := rfl
@[simp] theorem busWrite_sh (b : Byte) (s : State) : (busWrite b s).sh = s.sh := rfl
@[simp] theorem busWrite_fs (b : Byte) (s : State) : (busWrite b s).fs = s.fs := rfl
@[simp] theorem busWrite_bl (b : Byte) (s : State) : (busWrite b s).bl = s.bl := rfl
@[simp] theorem busWrite_seq (b : Byte) (s : State) : (busWrite b s).seq = s.seq := rfl
@[simp] theorem busWrite_ops (b : Byte) (s : State) : (busWrite b s).ops = s.ops := rfl
@[simp] theorem busWrite_saved (b : Byte) (s : State) : (busWrite b s).saved = s.saved := rfl
@[simp] theorem busWrite_value (b : Byte) (s : State) : (busWrite b s).value = s.value := rfl
@[simp] theorem busWrite_latch (b : Byte) (s : State) :
    (busWrite b s).latch = b := rfl
@[simp] theorem busWrite_lcd (b : Byte) (s : State) :
    (busWrite b s).lcd = s.lcd.map fun l => l.onBusWrite s.latch b := rfl
@[simp] theorem busWrite_cmdPort (b : Byte) (s : State) : (busWrite b s).cmdPort = s.cmdPort := rfl
@[simp] theorem busWrite_responses (b : Byte) (s : State) : (busWrite b s).responses = s.responses := rfl
@[simp] theorem busWrite_trace (b : Byte) (s : State) :
    (busWrite b s).trace = s.trace ++ [.write s.cfg.addr b] := rfl
@[simp] theorem busWrite_replies (b : Byte) (s : State) : (busWrite b s).replies = s.replies := rfl
@[simp] theorem busWrite_resetIn (b : Byte) (s : State) : (busWrite b s).resetIn = s.resetIn := rfl
@[simp] theorem busWrite_now (b : Byte) (s : State) :
    (busWrite b s).now = s.now + Config.freeBusTime s.ticks := rfl
@[simp] theorem busWrite_ticks (b : Byte) (s : State) :
    (busWrite b s).ticks = s.ticks + 1 := rfl

/-! ## `busRead1` -/

@[simp] theorem busRead1_cfg (s : State) : ((busRead1 s).2).cfg = s.cfg := rfl
@[simp] theorem busRead1_em (s : State) : ((busRead1 s).2).em = s.em := rfl
@[simp] theorem busRead1_dc (s : State) : ((busRead1 s).2).dc = s.dc := rfl
@[simp] theorem busRead1_sh (s : State) : ((busRead1 s).2).sh = s.sh := rfl
@[simp] theorem busRead1_fs (s : State) : ((busRead1 s).2).fs = s.fs := rfl
@[simp] theorem busRead1_bl (s : State) : ((busRead1 s).2).bl = s.bl := rfl
@[simp] theorem busRead1_seq (s : State) : ((busRead1 s).2).seq = s.seq := rfl
@[simp] theorem busRead1_ops (s : State) : ((busRead1 s).2).ops = s.ops := rfl
@[simp] theorem busRead1_saved (s : State) : ((busRead1 s).2).saved = s.saved := rfl
@[simp] theorem busRead1_value (s : State) : ((busRead1 s).2).value = s.value := rfl
@[simp] theorem busRead1_latch (s : State) : ((busRead1 s).2).latch = s.latch := rfl
@[simp] theorem busRead1_lcd (s : State) : ((busRead1 s).2).lcd = s.lcd := rfl
@[simp] theorem busRead1_cmdPort (s : State) : ((busRead1 s).2).cmdPort = s.cmdPort := rfl
@[simp] theorem busRead1_responses (s : State) : ((busRead1 s).2).responses = s.responses := rfl
@[simp] theorem busRead1_trace (s : State) :
    ((busRead1 s).2).trace = s.trace ++ [.read s.cfg.addr (busRead1 s).1] := rfl
@[simp] theorem busRead1_replies (s : State) :
    ((busRead1 s).2).replies = s.replies.tail := rfl
@[simp] theorem busRead1_resetIn (s : State) : ((busRead1 s).2).resetIn = s.resetIn := rfl
@[simp] theorem busRead1_now (s : State) :
    ((busRead1 s).2).now = s.now + Config.freeBusTime s.ticks := rfl
@[simp] theorem busRead1_ticks (s : State) :
    ((busRead1 s).2).ticks = s.ticks + 1 := rfl

/-! ## `nibbleWrite` -/

@[simp] theorem nibbleWrite_cfg (rs : Bool) (n : Byte) (s : State) : (nibbleWrite rs n s).cfg = s.cfg := by simp [nibbleWrite]
@[simp] theorem nibbleWrite_em (rs : Bool) (n : Byte) (s : State) : (nibbleWrite rs n s).em = s.em := by simp [nibbleWrite]
@[simp] theorem nibbleWrite_dc (rs : Bool) (n : Byte) (s : State) : (nibbleWrite rs n s).dc = s.dc := by simp [nibbleWrite]
@[simp] theorem nibbleWrite_sh (rs : Bool) (n : Byte) (s : State) : (nibbleWrite rs n s).sh = s.sh := by simp [nibbleWrite]
@[simp] theorem nibbleWrite_fs (rs : Bool) (n : Byte) (s : State) : (nibbleWrite rs n s).fs = s.fs := by simp [nibbleWrite]
@[simp] theorem nibbleWrite_bl (rs : Bool) (n : Byte) (s : State) : (nibbleWrite rs n s).bl = s.bl := by simp [nibbleWrite]
@[simp] theorem nibbleWrite_seq (rs : Bool) (n : Byte) (s : State) : (nibbleWrite rs n s).seq = s.seq := by simp [nibbleWrite]
@[simp] theorem nibbleWrite_ops (rs : Bool) (n : Byte) (s : State) : (nibbleWrite rs n s).ops = s.ops := by simp [nibbleWrite]
@[simp] theorem nibbleWrite_saved (rs : Bool) (n : Byte) (s : State) : (nibbleWrite rs n s).saved = s.saved := by simp [nibbleWrite]
@[simp] theorem nibbleWrite_value (rs : Bool) (n : Byte) (s : State) : (nibbleWrite rs n s).value = s.value := by simp [nibbleWrite]
@[simp] theorem nibbleWrite_latch (rs : Bool) (n : Byte) (s : State) :
    (nibbleWrite rs n s).latch = writeFrame s.bl n rs false := by simp [nibbleWrite]
@[simp] theorem nibbleWrite_cmdPort (rs : Bool) (n : Byte) (s : State) : (nibbleWrite rs n s).cmdPort = s.cmdPort := by simp [nibbleWrite]
@[simp] theorem nibbleWrite_responses (rs : Bool) (n : Byte) (s : State) : (nibbleWrite rs n s).responses = s.responses := by simp [nibbleWrite]
@[simp] theorem nibbleWrite_replies (rs : Bool) (n : Byte) (s : State) : (nibbleWrite rs n s).replies = s.replies := by simp [nibbleWrite]
@[simp] theorem nibbleWrite_resetIn (rs : Bool) (n : Byte) (s : State) : (nibbleWrite rs n s).resetIn = s.resetIn := by simp [nibbleWrite]
@[simp] theorem nibbleWrite_ticks (rs : Bool) (n : Byte) (s : State) :
    (nibbleWrite rs n s).ticks = s.ticks + 3 := by simp [nibbleWrite]

/-! ## `sampleNibble` -/

@[simp] theorem sampleNibble_cfg (rs : Bool) (s : State) : ((sampleNibble rs s).2).cfg = s.cfg := by simp [sampleNibble]
@[simp] theorem sampleNibble_em (rs : Bool) (s : State) : ((sampleNibble rs s).2).em = s.em := by simp [sampleNibble]
@[simp] theorem sampleNibble_dc (rs : Bool) (s : State) : ((sampleNibble rs s).2).dc = s.dc := by simp [sampleNibble]
@[simp] theorem sampleNibble_sh (rs : Bool) (s : State) : ((sampleNibble rs s).2).sh = s.sh := by simp [sampleNibble]
@[simp] theorem sampleNibble_fs (rs : Bool) (s : State) : ((sampleNibble rs s).2).fs = s.fs := by simp [sampleNibble]
@[simp] theorem sampleNibble_bl (rs : Bool) (s : State) : ((sampleNibble rs s).2).bl = s.bl := by simp [sampleNibble]
@[simp] theorem sampleNibble_seq (rs : Bool) (s : State) : ((sampleNibble rs s).2).seq = s.seq := by simp [sampleNibble]
@[simp] theorem sampleNibble_ops (rs : Bool) (s : State) : ((sampleNibble rs s).2).ops = s.ops := by simp [sampleNibble]
@[simp] theorem sampleNibble_saved (rs : Bool) (s : State) : ((sampleNibble rs s).2).saved = s.saved := by simp [sampleNibble]
@[simp] theorem sampleNibble_value (rs : Bool) (s : State) : ((sampleNibble rs s).2).value = s.value := by simp [sampleNibble]
@[simp] theorem sampleNibble_latch (rs : Bool) (s : State) :
    ((sampleNibble rs s).2).latch = readFrame s.bl rs true := by simp [sampleNibble]
@[simp] theorem sampleNibble_cmdPort (rs : Bool) (s : State) : ((sampleNibble rs s).2).cmdPort = s.cmdPort := by simp [sampleNibble]
@[simp] theorem sampleNibble_responses (rs : Bool) (s : State) : ((sampleNibble rs s).2).responses = s.responses := by simp [sampleNibble]
@[simp] theorem sampleNibble_replies (rs : Bool) (s : State) :
    ((sampleNibble rs s).2).replies = s.replies.tail := by simp [sampleNibble]
@[simp] theorem sampleNibble_resetIn (rs : Bool) (s : State) : ((sampleNibble rs s).2).resetIn = s.resetIn := by simp [sampleNibble]
@[simp] theorem sampleNibble_ticks (rs : Bool) (s : State) :
    ((sampleNibble rs s).2).ticks = s.ticks + 3 := by simp [sampleNibble]

/-! ## `byteWrite` -/

@[simp] theorem byteWrite_cfg (rs : Bool) (v : Byte) (s : State) : (byteWrite rs v s).cfg = s.cfg := by simp [byteWrite]
@[simp] theorem byteWrite_em (rs : Bool) (v : Byte) (s : State) : (byteWrite rs v s).em = s.em := by simp [byteWrite]
@[simp] theorem byteWrite_dc (rs : Bool) (v : Byte) (s : State) : (byteWrite rs v s).dc = s.dc := by simp [byteWrite]
@[simp] theorem byteWrite_sh (rs : Bool) (v : Byte) (s : State) : (byteWrite rs v s).sh = s.sh := by simp [byteWrite]
@[simp] theorem byteWrite_fs (rs : Bool) (v : Byte) (s : State) : (byteWrite rs v s).fs = s.fs := by simp [byteWrite]
@[simp] theorem byteWrite_bl (rs : Bool) (v : Byte) (s : State) : (byteWrite rs v s).bl = s.bl := by simp [byteWrite]
@[simp] theorem byteWrite_seq (rs : Bool) (v : Byte) (s : State) : (byteWrite rs v s).seq = s.seq := by simp [byteWrite]
@[simp] theorem byteWrite_ops (rs : Bool) (v : Byte) (s : State) : (byteWrite rs v s).ops = s.ops := by simp [byteWrite]
@[simp] theorem byteWrite_saved (rs : Bool) (v : Byte) (s : State) : (byteWrite rs v s).saved = s.saved := by simp [byteWrite]
@[simp] theorem byteWrite_value (rs : Bool) (v : Byte) (s : State) : (byteWrite rs v s).value = s.value := by simp [byteWrite]
@[simp] theorem byteWrite_latch (rs : Bool) (v : Byte) (s : State) :
    (byteWrite rs v s).latch = writeFrame s.bl (lowNibble v) rs false := by simp [byteWrite]
@[simp] theorem byteWrite_cmdPort (rs : Bool) (v : Byte) (s : State) : (byteWrite rs v s).cmdPort = s.cmdPort := by simp [byteWrite]
@[simp] theorem byteWrite_responses (rs : Bool) (v : Byte) (s : State) : (byteWrite rs v s).responses = s.responses := by simp [byteWrite]
@[simp] theorem byteWrite_replies (rs : Bool) (v : Byte) (s : State) : (byteWrite rs v s).replies = s.replies := by simp [byteWrite]
@[simp] theorem byteWrite_resetIn (rs : Bool) (v : Byte) (s : State) : (byteWrite rs v s).resetIn = s.resetIn := by simp [byteWrite]
@[simp] theorem byteWrite_ticks (rs : Bool) (v : Byte) (s : State) :
    (byteWrite rs v s).ticks = s.ticks + 6 := by simp [byteWrite]

/-! ## `waitAtLeast` -/

@[simp] theorem waitAtLeast_cfg (d : Nat) (s : State) : (waitAtLeast d s).cfg = s.cfg := rfl
@[simp] theorem waitAtLeast_em (d : Nat) (s : State) : (waitAtLeast d s).em = s.em := rfl
@[simp] theorem waitAtLeast_dc (d : Nat) (s : State) : (waitAtLeast d s).dc = s.dc := rfl
@[simp] theorem waitAtLeast_sh (d : Nat) (s : State) : (waitAtLeast d s).sh = s.sh := rfl
@[simp] theorem waitAtLeast_fs (d : Nat) (s : State) : (waitAtLeast d s).fs = s.fs := rfl
@[simp] theorem waitAtLeast_bl (d : Nat) (s : State) : (waitAtLeast d s).bl = s.bl := rfl
@[simp] theorem waitAtLeast_seq (d : Nat) (s : State) : (waitAtLeast d s).seq = s.seq := rfl
@[simp] theorem waitAtLeast_ops (d : Nat) (s : State) : (waitAtLeast d s).ops = s.ops := rfl
@[simp] theorem waitAtLeast_saved (d : Nat) (s : State) : (waitAtLeast d s).saved = s.saved := rfl
@[simp] theorem waitAtLeast_value (d : Nat) (s : State) : (waitAtLeast d s).value = s.value := rfl
@[simp] theorem waitAtLeast_latch (d : Nat) (s : State) : (waitAtLeast d s).latch = s.latch := rfl
@[simp] theorem waitAtLeast_lcd (d : Nat) (s : State) : (waitAtLeast d s).lcd = s.lcd := rfl
@[simp] theorem waitAtLeast_cmdPort (d : Nat) (s : State) : (waitAtLeast d s).cmdPort = s.cmdPort := rfl
@[simp] theorem waitAtLeast_responses (d : Nat) (s : State) : (waitAtLeast d s).responses = s.responses := rfl
@[simp] theorem waitAtLeast_trace (d : Nat) (s : State) :
    (waitAtLeast d s).trace = s.trace ++ [.wait d] := rfl
@[simp] theorem waitAtLeast_replies (d : Nat) (s : State) : (waitAtLeast d s).replies = s.replies := rfl
@[simp] theorem waitAtLeast_resetIn (d : Nat) (s : State) : (waitAtLeast d s).resetIn = s.resetIn := rfl
@[simp] theorem waitAtLeast_ticks (d : Nat) (s : State) :
    (waitAtLeast d s).ticks = s.ticks + 1 := rfl

/-! ## `resetWith` -/

@[simp] theorem resetWith_cfg (p : Params) (s : State) :
    (s.resetWith p).cfg = p := rfl
@[simp] theorem resetWith_em (p : Params) (s : State) :
    (s.resetWith p).em = 0x06 := rfl
@[simp] theorem resetWith_dc (p : Params) (s : State) :
    (s.resetWith p).dc = 0x0C := rfl
@[simp] theorem resetWith_sh (p : Params) (s : State) :
    (s.resetWith p).sh = 0x10 := rfl
@[simp] theorem resetWith_fs (p : Params) (s : State) :
    (s.resetWith p).fs = 0x28 := rfl
@[simp] theorem resetWith_bl (p : Params) (s : State) :
    (s.resetWith p).bl = p.blReset := rfl
@[simp] theorem resetWith_seq (p : Params) (s : State) :
    (s.resetWith p).seq = .init 1 := rfl
@[simp] theorem resetWith_ops (p : Params) (s : State) :
    (s.resetWith p).ops = [] := rfl
@[simp] theorem resetWith_saved (p : Params) (s : State) :
    (s.resetWith p).saved = 0 := rfl
@[simp] theorem resetWith_value (p : Params) (s : State) :
    (s.resetWith p).value = 0 := rfl
@[simp] theorem resetWith_latch (p : Params) (s : State) : (s.resetWith p).latch = s.latch := rfl
@[simp] theorem resetWith_lcd (p : Params) (s : State) : (s.resetWith p).lcd = s.lcd := rfl
@[simp] theorem resetWith_cmdPort (p : Params) (s : State) : (s.resetWith p).cmdPort = s.cmdPort := rfl
@[simp] theorem resetWith_responses (p : Params) (s : State) : (s.resetWith p).responses = s.responses := rfl
@[simp] theorem resetWith_trace (p : Params) (s : State) : (s.resetWith p).trace = s.trace := rfl
@[simp] theorem resetWith_replies (p : Params) (s : State) : (s.resetWith p).replies = s.replies := rfl
@[simp] theorem resetWith_resetIn (p : Params) (s : State) :
    (s.resetWith p).resetIn = none := rfl
@[simp] theorem resetWith_now (p : Params) (s : State) : (s.resetWith p).now = s.now := rfl
@[simp] theorem resetWith_ticks (p : Params) (s : State) : (s.resetWith p).ticks = s.ticks := rfl

end Sys2Proof.Machine
end

