-- ==== Sys2Proof/Laws/Codec.lean ====
section
/-!
SUPPORT. What the codec's operations do, once: their traces, the three ways a register read can go, the
fields it leaves alone, and that its result depends on the answers only.
-/

namespace Sys2Proof.Machine

open Sys2Proof

/-! ## Traces of writes -/

@[simp] theorem sentBytes_append (a b : List Event) : sentBytes (a ++ b) = sentBytes a ++ sentBytes b := by
  simp [sentBytes]

@[simp] theorem sentBytes_writeEvents (addr : Addr7) (bs : List Byte) : sentBytes (writeEvents addr bs) = bs := by
  induction bs with
  | nil => rfl
  | cons b bs ih => exact congrArg (b :: ·) ih

@[simp] theorem sentBytes_readEvents (addr : Addr7) (bl rs : Bool) (v1 v2 : Byte) :
    sentBytes (readEvents addr bl rs v1 v2) = readFrames bl rs := rfl

@[simp] theorem readCount_append (a b : List Event) : readCount (a ++ b) = readCount a + readCount b := by
  simp [readCount]

@[simp] theorem readCount_writeEvents (addr : Addr7) (bs : List Byte) : readCount (writeEvents addr bs) = 0 := by
  simp [readCount, writeEvents, Event.isRead]

@[simp] theorem readCount_readEvents (addr : Addr7) (bl rs : Bool) (v1 v2 : Byte) :
    readCount (readEvents addr bl rs v1 v2) = 2 := rfl

@[simp] theorem nibbleWrite_trace (rs : Bool) (n : Byte) (s : State) :
    (nibbleWrite rs n s).trace = s.trace ++ writeEvents s.cfg.addr (nibbleFrames s.bl rs n) := by
  simp [nibbleWrite, writeEvents, nibbleFrames]

@[simp] theorem byteWrite_trace (rs : Bool) (v : Byte) (s : State) :
    (byteWrite rs v s).trace = s.trace ++ writeEvents s.cfg.addr (byteFrames s.bl rs v) := by
  simp [byteWrite, writeEvents, byteFrames]

/-! ## Samples -/

@[simp] theorem sampleNibble_fst (rs : Bool) (s : State) :
    (sampleNibble rs s).1
      = replyAnswer (nextReply (busWrite (readFrame s.bl rs true) (busWrite (readFrame s.bl rs false) s))) := by
  simp [sampleNibble, busRead1]

theorem sampleNibble_trace (rs : Bool) (s : State) :
    (sampleNibble rs s).2.trace
      = s.trace ++ [.write s.cfg.addr (readFrame s.bl rs false), .write s.cfg.addr (readFrame s.bl rs true),
          .read s.cfg.addr (sampleNibble rs s).1] := by
  simp [sampleNibble, busRead1]

/-! ## A register read -/

/-- The three ways a register read can go (R114, R116). -/
theorem regRead_cases (rs : Bool) (s : State) :
    ((sampleNibble rs s).1 = .short ∧ regRead rs s = (0x00, (sampleNibble rs s).2)) ∨
    (∃ v1, (sampleNibble rs s).1 = .byte v1 ∧ (sampleNibble rs (sampleNibble rs s).2).1 = .short ∧
      regRead rs s = (0x00, (sampleNibble rs (sampleNibble rs s).2).2)) ∨
    (∃ v1 v2, (sampleNibble rs s).1 = .byte v1 ∧ (sampleNibble rs (sampleNibble rs s).2).1 = .byte v2 ∧
      regRead rs s = (joinSamples v1 v2,
        busWrite (readFrame s.bl rs false) (sampleNibble rs (sampleNibble rs s).2).2)) := by
  unfold regRead
  rcases h1 : sampleNibble rs s with ⟨a1, s1⟩
  cases a1 with
  | short => exact .inl ⟨rfl, rfl⟩
  | byte v1 =>
    rcases h2 : sampleNibble rs s1 with ⟨a2, s2⟩
    have b1 : s1.bl = s.bl := by simpa [h1] using sampleNibble_bl rs s
    have b2 : s2.bl = s1.bl := by simpa [h2] using sampleNibble_bl rs s1
    cases a2 with
    | short => exact .inr (.inl ⟨v1, rfl, rfl, by simp [h2]⟩)
    | byte v2 => exact .inr (.inr ⟨v1, v2, rfl, rfl, by simp [h2, b1, b2]⟩)

@[simp] theorem regRead_cfg (rs : Bool) (s : State) : (regRead rs s).2.cfg = s.cfg := by
  rcases regRead_cases rs s with ⟨-, h⟩ | ⟨_, -, -, h⟩ | ⟨_, _, -, -, h⟩ <;> simp [h]

@[simp] theorem regRead_em (rs : Bool) (s : State) : (regRead rs s).2.em = s.em := by
  rcases regRead_cases rs s with ⟨-, h⟩ | ⟨_, -, -, h⟩ | ⟨_, _, -, -, h⟩ <;> simp [h]

@[simp] theorem regRead_dc (rs : Bool) (s : State) : (regRead rs s).2.dc = s.dc := by
  rcases regRead_cases rs s with ⟨-, h⟩ | ⟨_, -, -, h⟩ | ⟨_, _, -, -, h⟩ <;> simp [h]

@[simp] theorem regRead_sh (rs : Bool) (s : State) : (regRead rs s).2.sh = s.sh := by
  rcases regRead_cases rs s with ⟨-, h⟩ | ⟨_, -, -, h⟩ | ⟨_, _, -, -, h⟩ <;> simp [h]

@[simp] theorem regRead_fs (rs : Bool) (s : State) : (regRead rs s).2.fs = s.fs := by
  rcases regRead_cases rs s with ⟨-, h⟩ | ⟨_, -, -, h⟩ | ⟨_, _, -, -, h⟩ <;> simp [h]

@[simp] theorem regRead_bl (rs : Bool) (s : State) : (regRead rs s).2.bl = s.bl := by
  rcases regRead_cases rs s with ⟨-, h⟩ | ⟨_, -, -, h⟩ | ⟨_, _, -, -, h⟩ <;> simp [h]

@[simp] theorem regRead_seq (rs : Bool) (s : State) : (regRead rs s).2.seq = s.seq := by
  rcases regRead_cases rs s with ⟨-, h⟩ | ⟨_, -, -, h⟩ | ⟨_, _, -, -, h⟩ <;> simp [h]

@[simp] theorem regRead_ops (rs : Bool) (s : State) : (regRead rs s).2.ops = s.ops := by
  rcases regRead_cases rs s with ⟨-, h⟩ | ⟨_, -, -, h⟩ | ⟨_, _, -, -, h⟩ <;> simp [h]

@[simp] theorem regRead_saved (rs : Bool) (s : State) : (regRead rs s).2.saved = s.saved := by
  rcases regRead_cases rs s with ⟨-, h⟩ | ⟨_, -, -, h⟩ | ⟨_, _, -, -, h⟩ <;> simp [h]

@[simp] theorem regRead_value (rs : Bool) (s : State) : (regRead rs s).2.value = s.value := by
  rcases regRead_cases rs s with ⟨-, h⟩ | ⟨_, -, -, h⟩ | ⟨_, _, -, -, h⟩ <;> simp [h]

@[simp] theorem regRead_cmdPort (rs : Bool) (s : State) : (regRead rs s).2.cmdPort = s.cmdPort := by
  rcases regRead_cases rs s with ⟨-, h⟩ | ⟨_, -, -, h⟩ | ⟨_, _, -, -, h⟩ <;> simp [h]

@[simp] theorem regRead_responses (rs : Bool) (s : State) : (regRead rs s).2.responses = s.responses := by
  rcases regRead_cases rs s with ⟨-, h⟩ | ⟨_, -, -, h⟩ | ⟨_, _, -, -, h⟩ <;> simp [h]

@[simp] theorem regRead_resetIn (rs : Bool) (s : State) : (regRead rs s).2.resetIn = s.resetIn := by
  rcases regRead_cases rs s with ⟨-, h⟩ | ⟨_, -, -, h⟩ | ⟨_, _, -, -, h⟩ <;> simp [h]


/-! ## Answers from the script -/

theorem nextReply_script {s : State} {r : Reply} {rest : List Reply} (h : s.replies = r :: rest) :
    nextReply s = r := by
  simp [nextReply, h]

@[simp] theorem replyAnswer_byteReply (v : Byte) : replyAnswer (byteReply v) = .byte v := rfl

theorem replyAnswer_short {r : Reply} (h : r.available ≠ 1) : replyAnswer r = .short := by
  simp [replyAnswer, h]

/-- A sample answered from the script. -/
theorem sampleNibble_script {s : State} {r : Reply} {rest : List Reply} (rs : Bool)
    (h : s.replies = r :: rest) :
    (sampleNibble rs s).1 = replyAnswer r ∧ (sampleNibble rs s).2.replies = rest ∧
    (sampleNibble rs s).2.trace = s.trace ++ [.write s.cfg.addr (readFrame s.bl rs false),
      .write s.cfg.addr (readFrame s.bl rs true), .read s.cfg.addr (replyAnswer r)] := by
  have h' : (busWrite (readFrame s.bl rs true) (busWrite (readFrame s.bl rs false) s)).replies = r :: rest := by
    simpa using h
  have h1 : (sampleNibble rs s).1 = replyAnswer r := by rw [sampleNibble_fst, nextReply_script h']
  exact ⟨h1, by simp [h], by rw [sampleNibble_trace, h1]⟩

/-- A register read answered by two bytes (R114, R115). -/
theorem regRead_bytes {s : State} {v1 v2 : Byte} {rest : List Reply} (rs : Bool)
    (h : s.replies = byteReply v1 :: byteReply v2 :: rest) :
    (regRead rs s).1 = joinSamples v1 v2 ∧
    (regRead rs s).2.trace = s.trace ++ readEvents s.cfg.addr s.bl rs v1 v2 ∧
    (regRead rs s).2.replies = rest ∧ (regRead rs s).2.latch = readFrame s.bl rs false := by
  obtain ⟨a1, a2, a3⟩ := sampleNibble_script rs h
  obtain ⟨b1, b2, b3⟩ := sampleNibble_script rs a2
  rcases regRead_cases rs s with ⟨h1, -⟩ | ⟨_, -, h2, -⟩ | ⟨w1, w2, h1, h2, h3⟩
  · rw [a1] at h1; cases h1
  · rw [b1] at h2; cases h2
  · rw [a1] at h1; rw [b1] at h2
    cases h1; cases h2
    simp only [h3, busWrite_trace, busWrite_replies, busWrite_latch]
    exact ⟨rfl, by rw [b3, a3]; simp [readEvents], b2, by simp⟩

/-- A register read whose first sample is short (R116). -/
theorem regRead_short1 {s : State} {r : Reply} {rest : List Reply} (rs : Bool) (h : s.replies = r :: rest)
    (hr : r.available ≠ 1) :
    (regRead rs s).1 = 0x00 ∧
    (regRead rs s).2.trace = s.trace ++ [.write s.cfg.addr (readFrame s.bl rs false),
      .write s.cfg.addr (readFrame s.bl rs true), .read s.cfg.addr .short] ∧
    (regRead rs s).2.replies = rest ∧ (regRead rs s).2.latch = readFrame s.bl rs true := by
  obtain ⟨a1, a2, a3⟩ := sampleNibble_script rs h
  rw [replyAnswer_short hr] at a1 a3
  rcases regRead_cases rs s with ⟨-, h3⟩ | ⟨_, h1, -, -⟩ | ⟨_, _, h1, -, -⟩
  · rw [h3]; exact ⟨rfl, a3, a2, by simp⟩
  · rw [a1] at h1; cases h1
  · rw [a1] at h1; cases h1

/-- A register read whose second sample is short (R116). -/
theorem regRead_short2 {s : State} {v1 : Byte} {r : Reply} {rest : List Reply} (rs : Bool)
    (h : s.replies = byteReply v1 :: r :: rest) (hr : r.available ≠ 1) :
    (regRead rs s).1 = 0x00 ∧
    (regRead rs s).2.trace = s.trace ++ [.write s.cfg.addr (readFrame s.bl rs false),
      .write s.cfg.addr (readFrame s.bl rs true), .read s.cfg.addr (.byte v1),
      .write s.cfg.addr (readFrame s.bl rs false), .write s.cfg.addr (readFrame s.bl rs true),
      .read s.cfg.addr .short] ∧
    (regRead rs s).2.replies = rest ∧ (regRead rs s).2.latch = readFrame s.bl rs true := by
  obtain ⟨a1, a2, a3⟩ := sampleNibble_script rs h
  obtain ⟨b1, b2, b3⟩ := sampleNibble_script rs a2
  rw [replyAnswer_short hr] at b1 b3
  rcases regRead_cases rs s with ⟨h1, -⟩ | ⟨w, h1, -, h3⟩ | ⟨_, _, -, h2, -⟩
  · rw [a1] at h1; cases h1
  · rw [h3]
    exact ⟨rfl, by rw [b3, a3]; simp, b2, by simp⟩
  · rw [b1] at h2; cases h2

/-- A register read, however it is answered (R114 to R116). -/
theorem regRead_answer {s : State} {a : ReadAnswer} {rest : List Reply} (rs : Bool)
    (h : s.replies = a.replies ++ rest) (ha : a.legal = true) :
    (regRead rs s).1 = a.value ∧ (regRead rs s).2.trace = s.trace ++ a.events s.cfg.addr s.bl rs ∧
    (regRead rs s).2.replies = rest := by
  cases a with
  | bytes v1 v2 => exact ⟨(regRead_bytes rs h).1, (regRead_bytes rs h).2.1, (regRead_bytes rs h).2.2.1⟩
  | short1 r =>
    have k := regRead_short1 rs h (by simpa [ReadAnswer.legal] using ha)
    exact ⟨k.1, k.2.1, k.2.2.1⟩
  | short2 v1 r =>
    have k := regRead_short2 rs h (by simpa [ReadAnswer.legal] using ha)
    exact ⟨k.1, k.2.1, k.2.2.1⟩

/-! ## What the bus operations depend on -/

/-- The part of `s` that bus operations read and write, with the rest taken from `r`. -/
def State.onRest (s r : State) : State :=
  { r with
    cfg := s.cfg, bl := s.bl, latch := s.latch, lcd := s.lcd, trace := s.trace, replies := s.replies
    now := s.now, ticks := s.ticks }

theorem busWrite_onRest (b : Byte) (s r : State) : busWrite b (s.onRest r) = (busWrite b s).onRest r := rfl

theorem busRead1_onRest (s r : State) : busRead1 (s.onRest r) = ((busRead1 s).1, (busRead1 s).2.onRest r) := rfl

theorem nibbleWrite_onRest (rs : Bool) (n : Byte) (s r : State) :
    nibbleWrite rs n (s.onRest r) = (nibbleWrite rs n s).onRest r := by
  simp only [nibbleWrite, busWrite_onRest]; rfl

theorem byteWrite_onRest (rs : Bool) (v : Byte) (s r : State) :
    byteWrite rs v (s.onRest r) = (byteWrite rs v s).onRest r := by
  simp only [byteWrite, nibbleWrite_onRest]

theorem sampleNibble_onRest (rs : Bool) (s r : State) :
    sampleNibble rs (s.onRest r) = ((sampleNibble rs s).1, (sampleNibble rs s).2.onRest r) := by
  have h1 : (s.onRest r).bl = s.bl := rfl
  have h2 : ((busWrite (readFrame s.bl rs false) s).onRest r).bl = s.bl := rfl
  have h3 : (busWrite (readFrame s.bl rs false) s).bl = s.bl := rfl
  simp only [sampleNibble, h1, busWrite_onRest, h2, h3, busRead1_onRest]

/-- A register read looks only at the bus part of the state, and changes only that. -/
theorem regRead_onRest (rs : Bool) (s r : State) :
    regRead rs (s.onRest r) = ((regRead rs s).1, (regRead rs s).2.onRest r) := by
  unfold regRead
  rcases h1 : sampleNibble rs s with ⟨a1, s1⟩
  have k1 := sampleNibble_onRest rs s r
  rw [h1] at k1
  rw [k1]
  cases a1 with
  | short => rfl
  | byte v1 =>
    rcases h2 : sampleNibble rs s1 with ⟨a2, s2⟩
    have k2 := sampleNibble_onRest rs s1 r
    rw [h2] at k2
    simp only [k2, h2]
    cases a2 <;> rfl

/-! ## Reading leaves the responder's memories alone -/

theorem onRise_memory (l : Lcd) (b : Byte) : (l.onRise b).dd = l.dd ∧ (l.onRise b).cg = l.cg := by
  unfold Lcd.onRise; split <;> exact ⟨rfl, rfl⟩

theorem onFallRead_memory (l : Lcd) (b : Byte) : (l.onFallRead b).dd = l.dd ∧ (l.onFallRead b).cg = l.cg := by
  unfold Lcd.onFallRead Lcd.stepAC; split <;> [exact ⟨rfl, rfl⟩; (split <;> exact ⟨rfl, rfl⟩)]

theorem onBusWrite_memory_of_read (l : Lcd) (p b : Byte) (h : b.getLsbD 1 = true) :
    (l.onBusWrite p b).dd = l.dd ∧ (l.onBusWrite p b).cg = l.cg := by
  unfold Lcd.onBusWrite
  split
  · exact onRise_memory l b
  · simp only [h, if_true]; exact onFallRead_memory l b
  · exact ⟨rfl, rfl⟩

theorem sameMemory_refl (s : State) : sameMemory s s := ⟨rfl, rfl⟩

theorem sameMemory_trans {s t u : State} (h : sameMemory s t) (k : sameMemory t u) : sameMemory s u :=
  ⟨k.1.trans h.1, k.2.trans h.2⟩

theorem busWrite_sameMemory_of_read (s : State) (b : Byte) (h : b.getLsbD 1 = true) :
    sameMemory s (busWrite b s) := by
  cases hl : s.lcd with
  | none => simp [sameMemory, hl]
  | some l => simpa [sameMemory, hl] using onBusWrite_memory_of_read l s.latch b h

theorem sampleNibble_sameMemory (rs : Bool) (s : State) : sameMemory s (sampleNibble rs s).2 := by
  have h1 := busWrite_sameMemory_of_read s (readFrame s.bl rs false) (by simp)
  have h2 := busWrite_sameMemory_of_read (busWrite (readFrame s.bl rs false) s) (readFrame s.bl rs true) (by simp)
  exact sameMemory_trans h1 h2

theorem regRead_sameMemory (rs : Bool) (s : State) : sameMemory s (regRead rs s).2 := by
  have a := sampleNibble_sameMemory rs s
  have b := sampleNibble_sameMemory rs (sampleNibble rs s).2
  rcases regRead_cases rs s with ⟨-, h⟩ | ⟨_, -, -, h⟩ | ⟨_, _, -, -, h⟩ <;> rw [h]
  · exact a
  · exact sameMemory_trans a b
  · exact sameMemory_trans (sameMemory_trans a b) (busWrite_sameMemory_of_read _ _ (by simp))

/-! ## Time -/

theorem busWrite_now_le (b : Byte) (s : State) : s.now ≤ (busWrite b s).now := by simp

theorem nibbleWrite_now_le (rs : Bool) (n : Byte) (s : State) : s.now ≤ (nibbleWrite rs n s).now := by
  simp only [nibbleWrite]
  exact (busWrite_now_le _ _).trans ((busWrite_now_le _ _).trans (busWrite_now_le _ _))

theorem byteWrite_now_le (rs : Bool) (v : Byte) (s : State) : s.now ≤ (byteWrite rs v s).now := by
  simp only [byteWrite]
  exact (nibbleWrite_now_le _ _ _).trans (nibbleWrite_now_le _ _ _)

theorem sampleNibble_now_le (rs : Bool) (s : State) : s.now ≤ (sampleNibble rs s).2.now := by
  simp only [sampleNibble]
  simp only [busRead1_now]
  exact (busWrite_now_le _ _).trans ((busWrite_now_le _ _).trans (Nat.le_add_right _ _))

theorem regRead_now_le (rs : Bool) (s : State) : s.now ≤ (regRead rs s).2.now := by
  have a := sampleNibble_now_le rs s
  have b := sampleNibble_now_le rs (sampleNibble rs s).2
  rcases regRead_cases rs s with ⟨-, h⟩ | ⟨_, -, -, h⟩ | ⟨_, _, -, -, h⟩ <;> rw [h]
  · exact a
  · exact a.trans b
  · exact (a.trans b).trans (busWrite_now_le _ _)

/-- A wait lasts at least its bound (R221). -/
theorem waitAtLeast_bound (d : Nat) (s : State) : s.now + d ≤ (waitAtLeast d s).now := by
  simp only [waitAtLeast]; omega

end Sys2Proof.Machine
end

