-- ==== Sys2Proof/Laws/Decode.lean ====
section
/-!
SUPPORT. What the pieces of the command decoder do: when an operand form decodes, what it decodes to, and
what the bytes were.
-/

namespace Sys2Proof

/-- A one-operand command decodes exactly when a byte follows. -/
theorem decodeOp_op1_ok {op : Byte} {data rest : List Byte} {mk : Byte → Instr} {i : Instr} :
    decodeOp.op1 op data mk = .ok (i, rest) ↔ ∃ a, data = a :: rest ∧ i = mk a := by
  unfold decodeOp.op1
  cases data with
  | nil => simp
  | cons a r => simp; grind

/-- A two-operand command decodes exactly when two bytes follow. -/
theorem decodeOp_op2_ok {op : Byte} {data rest : List Byte} {mk : Byte → Byte → Instr} {i : Instr} :
    decodeOp.op2 op data mk = .ok (i, rest) ↔ ∃ a b, data = a :: b :: rest ∧ i = mk a b := by
  unfold decodeOp.op2
  match data with
  | [] => simp
  | [_] => simp
  | a :: b :: r => simp; grind

/-- A glyph command decodes exactly when a slot and `n` data bytes follow. -/
theorem decodeOp_glyph_ok {op : Byte} {data rest : List Byte} {mk : Byte → List Byte → Instr} {n : Nat}
    {i : Instr} :
    decodeOp.glyph op data mk n = .ok (i, rest) ↔
      ∃ slot d, data = slot :: (d ++ rest) ∧ d.length = n ∧ i = mk slot d := by
  unfold decodeOp.glyph
  cases data with
  | nil => simp
  | cons slot data =>
    by_cases h : data.length < n
    · simp only [h, if_true]
      constructor
      · simp
      · rintro ⟨_, d, he, hd, -⟩
        cases he; simp at h; omega
    · simp only [h, if_false, Except.ok.injEq, Prod.mk.injEq]
      constructor
      · rintro ⟨rfl, rfl⟩
        exact ⟨slot, data.take n, by simp, by simp; omega, rfl⟩
      · rintro ⟨_, d, he, rfl, rfl⟩
        cases he
        simp

/-- The data of a glyph command are taken whole, whatever follows. -/
theorem decodeOp_glyph_append (op slot : Byte) (d rest : List Byte) (mk : Byte → List Byte → Instr) (n : Nat)
    (h : d.length = n) : decodeOp.glyph op (slot :: (d ++ rest)) mk n = .ok (mk slot d, rest) :=
  decodeOp_glyph_ok.2 ⟨slot, d, rfl, h, rfl⟩

/-- The opcode of a command that decodes. -/
theorem decodeOp_noCommand {op : Byte} (h : op = 0x00 ∨ 0x22 ≤ op) (data : List Byte) :
    decodeOp op data = .error (.noCommand op) := by
  unfold decodeOp
  split <;> first | rfl | (exfalso; revert h; decide)

end Sys2Proof
end

