-- ==== Sys2Proof/Laws/Memory.lean ====
section
/-!
SUPPORT. The responder's memories: a byte read after a write to its place, or to another, and the canonical
form is kept.
-/

namespace Sys2Proof.Machine

open Sys2Proof

/-- A memory in canonical form from `lo` lists nothing below `lo`. -/
theorem Memory.read_below {lo hi : Nat} {m : Memory} (h : Memory.wfFrom lo hi m = true) {a : Nat} (ha : a < lo) :
    Memory.read m a = Memory.blank := by
  induction m generalizing lo with
  | nil => rfl
  | cons c m ih =>
    obtain ⟨k, w⟩ := c
    simp only [Memory.wfFrom, Bool.and_eq_true, decide_eq_true_eq] at h
    obtain ⟨⟨⟨h1, -⟩, -⟩, h4⟩ := h
    rw [Memory.read, if_neg (by omega)]
    exact ih h4 (by omega)

/-- Reading after a write. -/
theorem Memory.read_write {lo hi : Nat} {m : Memory} (h : Memory.wfFrom lo hi m = true) (a : Nat) (v : Byte)
    (b : Nat) : Memory.read (Memory.write m a v) b = if b = a then v else Memory.read m b := by
  induction m generalizing lo with
  | nil =>
    rw [Memory.write]
    by_cases hv : v = Memory.blank <;> by_cases hb : b = a <;>
      simp [hv, hb, Memory.read, eq_comm (a := a)]
  | cons c m ih =>
    obtain ⟨k, w⟩ := c
    simp only [Memory.wfFrom, Bool.and_eq_true, decide_eq_true_eq] at h
    obtain ⟨-, h4⟩ := h
    have below : ∀ c, c ≤ k → Memory.read m c = Memory.blank := fun c hc => Memory.read_below h4 (by omega)
    rw [Memory.write]
    by_cases hb : b = a
    · subst hb
      rw [if_pos rfl]
      split_ifs with g1 g2 g2 g3
      · rw [Memory.read, if_neg (by omega), below b (by omega), g2]
      · simp [Memory.read]
      · rw [below b (by omega), g3]
      · simp [Memory.read]
      · rw [Memory.read, if_neg (by omega), ih h4, if_pos rfl]
    · rw [if_neg hb]
      split_ifs with g1 g2 g2 g3
      · rfl
      · rw [Memory.read, if_neg (Ne.symm hb)]
      · rw [Memory.read, if_neg (by omega)]
      · rw [Memory.read, if_neg (Ne.symm hb), Memory.read, if_neg (by omega)]
      · rw [Memory.read, ih h4, if_neg hb, Memory.read]

/-- A write keeps the canonical form. -/
theorem Memory.wfFrom_write {lo hi : Nat} {m : Memory} (h : Memory.wfFrom lo hi m = true) {a : Nat} (hl : lo ≤ a)
    (ha : a < hi) (v : Byte) : Memory.wfFrom lo hi (Memory.write m a v) = true := by
  induction m generalizing lo with
  | nil => rw [Memory.write]; split_ifs with h1 <;> simp [Memory.wfFrom, h1, hl, ha]
  | cons c m ih =>
    obtain ⟨k, w⟩ := c
    simp only [Memory.wfFrom, Bool.and_eq_true, decide_eq_true_eq] at h
    obtain ⟨⟨⟨h1, h2⟩, h3⟩, h4⟩ := h
    rw [Memory.write]
    split_ifs with g1 g2 g2 g3
    · simp [Memory.wfFrom, h1, h2, h3, h4]
    · simp [Memory.wfFrom, h2, h3, h4, g2, hl, ha]; omega
    · subst g2
      cases m with
      | nil => rfl
      | cons c m =>
        obtain ⟨k', w'⟩ := c
        simp only [Memory.wfFrom, Bool.and_eq_true, decide_eq_true_eq] at h4 ⊢
        exact ⟨⟨⟨by omega, h4.1.1.2⟩, h4.1.2⟩, h4.2⟩
    · simp [Memory.wfFrom, g3, hl, ha]; rw [g2]; exact h4
    · simp [Memory.wfFrom, h1, h2, h3]; exact ih h4 (by omega)

/-- Reading the byte just written. -/
theorem Memory.read_write_same {size : Nat} {m : Memory} (h : Memory.wf size m = true) (a : Nat) (v : Byte) :
    Memory.read (Memory.write m a v) a = v := by
  rw [Memory.read_write h, if_pos rfl]

/-- A write leaves every other byte alone. -/
theorem Memory.read_write_other {size : Nat} {m : Memory} (h : Memory.wf size m = true) (a : Nat) (v : Byte)
    {b : Nat} (hb : b ≠ a) : Memory.read (Memory.write m a v) b = Memory.read m b := by
  rw [Memory.read_write h, if_neg hb]

theorem Memory.wf_write {size : Nat} {m : Memory} (h : Memory.wf size m = true) {a : Nat} (ha : a < size)
    (v : Byte) : Memory.wf size (Memory.write m a v) = true :=
  Memory.wfFrom_write h (Nat.zero_le a) ha v

end Sys2Proof.Machine
end

