-- ==== Sys2Proof/Laws/Run.lean ====
section
/-!
SUPPORT. What a micro-operation and a run of micro-operations can do, once: the block's registers stay, a run
ends or stops in a busy poll, and a property that the bus operations keep is kept by them.
-/

namespace Sys2Proof.Machine

open Sys2Proof

/-! ## Equations -/

/-- The state a turn leaves. -/
def Turn.state : Turn → State
  | .done s => s
  | .busy s => s

@[simp] theorem Turn.state_done (s : State) : (Turn.done s).state = s := rfl
@[simp] theorem Turn.state_busy (s : State) : (Turn.busy s).state = s := rfl

/-- R118, R120: the poll's turn decides. -/
theorem regWrite_eq (rs : Bool) (v : Byte) (s : State) :
    regWrite rs v s = if busyFlag (regRead false s).1 then .busy (regRead false s).2
      else .done (byteWrite rs v (regRead false s).2) := rfl

@[simp] theorem micro_wait (d : Nat) (s : State) : micro (.wait d) s = .done (waitAtLeast d s) := rfl
@[simp] theorem micro_nibble (rs : Bool) (n : Byte) (s : State) :
    micro (.nibble rs n) s = .done (nibbleWrite rs n s) := rfl
@[simp] theorem micro_bus (b : Byte) (s : State) : micro (.bus b) s = .done (busWrite b s) := rfl
@[simp] theorem micro_regWrite (rs : Bool) (v : Byte) (s : State) :
    micro (.regWrite rs v) s = regWrite rs v s := rfl
@[simp] theorem micro_saveAC (s : State) :
    micro .saveAC s = .done { (regRead false s).2 with saved := statusAddress (regRead false s).1 } := rfl
@[simp] theorem micro_restoreAC (s : State) : micro .restoreAC s = regWrite false (ddramSet s.saved) s := rfl
@[simp] theorem micro_readData (s : State) :
    micro .readData s = .done { (regRead true s).2 with value := (regRead true s).1 } := rfl
@[simp] theorem micro_ret (r : Response) (s : State) : micro (.ret r) s = .done (s.respond r) := rfl
@[simp] theorem micro_retValue (s : State) : micro .retValue s = .done (s.respond (.byte s.value)) := rfl

@[simp] theorem run_nil (s : State) : run [] s = s.finish := rfl

theorem run_cons_done {m : Micro} {s t : State} (ms : List Micro) (h : micro m s = .done t) :
    run (m :: ms) s = run ms t := by
  simp only [run, h]

theorem run_cons_busy {m : Micro} {s t : State} (ms : List Micro) (h : micro m s = .busy t) :
    run (m :: ms) s = { t with ops := m :: ms } := by
  simp only [run, h]

/-! ## What stays -/

/-- Everything the block holds is the same, but for what the bus operations change. -/
structure SameBlock (s t : State) : Prop where
  cfg : t.cfg = s.cfg
  em : t.em = s.em
  dc : t.dc = s.dc
  sh : t.sh = s.sh
  fs : t.fs = s.fs
  bl : t.bl = s.bl
  seq : t.seq = s.seq
  saved : t.saved = s.saved
  value : t.value = s.value
  cmdPort : t.cmdPort = s.cmdPort
  responses : t.responses = s.responses
  resetIn : t.resetIn = s.resetIn

theorem SameBlock.refl (s : State) : SameBlock s s := ⟨rfl, rfl, rfl, rfl, rfl, rfl, rfl, rfl, rfl, rfl, rfl, rfl⟩

theorem SameBlock.trans {s t u : State} (h : SameBlock s t) (k : SameBlock t u) : SameBlock s u :=
  ⟨k.1.trans h.1, k.2.trans h.2, k.3.trans h.3, k.4.trans h.4, k.5.trans h.5, k.6.trans h.6, k.7.trans h.7,
    k.8.trans h.8, k.9.trans h.9, k.10.trans h.10, k.11.trans h.11, k.12.trans h.12⟩

theorem SameBlock.sameRegisters {s t : State} (h : SameBlock s t) : sameRegisters s t :=
  ⟨h.cfg, h.em, h.dc, h.sh, h.fs, h.bl⟩

theorem SameBlock.sameInputs {s t : State} (h : SameBlock s t) : sameInputs s t := ⟨h.cmdPort, h.resetIn⟩

theorem regRead_sameBlock (rs : Bool) (s : State) : SameBlock s (regRead rs s).2 := by constructor <;> simp

theorem byteWrite_sameBlock (rs : Bool) (v : Byte) (s : State) : SameBlock s (byteWrite rs v s) := by
  constructor <;> simp

theorem nibbleWrite_sameBlock (rs : Bool) (n : Byte) (s : State) : SameBlock s (nibbleWrite rs n s) := by
  constructor <;> simp

theorem busWrite_sameBlock (b : Byte) (s : State) : SameBlock s (busWrite b s) := by constructor <;> simp

theorem busRead1_sameBlock (s : State) : SameBlock s (busRead1 s).2 := by constructor <;> simp

theorem regWrite_sameBlock (rs : Bool) (v : Byte) (s : State) : SameBlock s (regWrite rs v s).state := by
  rw [regWrite_eq]
  split
  · exact regRead_sameBlock false s
  · exact (regRead_sameBlock false s).trans (byteWrite_sameBlock rs v _)

/-- What a micro-operation leaves alone: the registers, the sequencer's position, the host's side. -/
structure Frame (s t : State) : Prop where
  cfg : t.cfg = s.cfg
  em : t.em = s.em
  dc : t.dc = s.dc
  sh : t.sh = s.sh
  fs : t.fs = s.fs
  bl : t.bl = s.bl
  cmdPort : t.cmdPort = s.cmdPort
  resetIn : t.resetIn = s.resetIn

theorem Frame.refl (s : State) : Frame s s := ⟨rfl, rfl, rfl, rfl, rfl, rfl, rfl, rfl⟩

theorem Frame.trans {s t u : State} (h : Frame s t) (k : Frame t u) : Frame s u :=
  ⟨k.1.trans h.1, k.2.trans h.2, k.3.trans h.3, k.4.trans h.4, k.5.trans h.5, k.6.trans h.6, k.7.trans h.7,
    k.8.trans h.8⟩

theorem SameBlock.frame {s t : State} (h : SameBlock s t) : Frame s t :=
  ⟨h.cfg, h.em, h.dc, h.sh, h.fs, h.bl, h.cmdPort, h.resetIn⟩

theorem Frame.sameRegisters {s t : State} (h : Frame s t) : sameRegisters s t :=
  ⟨h.cfg, h.em, h.dc, h.sh, h.fs, h.bl⟩

theorem Frame.sameInputs {s t : State} (h : Frame s t) : sameInputs s t := ⟨h.cmdPort, h.resetIn⟩

theorem micro_frame (m : Micro) (s : State) : Frame s (micro m s).state ∧ (micro m s).state.seq = s.seq := by
  cases m with
  | regWrite rs v => exact ⟨(regWrite_sameBlock rs v s).frame, (regWrite_sameBlock rs v s).seq⟩
  | restoreAC => exact ⟨(regWrite_sameBlock _ _ s).frame, (regWrite_sameBlock _ _ s).seq⟩
  | nibble rs n => exact ⟨(nibbleWrite_sameBlock rs n s).frame, (nibbleWrite_sameBlock rs n s).seq⟩
  | bus b => exact ⟨(busWrite_sameBlock b s).frame, (busWrite_sameBlock b s).seq⟩
  | saveAC =>
    have h := regRead_sameBlock false s
    exact ⟨⟨h.cfg, h.em, h.dc, h.sh, h.fs, h.bl, h.cmdPort, h.resetIn⟩, h.seq⟩
  | readData =>
    have h := regRead_sameBlock true s
    exact ⟨⟨h.cfg, h.em, h.dc, h.sh, h.fs, h.bl, h.cmdPort, h.resetIn⟩, h.seq⟩
  | wait d => exact ⟨⟨rfl, rfl, rfl, rfl, rfl, rfl, rfl, rfl⟩, rfl⟩
  | ret r => exact ⟨⟨rfl, rfl, rfl, rfl, rfl, rfl, rfl, rfl⟩, rfl⟩
  | retValue => exact ⟨⟨rfl, rfl, rfl, rfl, rfl, rfl, rfl, rfl⟩, rfl⟩

/-! ## The two ends of a run -/

/-- Which micro-operations can be in a busy poll. -/
def Micro.polls : Micro → Bool
  | .regWrite _ _ | .restoreAC => true
  | .wait _ | .nibble _ _ | .bus _ | .saveAC | .readData | .ret _ | .retValue => false

theorem micro_busy_polls {m : Micro} {s t : State} (h : micro m s = .busy t) : m.polls = true := by
  cases m <;> first | rfl | (simp at h)

/-- A run is over, or it has stopped at a micro-operation in a busy poll, with it and what stands behind it
still to be issued. A property that every micro-operation of the run keeps holds at the end. -/
theorem run_induct {P : State → Prop} {ops : List Micro} {s : State}
    (hm : ∀ m ∈ ops, ∀ s, P s → P (micro m s).state) (h : P s) :
    (∃ t, P t ∧ run ops s = t.finish) ∨
    (∃ pre m ms t, ops = pre ++ m :: ms ∧ m.polls = true ∧ P t ∧ run ops s = { t with ops := m :: ms }) := by
  induction ops generalizing s with
  | nil => exact .inl ⟨s, h, rfl⟩
  | cons m ms ih =>
    have hp : P (micro m s).state := hm m (by simp) s h
    rcases hk : micro m s with t | t <;> rw [hk] at hp
    · rcases ih (s := t) (fun m' hm' => hm m' (by simp [hm'])) hp with ⟨u, hu, e⟩ | ⟨pre, m', ms', u, he, hb, hu, e⟩
      · exact .inl ⟨u, hu, by rw [run_cons_done ms hk, e]⟩
      · exact .inr ⟨m :: pre, m', ms', u, by rw [he]; rfl, hb, hu, by rw [run_cons_done ms hk, e]⟩
    · exact .inr ⟨[], m, ms, t, rfl, micro_busy_polls hk, hp, run_cons_busy ms hk⟩

/-- A run leaves the registers and the host's side alone. -/
theorem run_frame (ops : List Micro) (s : State) : Frame s (run ops s) := by
  rcases run_induct (P := fun t => Frame s t) (ops := ops)
    (fun m _ t ht => ht.trans (micro_frame m t).1) (Frame.refl s) with ⟨t, ht, e⟩ | ⟨_, _, _, t, -, -, ht, e⟩ <;>
    rw [e] <;> exact ht.trans ⟨rfl, rfl, rfl, rfl, rfl, rfl, rfl, rfl⟩

/-- Where the sequencer stands after a run. -/
theorem run_seq (ops : List Micro) (s : State) :
    ((run ops s).seq = nextSeq s.cfg.family s.seq ∧ (run ops s).ops = []) ∨
    ((run ops s).seq = s.seq ∧ ∃ pre m ms, ops = pre ++ m :: ms ∧ m.polls = true ∧ (run ops s).ops = m :: ms) := by
  rcases run_induct (P := fun t => t.seq = s.seq ∧ t.cfg = s.cfg) (ops := ops)
    (fun m _ t ht => ⟨(micro_frame m t).2.trans ht.1, (micro_frame m t).1.cfg.trans ht.2⟩) ⟨rfl, rfl⟩ with
    ⟨t, ht, e⟩ | ⟨pre, m, ms, t, h1, h2, ht, e⟩ <;> rw [e]
  · exact .inl ⟨by simp [State.finish, ht.1, ht.2], rfl⟩
  · exact .inr ⟨ht.1, pre, m, ms, h1, h2, rfl⟩

/-! ## Properties that the bus operations keep -/

/-- A property that the codec's bus operations, and the two scratch values, keep. Every byte the codec transmits
carries `BL` in bit 3 (R95). -/
structure BusKept (P : State → Prop) : Prop where
  write : ∀ b s, b.getLsbD 3 = s.bl → P s → P (busWrite b s)
  read : ∀ s, P s → P (busRead1 s).2
  saved : ∀ s v, P s → P { s with saved := v }
  value : ∀ s v, P s → P { s with value := v }

theorem BusKept.nibbleWrite {P : State → Prop} (h : BusKept P) (rs : Bool) (n : Byte) {s : State} (hs : P s) :
    P (nibbleWrite rs n s) := by
  unfold Machine.nibbleWrite
  exact h.write _ _ (by simp) (h.write _ _ (by simp) (h.write _ _ (by simp) hs))

theorem BusKept.byteWrite {P : State → Prop} (h : BusKept P) (rs : Bool) (v : Byte) {s : State} (hs : P s) :
    P (byteWrite rs v s) := h.nibbleWrite _ _ (h.nibbleWrite _ _ hs)

theorem BusKept.sampleNibble {P : State → Prop} (h : BusKept P) (rs : Bool) {s : State} (hs : P s) :
    P (sampleNibble rs s).2 := by
  unfold Machine.sampleNibble
  exact h.read _ (h.write _ _ (by simp) (h.write _ _ (by simp) hs))

theorem BusKept.regRead {P : State → Prop} (h : BusKept P) (rs : Bool) {s : State} (hs : P s) :
    P (regRead rs s).2 := by
  have a := h.sampleNibble rs hs
  have b := h.sampleNibble rs a
  rcases regRead_cases rs s with ⟨-, e⟩ | ⟨_, -, -, e⟩ | ⟨_, _, -, -, e⟩ <;> rw [e]
  · exact a
  · exact b
  · exact h.write _ _ (by simp) b

theorem BusKept.regWrite {P : State → Prop} (h : BusKept P) (rs : Bool) (v : Byte) {s : State} (hs : P s) :
    P (regWrite rs v s).state := by
  rw [regWrite_eq]
  split
  · exact h.regRead _ hs
  · exact h.byteWrite _ _ (h.regRead _ hs)

theorem BusKept.micro {P : State → Prop} (h : BusKept P) {m : Micro} (hm : m.isCodec = true) {s : State}
    (hs : P s) : P (micro m s).state := by
  cases m with
  | nibble rs n => exact h.nibbleWrite rs n hs
  | regWrite rs v => exact h.regWrite rs v hs
  | saveAC => exact h.saved _ _ (h.regRead _ hs)
  | restoreAC => exact h.regWrite _ _ hs
  | readData => exact h.value _ _ (h.regRead _ hs)
  | wait _ => cases hm
  | bus _ => cases hm
  | ret _ => cases hm
  | retValue => cases hm

/-! ## The trace and the clock -/

/-- From `s` to `t` the trace has grown by items whose device address is `ADDR`. -/
def grown (s t : State) : Prop :=
  t.cfg = s.cfg ∧ ∃ new, t.trace = s.trace ++ new ∧ ∀ e ∈ new, e.address = some s.cfg.addr

theorem grown_refl (s : State) : grown s s := ⟨rfl, [], by simp, by simp⟩

theorem grown_busWrite (s : State) (b : Byte) (t : State) (h : grown s t) : grown s (busWrite b t) := by
  obtain ⟨hc, new, h1, h2⟩ := h
  refine ⟨by simpa using hc, new ++ [.write t.cfg.addr b], by simp [h1], ?_⟩
  simp only [List.mem_append, List.mem_singleton]
  rintro e (he | rfl)
  · exact h2 e he
  · simp [Event.address, hc]

theorem grown_busRead1 (s t : State) (h : grown s t) : grown s (busRead1 t).2 := by
  obtain ⟨hc, new, h1, h2⟩ := h
  refine ⟨by simpa using hc, new ++ [.read t.cfg.addr (busRead1 t).1], by simp [h1], ?_⟩
  simp only [List.mem_append, List.mem_singleton]
  rintro e (he | rfl)
  · exact h2 e he
  · simp [Event.address, hc]

theorem grown_kept (s : State) : BusKept (grown s) :=
  ⟨fun b t _ h => grown_busWrite s b t h, grown_busRead1 s, fun _ _ h => h, fun _ _ h => h⟩

/-- From `s` to `t` every byte transmitted carries `BL` in bit 3, and `BL` is the same. -/
def flagged (s t : State) : Prop :=
  t.bl = s.bl ∧ ∃ new, t.trace = s.trace ++ new ∧ ∀ b ∈ sentBytes new, b.getLsbD 3 = s.bl

theorem flagged_refl (s : State) : flagged s s := ⟨rfl, [], by simp, by simp [sentBytes]⟩

theorem flagged_kept (s : State) : BusKept (flagged s) where
  write b t hb := by
    rintro ⟨hc, new, h1, h2⟩
    refine ⟨by simpa using hc, new ++ [.write t.cfg.addr b], by simp [h1], ?_⟩
    intro c
    rw [sentBytes, List.filterMap_append, List.mem_append]
    rintro (hc' | hc')
    · exact h2 c hc'
    · simp [Event.sent] at hc'; rw [hc', hb, hc]
  read t := by
    rintro ⟨hc, new, h1, h2⟩
    refine ⟨by simpa using hc, new ++ [.read t.cfg.addr (busRead1 t).1], by simp [h1], ?_⟩
    intro c
    rw [sentBytes, List.filterMap_append, List.mem_append]
    rintro (hc' | hc')
    · exact h2 c hc'
    · simp [Event.sent] at hc'
  saved _ _ h := h
  value _ _ h := h

theorem later_kept (n : Nat) : BusKept (fun t => n ≤ t.now) :=
  ⟨fun b s _ h => h.trans (busWrite_now_le b s), fun _ h => h.trans (Nat.le_add_right _ _), fun _ _ h => h,
    fun _ _ h => h⟩

theorem micro_now_le (m : Micro) (s : State) : s.now ≤ (micro m s).state.now := by
  by_cases hm : m.isCodec = true
  · exact (later_kept s.now).micro hm le_rfl
  · cases m with
    | wait d => exact (Nat.le_add_right _ _).trans (waitAtLeast_bound d s)
    | bus b => exact busWrite_now_le b s
    | ret r => exact le_rfl
    | retValue => exact le_rfl
    | nibble _ _ => exact absurd rfl hm
    | regWrite _ _ => exact absurd rfl hm
    | saveAC => exact absurd rfl hm
    | restoreAC => exact absurd rfl hm
    | readData => exact absurd rfl hm

theorem run_now_le (ops : List Micro) (s : State) : s.now ≤ (run ops s).now := by
  rcases run_induct (P := fun t => s.now ≤ t.now) (ops := ops)
    (fun m _ t ht => ht.trans (micro_now_le m t)) le_rfl with ⟨_, ht, e⟩ | ⟨_, _, _, t, -, -, ht, e⟩ <;>
    rw [e] <;> exact ht

end Sys2Proof.Machine
end

