-- ==== Sys2Proof/Laws/Responder.lean ====
section
/-!
SUPPORT. The reference responder (20_memory.md section 8) together with the codec: what a responder in step
with the block answers to a register read and does with a byte written, and that it stays in step.
-/

namespace Sys2Proof.Machine

open Sys2Proof

/-! ## The controller's own updates -/

@[simp] theorem memWrite_fields (l : Lcd) (v : Byte) :
    (l.memWrite v).ac = l.ac ∧ (l.memWrite v).space = l.space ∧ (l.memWrite v).inc = l.inc ∧
    (l.memWrite v).bf = l.bf ∧ (l.memWrite v).mode4 = l.mode4 ∧ (l.memWrite v).phase = l.phase := by
  unfold Lcd.memWrite; split <;> exact ⟨rfl, rfl, rfl, rfl, rfl, rfl⟩

theorem instruction_control (l : Lcd) (b : Byte) :
    (l.instruction b).bf = l.bf ∧ (l.instruction b).mode4 = l.mode4 ∧ (l.instruction b).phase = l.phase := by
  unfold Lcd.instruction; split_ifs <;> exact ⟨rfl, rfl, rfl⟩

/-- Executing a byte leaves the busy flag, the interface mode and the phase. -/
theorem execute_control (l : Lcd) (rs : Bool) (b : Byte) :
    (l.execute rs b).bf = l.bf ∧ (l.execute rs b).mode4 = l.mode4 ∧ (l.execute rs b).phase = l.phase := by
  unfold Lcd.execute
  split
  · obtain ⟨-, -, -, h1, h2, h3⟩ := memWrite_fields l b
    exact ⟨h1, h2, h3⟩
  · exact instruction_control l b

/-- The nibble held and the phase play no part in executing a byte. -/
theorem execute_hold (l : Lcd) (rs : Bool) (b : Byte) (h : Nibble) (p : Phase) :
    { l with hold := h, phase := p }.execute rs b = { l.execute rs b with hold := h, phase := p } := by
  unfold Lcd.execute
  split
  · unfold Lcd.memWrite Lcd.stepAC; cases l.space <;> rfl
  · unfold Lcd.instruction; split_ifs <;> rfl

/-- The canonical form of both memories. -/
def Lcd.memoryWf (l : Lcd) : Bool := l.dd.wf ddramSize && l.cg.wf cgramSize

theorem cgramAddress_lt (ac : Addr7) : (ac &&& 0x3F).toNat < cgramSize := by
  revert ac; decide

theorem memWrite_wf {l : Lcd} (h : l.memoryWf = true) (v : Byte) : (l.memWrite v).memoryWf = true := by
  simp only [Lcd.memoryWf, Bool.and_eq_true] at h ⊢
  unfold Lcd.memWrite
  split
  · exact ⟨Memory.wf_write h.1 l.ac.isLt v, h.2⟩
  · exact ⟨h.1, Memory.wf_write h.2 (cgramAddress_lt l.ac) v⟩

theorem instruction_wf {l : Lcd} (h : l.memoryWf = true) (b : Byte) : (l.instruction b).memoryWf = true := by
  simp only [Lcd.memoryWf, Bool.and_eq_true] at h ⊢
  unfold Lcd.instruction
  split_ifs <;> first | exact h | exact ⟨rfl, h.2⟩

theorem execute_wf {l : Lcd} (h : l.memoryWf = true) (rs : Bool) (b : Byte) :
    (l.execute rs b).memoryWf = true := by
  unfold Lcd.execute
  split
  · exact memWrite_wf h b
  · exact instruction_wf h b

theorem onBusWrite_wf {l : Lcd} (h : l.memoryWf = true) (p b : Byte) : (l.onBusWrite p b).memoryWf = true := by
  unfold Lcd.onBusWrite
  split
  · unfold Lcd.onRise; split <;> exact h
  · split
    · unfold Lcd.onFallRead Lcd.stepAC
      split <;> [exact h; (split <;> exact h)]
    · unfold Lcd.onFallWrite
      split
      · split
        · exact h
        · exact execute_wf h _ _
      · split
        · exact h
        · exact instruction_wf h _
  · exact h

/-- Every bus operation keeps the responder's memories in canonical form. -/
theorem memoryLegal_busWrite (b : Byte) (s : State) (h : s.memoryLegal = true) :
    (busWrite b s).memoryLegal = true := by
  unfold State.memoryLegal at h ⊢
  cases hl : s.lcd with
  | none => simp [hl]
  | some l =>
    rw [hl] at h
    simpa [hl, Lcd.memoryWf] using onBusWrite_wf (l := l) h s.latch b

theorem memoryLegal_kept : BusKept (fun s => s.memoryLegal = true) :=
  ⟨fun b s _ h => memoryLegal_busWrite b s h, fun _ h => h, fun _ _ h => h, fun _ _ h => h⟩

theorem micro_memoryLegal (m : Micro) (s : State) (h : s.memoryLegal = true) :
    (micro m s).state.memoryLegal = true := by
  by_cases hm : m.isCodec = true
  · exact memoryLegal_kept.micro hm h
  · cases m with
    | wait d => exact h
    | bus b => exact memoryLegal_busWrite b s h
    | ret r => exact h
    | retValue => exact h
    | nibble _ _ => exact absurd rfl hm
    | regWrite _ _ => exact absurd rfl hm
    | saveAC => exact absurd rfl hm
    | restoreAC => exact absurd rfl hm
    | readData => exact absurd rfl hm

theorem run_memoryLegal (ops : List Micro) (s : State) (h : s.memoryLegal = true) :
    (run ops s).memoryLegal = true := by
  rcases run_induct (P := fun t => t.memoryLegal = true) (ops := ops)
    (fun m _ t ht => micro_memoryLegal m t ht) h with ⟨_, ht, e⟩ | ⟨_, _, _, _, -, -, ht, e⟩ <;>
    rw [e] <;> exact ht

/-! ## In step -/

theorem onBusWrite_low (l : Lcd) {p b : Byte} (hp : p.getLsbD 2 = false) (hb : b.getLsbD 2 = false) :
    l.onBusWrite p b = l := by
  simp only [Lcd.onBusWrite, hp, hb]

theorem onBusWrite_high (l : Lcd) {p b : Byte} (hp : p.getLsbD 2 = true) (hb : b.getLsbD 2 = true) :
    l.onBusWrite p b = l := by
  simp only [Lcd.onBusWrite, hp, hb]

theorem onBusWrite_rise (l : Lcd) {p b : Byte} (hp : p.getLsbD 2 = false) (hb : b.getLsbD 2 = true) :
    l.onBusWrite p b = l.onRise b := by
  simp only [Lcd.onBusWrite, hp, hb]

theorem onBusWrite_fall (l : Lcd) {p b : Byte} (hp : p.getLsbD 2 = true) (hb : b.getLsbD 2 = false) :
    l.onBusWrite p b = if b.getLsbD 1 then l.onFallRead b else l.onFallWrite b := by
  simp only [Lcd.onBusWrite, hp, hb]

/-- The pins of a controller that presents a nibble: it in bits 7:4, the latch in 3:0. -/
theorem pins_read (l : Lcd) (bl rs : Bool) :
    l.pins (readFrame bl rs true) =
      (match l.phase with | .hi => l.rd.extractLsb' 4 4 | .lo => l.rd.extractLsb' 0 4) ++
        (readFrame bl rs true).extractLsb' 0 4 := by
  have hx : ∀ x : Nibble, (0xF#4 &&& x) = x := by decide
  have h1 : (readFrame bl rs true).getLsbD 1 = true := by simp
  have h2 : (readFrame bl rs true).getLsbD 2 = true := by simp
  simp only [Lcd.pins, readFrame_data, h1, h2, Bool.and_self, if_true]
  exact congrArg (· ++ (readFrame bl rs true).extractLsb' 0 4) (hx _)

/-- What a register read gives with a responder in step: its memory, or its busy flag and address counter. -/
def Lcd.presents (l : Lcd) (rs : Bool) : Byte := if rs then l.memRead else BitVec.ofBool l.bf ++ l.ac

/-- The controller after a register read. -/
def Lcd.afterRead (l : Lcd) (rs : Bool) : Lcd :=
  { (if rs then l.stepAC else l) with rd := l.presents rs, phase := .hi }

/-- One sample of a register read, E low before it. -/
theorem sampleNibble_lcd {s : State} {l : Lcd} (hl : s.lcd = some l) (he : s.latch.getLsbD 2 = false)
    (hr : s.replies = []) (rs : Bool) :
    (sampleNibble rs s).1 = .byte ((l.onRise (readFrame s.bl rs true)).pins (readFrame s.bl rs true)) ∧
    (sampleNibble rs s).2.lcd = some (l.onRise (readFrame s.bl rs true)) := by
  have h2 : ∀ e, (readFrame s.bl rs e).getLsbD 2 = e := by simp
  have k : (busWrite (readFrame s.bl rs true) (busWrite (readFrame s.bl rs false) s)).lcd
      = some (l.onRise (readFrame s.bl rs true)) := by
    simp only [busWrite_lcd, hl, Option.map_some, busWrite_latch, onBusWrite_low l he (h2 false),
      onBusWrite_rise l (h2 false) (h2 true)]
  constructor
  · rw [sampleNibble_fst, nextReply, k]
    simp [hr, replyAnswer]
  · exact k

/-- A register read with a responder in step gives what it presents, and leaves it in step. -/
theorem regRead_inStep {s : State} {l : Lcd} (h : s.inStep l) (rs : Bool) :
    (regRead rs s).1 = l.presents rs ∧ (regRead rs s).2.inStep (l.afterRead rs) ∧
    sentBytes (regRead rs s).2.trace = sentBytes s.trace ++ readFrames s.bl rs := by
  obtain ⟨hl, hm, hp, he, hr⟩ := h
  replace he : s.latch.getLsbD 2 = false := by simpa [State.eLow] using he
  have f1 : ∀ e, (readFrame s.bl rs e).getLsbD 1 = true := by simp
  have f2 : ∀ e, (readFrame s.bl rs e).getLsbD 2 = e := by simp
  have f0 : ∀ e, (readFrame s.bl rs e).getLsbD 0 = rs := by simp
  obtain ⟨a1, a2⟩ := sampleNibble_lcd hl he hr rs
  have r1 : l.onRise (readFrame s.bl rs true) = { l with rd := l.presents rs } := by
    simp only [Lcd.onRise, f1, f0, hp]; rfl
  rw [r1] at a1 a2
  generalize hs1 : (sampleNibble rs s).2 = s1 at a2
  have b1 : s1.bl = s.bl := by rw [← hs1]; simp
  have c1 : s1.latch = readFrame s.bl rs true := by rw [← hs1]; simp
  have d1 : s1.replies = [] := by rw [← hs1]; simp [hr]
  -- the second sample: the low E before it makes the phase low
  have k : (busWrite (readFrame s.bl rs false) s1).lcd = some { l with rd := l.presents rs, phase := .lo } := by
    simp only [busWrite_lcd, a2, Option.map_some, c1, onBusWrite_fall _ (f2 true) (f2 false), f1, if_true,
      Lcd.onFallRead, hp]
  have k2 : (busWrite (readFrame s.bl rs true) (busWrite (readFrame s.bl rs false) s1)).lcd
      = some { l with rd := l.presents rs, phase := .lo } := by
    rw [busWrite_lcd, k]
    simp only [Option.map_some, busWrite_latch, onBusWrite_rise _ (f2 false) (f2 true), Lcd.onRise]
    simp
  have a3 : (sampleNibble rs s1).1
      = .byte (({ l with rd := l.presents rs, phase := .lo } : Lcd).pins (readFrame s.bl rs true)) := by
    rw [sampleNibble_fst, b1, nextReply, k2]
    simp [d1, replyAnswer]
  have a4 : (sampleNibble rs s1).2.lcd = some { l with rd := l.presents rs, phase := .lo } := by
    simp only [sampleNibble, busRead1_lcd, b1, busWrite_bl, k2]
  rw [pins_read] at a1 a3
  simp only [hp] at a1
  rcases regRead_cases rs s with ⟨h1, -⟩ | ⟨_, -, h2, -⟩ | ⟨v1, v2, h1, h2, h3⟩
  · rw [a1] at h1; cases h1
  · rw [hs1, a3] at h2; cases h2
  · rw [hs1] at h2 h3
    rw [a1] at h1; rw [a3] at h2
    cases h1; cases h2
    rw [h3]
    refine ⟨?_, ⟨?_, ?_, ?_, ?_, ?_⟩, ?_⟩
    · rw [joinSamples_append, nibbles_append]
    · have c2 : (sampleNibble rs s1).2.latch = readFrame s.bl rs true := by rw [sampleNibble_latch, b1]
      rw [busWrite_lcd, a4, c2]
      simp only [Option.map_some, onBusWrite_fall _ (f2 true) (f2 false), f1, f0, if_true, Lcd.onFallRead,
        Lcd.afterRead]
      cases rs <;> rfl
    · cases rs <;> exact hm
    · cases rs <;> rfl
    · simp [State.eLow]
    · simp [d1]
    · have e1 := sampleNibble_trace rs s
      have e2 := sampleNibble_trace rs s1
      rw [hs1] at e1
      rw [busWrite_trace, e2, e1, b1]
      simp only [sentBytes_append, List.append_assoc]
      rfl

/-- The two nibble writes of a byte, with a responder in step, make it execute the byte. -/
theorem byteWrite_inStep {s : State} {l : Lcd} (h : s.inStep l) (rs : Bool) (v : Byte) :
    (byteWrite rs v s).inStep { l.execute rs v with hold := v.extractLsb' 4 4, phase := .hi } := by
  obtain ⟨hl, hm, hp, he, hr⟩ := h
  replace he : s.latch.getLsbD 2 = false := by simpa [State.eLow] using he
  have f1 : ∀ n e, (writeFrame s.bl n rs e).getLsbD 1 = false := by simp
  have f2 : ∀ n e, (writeFrame s.bl n rs e).getLsbD 2 = e := by simp
  have f0 : ∀ n e, (writeFrame s.bl n rs e).getLsbD 0 = rs := by simp
  -- one nibble, E low before it
  have nib : ∀ (n : Byte) (t : State) (k : Lcd), t.lcd = some k → t.bl = s.bl → t.latch.getLsbD 2 = false →
      (nibbleWrite rs n t).lcd = some (k.onFallWrite (writeFrame s.bl n rs false)) := by
    intro n t k hk hb hlow
    have hrise : k.onRise (writeFrame s.bl n rs true) = k := by
      simp only [Lcd.onRise, f1, Bool.false_and, Bool.false_eq_true, if_false]
    simp only [nibbleWrite, busWrite_lcd, busWrite_latch, busWrite_bl, hk, hb, Option.map_some,
      onBusWrite_rise _ hlow (f2 n true), hrise, onBusWrite_high _ (f2 n true) (f2 n true),
      onBusWrite_fall _ (f2 n true) (f2 n false), f1, Bool.false_eq_true, if_false]
  have n1 := nib (highNibble v) s l hl rfl he
  have w1 : l.onFallWrite (writeFrame s.bl (highNibble v) rs false)
      = { l with hold := v.extractLsb' 4 4, phase := .lo } := by
    simp only [Lcd.onFallWrite, hm, hp, if_true, writeFrame_data, highNibble_data]
  rw [w1] at n1
  have n2 := nib (lowNibble v) (nibbleWrite rs (highNibble v) s) _ n1 (by simp) (by simp)
  have w2 : ({ l with hold := v.extractLsb' 4 4, phase := .lo } : Lcd).onFallWrite
      (writeFrame s.bl (lowNibble v) rs false)
      = { l.execute rs v with hold := v.extractLsb' 4 4, phase := .hi } := by
    unfold Lcd.onFallWrite
    rw [if_pos (by exact hm)]
    simp only [joinNibbles, writeFrame_data, lowNibble_data, nibbles_append, f0, execute_hold]
  refine ⟨n2.trans (congrArg some w2), ?_, rfl, by simp [State.eLow], by simp [hr]⟩
  exact (execute_control l rs v).2.1.trans hm

/-! ## Micro-operations with a responder in step -/

/-- Two controllers with the same memories, address counter, space, direction and busy flag. -/
structure SameCore (l k : Lcd) : Prop where
  ac : k.ac = l.ac
  space : k.space = l.space
  dd : k.dd = l.dd
  cg : k.cg = l.cg
  inc : k.inc = l.inc
  bf : k.bf = l.bf

theorem SameCore.refl (l : Lcd) : SameCore l l := ⟨rfl, rfl, rfl, rfl, rfl, rfl⟩

theorem SameCore.trans {l k j : Lcd} (h : SameCore l k) (g : SameCore k j) : SameCore l j :=
  ⟨g.1.trans h.1, g.2.trans h.2, g.3.trans h.3, g.4.trans h.4, g.5.trans h.5, g.6.trans h.6⟩

theorem SameCore.memRead {l k : Lcd} (h : SameCore l k) : k.memRead = l.memRead := by
  unfold Lcd.memRead; rw [h.space, h.dd, h.cg, h.ac]

theorem SameCore.stepAC {l k : Lcd} (h : SameCore l k) : SameCore l.stepAC k.stepAC :=
  ⟨by simp [Lcd.stepAC, h.inc, h.ac], h.space, h.dd, h.cg, h.inc, h.bf⟩

/-- What a byte does depends on, and shows in, the core alone. -/
theorem SameCore.execute {l k : Lcd} (h : SameCore l k) (rs : Bool) (v : Byte) :
    SameCore (l.execute rs v) (k.execute rs v) := by
  unfold Lcd.execute
  split
  · refine SameCore.stepAC ?_
    unfold Lcd.memWrite
    rw [h.space]
    split
    · exact ⟨h.ac, rfl, by rw [h.dd, h.ac], h.cg, h.inc, h.bf⟩
    · exact ⟨h.ac, rfl, h.dd, by rw [h.cg, h.ac], h.inc, h.bf⟩
  · unfold Lcd.instruction
    split_ifs <;> first
      | exact h
      | exact ⟨rfl, rfl, h.dd, h.cg, h.inc, h.bf⟩
      | exact ⟨h.ac, h.space, h.dd, h.cg, rfl, h.bf⟩
      | exact ⟨rfl, rfl, rfl, h.cg, rfl, h.bf⟩

theorem afterRead_core (l : Lcd) (rs : Bool) : SameCore (if rs then l.stepAC else l) (l.afterRead rs) := by
  cases rs <;> exact ⟨rfl, rfl, rfl, rfl, rfl, rfl⟩

/-- A full register write with a responder in step that is not busy: the poll takes one turn and the controller
executes the byte. -/
theorem regWrite_inStep {s : State} {l : Lcd} (h : s.inStep l) (hb : l.bf = false) (rs : Bool) (v : Byte) :
    ∃ t k, regWrite rs v s = .done t ∧ SameBlock s t ∧ t.inStep k ∧ SameCore (l.execute rs v) k ∧ k.bf = false := by
  obtain ⟨a1, a2, -⟩ := regRead_inStep h false
  have hf : busyFlag (regRead false s).1 = false := by
    rw [a1]; exact (busyFlag_append l.bf l.ac).trans hb
  have c : SameCore (l.execute rs v)
      { (l.afterRead false).execute rs v with hold := v.extractLsb' 4 4, phase := .hi } := by
    have := (afterRead_core l false).execute rs v
    exact ⟨this.ac, this.space, this.dd, this.cg, this.inc, this.bf⟩
  refine ⟨_, _, by rw [regWrite_eq, hf]; rfl, (regRead_sameBlock false s).trans (byteWrite_sameBlock rs v _),
    byteWrite_inStep a2 rs v, c, ?_⟩
  exact c.bf.trans ((execute_control l rs v).1.trans hb)

/-- `SaveAC` with a responder in step. -/
theorem saveAC_inStep {s : State} {l : Lcd} (h : s.inStep l) :
    ∃ t k, micro .saveAC s = .done t ∧ SameBlock { s with saved := 0#1 ++ l.ac } t ∧ t.inStep k ∧ SameCore l k := by
  obtain ⟨a1, a2, -⟩ := regRead_inStep h false
  have b := regRead_sameBlock false s
  refine ⟨_, _, micro_saveAC s, ?_, a2, afterRead_core l false⟩
  rw [a1]
  exact ⟨b.cfg, b.em, b.dc, b.sh, b.fs, b.bl, b.seq, statusAddress_append l.bf l.ac, b.value, b.cmdPort,
    b.responses, b.resetIn⟩

/-- A data read with a responder in step. -/
theorem readData_inStep {s : State} {l : Lcd} (h : s.inStep l) :
    ∃ t k, micro .readData s = .done t ∧ SameBlock { s with value := l.memRead } t ∧ t.inStep k ∧
      SameCore l.stepAC k := by
  obtain ⟨a1, a2, -⟩ := regRead_inStep h true
  have b := regRead_sameBlock true s
  refine ⟨_, _, micro_readData s, ?_, a2, afterRead_core l true⟩
  rw [a1]
  exact ⟨b.cfg, b.em, b.dc, b.sh, b.fs, b.bl, b.seq, b.saved, rfl, b.cmdPort, b.responses, b.resetIn⟩

end Sys2Proof.Machine
end

