-- ==== Sys2Proof/Laws/Script.lean ====
section
/-!
SUPPORT. Runs whose reads are answered from the script: what each micro-operation consumes and sends, however its
reads are answered, and then for reads answered by two bytes each.
-/

namespace Sys2Proof.Machine

open Sys2Proof

/-! ## However the reads are answered -/

@[simp] theorem value_short1 (r : Reply) : (ReadAnswer.short1 r).value = 0x00 := rfl

@[simp] theorem value_short2 (v1 : Byte) (r : Reply) : (ReadAnswer.short2 v1 r).value = 0x00 := rfl

theorem answerReplies_cons (a : ReadAnswer) (as : List ReadAnswer) (rest : List Reply) :
    answerReplies (a :: as) ++ rest = a.replies ++ (answerReplies as ++ rest) := by simp [answerReplies]

@[simp] theorem freeAnswers_nil : freeAnswers [] := by simp [freeAnswers]

@[simp] theorem freeAnswers_cons (a : ReadAnswer) (as : List ReadAnswer) :
    freeAnswers (a :: as) ↔ (a.legal = true ∧ a.value.getLsbD 7 = false) ∧ freeAnswers as := by simp [freeAnswers]

/-- A full register write whose status read does not find the busy flag set (R118, R119). -/
theorem regWrite_answer {s : State} {a : ReadAnswer} {rest : List Reply} (rs : Bool) (v : Byte)
    (h : s.replies = a.replies ++ rest) (ha : a.legal = true) (hf : a.value.getLsbD 7 = false) :
    ∃ t, regWrite rs v s = .done t ∧ SameBlock s t ∧ t.replies = rest ∧
      t.trace = s.trace ++ (a.events s.cfg.addr s.bl false ++ writeEvents s.cfg.addr (byteFrames s.bl rs v)) := by
  obtain ⟨h1, h2, h3⟩ := regRead_answer false h ha
  have hb : busyFlag (regRead false s).1 = false := by rw [h1]; exact hf
  refine ⟨byteWrite rs v (regRead false s).2, by rw [regWrite_eq, hb]; rfl, ?_, ?_, ?_⟩
  · exact (regRead_sameBlock false s).trans (byteWrite_sameBlock rs v _)
  · simpa using h3
  · simp [h2]

/-- Full register writes in a row, no status read of which finds the busy flag set. -/
theorem run_writes_answer (bytes : List (Bool × Byte)) (ms : List Micro) {s : State} {polls : List ReadAnswer}
    {rest : List Reply} (hl : polls.length = bytes.length) (hp : freeAnswers polls)
    (h : s.replies = answerReplies polls ++ rest) :
    ∃ t, run (bytes.map (fun b => .regWrite b.1 b.2) ++ ms) s = run ms t ∧ SameBlock s t ∧ t.replies = rest ∧
      t.trace = s.trace ++ answeredCycles s.cfg.addr s.bl polls bytes := by
  induction bytes generalizing s polls with
  | nil =>
    cases polls with
    | nil => exact ⟨s, rfl, SameBlock.refl s, by simpa [answerReplies] using h, by simp [answeredCycles]⟩
    | cons p ps => simp at hl
  | cons b bs ih =>
    cases polls with
    | nil => simp at hl
    | cons p ps =>
      rw [answerReplies_cons] at h
      rw [freeAnswers_cons] at hp
      obtain ⟨t, h1, h2, h3, h4⟩ := regWrite_answer b.1 b.2 h hp.1.1 hp.1.2
      obtain ⟨u, k1, k2, k3, k4⟩ := ih (by simpa using hl) hp.2 h3
      refine ⟨u, ?_, h2.trans k2, k3, ?_⟩
      · rw [List.map_cons, List.cons_append, run_cons_done _ ((micro_regWrite b.1 b.2 s).trans h1), k1]
      · rw [k4, h4, h2.cfg, h2.bl]; simp [answeredCycles]

/-- `SaveAC`: an aborted one saves 0 (R122, R124). -/
theorem run_saveAC_answer (ms : List Micro) {s : State} {a : ReadAnswer} {rest : List Reply}
    (h : s.replies = a.replies ++ rest) (ha : a.legal = true) :
    ∃ t, run (.saveAC :: ms) s = run ms t ∧ SameBlock { s with saved := a.value &&& 0x7F } t ∧
      t.replies = rest ∧ t.trace = s.trace ++ a.events s.cfg.addr s.bl false := by
  obtain ⟨h1, h2, h3⟩ := regRead_answer false h ha
  refine ⟨_, run_cons_done ms (micro_saveAC s), ?_, h3, h2⟩
  rw [h1]
  have k := regRead_sameBlock false s
  exact ⟨k.cfg, k.em, k.dc, k.sh, k.fs, k.bl, k.seq, rfl, k.value, k.cmdPort, k.responses, k.resetIn⟩

/-- A data read: an aborted one reads 0 (R117). -/
theorem run_readData_answer (ms : List Micro) {s : State} {a : ReadAnswer} {rest : List Reply}
    (h : s.replies = a.replies ++ rest) (ha : a.legal = true) :
    ∃ t, run (.readData :: ms) s = run ms t ∧ SameBlock { s with value := a.value } t ∧
      t.replies = rest ∧ t.trace = s.trace ++ a.events s.cfg.addr s.bl true := by
  obtain ⟨h1, h2, h3⟩ := regRead_answer true h ha
  refine ⟨_, run_cons_done ms (micro_readData s), ?_, h3, h2⟩
  rw [h1]
  have k := regRead_sameBlock true s
  exact ⟨k.cfg, k.em, k.dc, k.sh, k.fs, k.bl, k.seq, k.saved, rfl, k.cmdPort, k.responses, k.resetIn⟩

/-- `RestoreAC`, its status read not finding the busy flag set. -/
theorem run_restoreAC_answer (ms : List Micro) {s : State} {a : ReadAnswer} {rest : List Reply}
    (h : s.replies = a.replies ++ rest) (ha : a.legal = true) (hf : a.value.getLsbD 7 = false) :
    ∃ t, run (.restoreAC :: ms) s = run ms t ∧ SameBlock s t ∧ t.replies = rest ∧
      t.trace = s.trace ++ answeredCycles s.cfg.addr s.bl [a] [(false, s.saved ||| 0x80)] := by
  obtain ⟨t, h1, h2, h3, h4⟩ := regWrite_answer false (ddramSet s.saved) h ha hf
  exact ⟨t, run_cons_done ms (by rw [micro_restoreAC, h1]), h2, h3, by rw [h4]; simp [answeredCycles, ddramSet]⟩

/-! ## Two bytes each -/

/-- Answers of two bytes each. -/
def byteAnswers (ps : List (Byte × Byte)) : List ReadAnswer := ps.map fun p => .bytes p.1 p.2

@[simp] theorem byteAnswers_replies (ps : List (Byte × Byte)) : answerReplies (byteAnswers ps) = pairReplies ps := by
  simp [answerReplies, byteAnswers, pairReplies, List.flatMap_map, ReadAnswer.replies]

@[simp] theorem byteAnswers_cycles (addr : Addr7) (bl : Bool) (ps : List (Byte × Byte)) (bytes : List (Bool × Byte)) :
    answeredCycles addr bl (byteAnswers ps) bytes = cycleEvents addr bl ps bytes := by
  simp [answeredCycles, byteAnswers, cycleEvents, List.zip_map_left, List.flatMap_map, ReadAnswer.events]

theorem bytes_value_bit7 (v1 v2 : Byte) : (ReadAnswer.bytes v1 v2).value.getLsbD 7 = v1.getLsbD 7 :=
  busyFlag_joinSamples v1 v2

theorem byteAnswers_free {ps : List (Byte × Byte)} (h : freePolls ps) : freeAnswers (byteAnswers ps) := by
  intro a ha
  obtain ⟨p, hp, rfl⟩ := List.mem_map.1 ha
  exact ⟨rfl, (bytes_value_bit7 _ _).trans (h p hp)⟩

theorem pairReplies_cons (p : Byte × Byte) (ps : List (Byte × Byte)) (rest : List Reply) :
    pairReplies (p :: ps) ++ rest = byteReply p.1 :: byteReply p.2 :: (pairReplies ps ++ rest) := rfl

@[simp] theorem freePolls_nil : freePolls [] := by simp [freePolls]

@[simp] theorem freePolls_cons (p : Byte × Byte) (ps : List (Byte × Byte)) :
    freePolls (p :: ps) ↔ p.1.getLsbD 7 = false ∧ freePolls ps := by simp [freePolls]

/-- A full register write whose status read is free. -/
theorem regWrite_free {s : State} {p : Byte × Byte} {rest : List Reply} (rs : Bool) (v : Byte)
    (h : s.replies = byteReply p.1 :: byteReply p.2 :: rest) (hp : p.1.getLsbD 7 = false) :
    ∃ t, regWrite rs v s = .done t ∧ SameBlock s t ∧ t.replies = rest ∧
      t.trace = s.trace ++ (readEvents s.cfg.addr s.bl false p.1 p.2 ++ writeEvents s.cfg.addr (byteFrames s.bl rs v)) :=
  regWrite_answer (a := .bytes p.1 p.2) rs v h rfl ((bytes_value_bit7 _ _).trans hp)

/-- A full register write whose status read is busy. -/
theorem regWrite_busy {s : State} {p : Byte × Byte} {rest : List Reply} (rs : Bool) (v : Byte)
    (h : s.replies = byteReply p.1 :: byteReply p.2 :: rest) (hp : p.1.getLsbD 7 = true) :
    ∃ t, regWrite rs v s = .busy t ∧ SameBlock s t ∧ t.replies = rest ∧
      t.trace = s.trace ++ readEvents s.cfg.addr s.bl false p.1 p.2 := by
  obtain ⟨h1, h2, h3, -⟩ := regRead_bytes false h
  have hb : busyFlag (regRead false s).1 = true := by rw [h1, busyFlag_joinSamples, hp]
  exact ⟨(regRead false s).2, by rw [regWrite_eq, hb]; rfl, regRead_sameBlock false s, h3, h2⟩

/-- Full register writes in a row, each status read free. -/
theorem run_writes (bytes : List (Bool × Byte)) (ms : List Micro) {s : State} {polls : List (Byte × Byte)}
    {rest : List Reply} (hl : polls.length = bytes.length) (hp : freePolls polls)
    (h : s.replies = pairReplies polls ++ rest) :
    ∃ t, run (bytes.map (fun b => .regWrite b.1 b.2) ++ ms) s = run ms t ∧ SameBlock s t ∧ t.replies = rest ∧
      t.trace = s.trace ++ cycleEvents s.cfg.addr s.bl polls bytes := by
  obtain ⟨t, h1, h2, h3, h4⟩ := run_writes_answer bytes ms (polls := byteAnswers polls)
    (by simpa [byteAnswers] using hl) (byteAnswers_free hp) (by simpa using h)
  exact ⟨t, h1, h2, h3, by simpa using h4⟩

/-- A data read answered by two bytes. -/
theorem run_readData (ms : List Micro) {s : State} {p : Byte × Byte} {rest : List Reply}
    (h : s.replies = byteReply p.1 :: byteReply p.2 :: rest) :
    ∃ t, run (.readData :: ms) s = run ms t ∧ SameBlock { s with value := joinSamples p.1 p.2 } t ∧
      t.replies = rest ∧ t.trace = s.trace ++ readEvents s.cfg.addr s.bl true p.1 p.2 :=
  run_readData_answer (a := .bytes p.1 p.2) ms h rfl

/-- `SaveAC` answered by two bytes. -/
theorem run_saveAC (ms : List Micro) {s : State} {p : Byte × Byte} {rest : List Reply}
    (h : s.replies = byteReply p.1 :: byteReply p.2 :: rest) :
    ∃ t, run (.saveAC :: ms) s = run ms t ∧ SameBlock { s with saved := joinSamples p.1 p.2 &&& 0x7F } t ∧
      t.replies = rest ∧ t.trace = s.trace ++ readEvents s.cfg.addr s.bl false p.1 p.2 :=
  run_saveAC_answer (a := .bytes p.1 p.2) ms h rfl

/-- `RestoreAC`, its status read free. -/
theorem run_restoreAC (ms : List Micro) {s : State} {p : Byte × Byte} {rest : List Reply}
    (h : s.replies = byteReply p.1 :: byteReply p.2 :: rest) (hp : p.1.getLsbD 7 = false) :
    ∃ t, run (.restoreAC :: ms) s = run ms t ∧ SameBlock s t ∧ t.replies = rest ∧
      t.trace = s.trace ++ cycleEvents s.cfg.addr s.bl [p] [(false, s.saved ||| 0x80)] :=
  run_restoreAC_answer (a := .bytes p.1 p.2) ms h rfl ((bytes_value_bit7 _ _).trans hp)

end Sys2Proof.Machine
end

