-- ==== Sys2Proof/Laws/Exec.lean ====
section
/-!
SUPPORT. What a command does, once for all: it is taken at `READY`, it changes its own register, and then
it is a run of micro-operations that ends in its response. And what a step is, position by position.
-/

namespace Sys2Proof.Machine

open Sys2Proof

/-! ## Commands -/

theorem command_ready {s : State} (h : s.seq = .ready) (f : State → State) : command s f = .next (f s.accept) := by
  simp only [command, h]

theorem commandOps_ready {s : State} (h : s.seq = .ready) (ops : List Micro) :
    commandOps s ops = .next (run ops s.accept) := command_ready h (run ops)

theorem command_next {s t : State} {f : State → State} (h : command s f = .next t) :
    s.seq = .ready ∧ t = f s.accept := by
  unfold command at h
  split at h
  · exact ⟨‹_›, (by injection h with h; exact h.symm)⟩
  · cases h
  · cases h

theorem command_closed {s : State} (h : s.seq ≠ .ready) (f : State → State) :
    command s f = .refused .portClosed := by
  unfold command
  split <;> first | rfl | contradiction

theorem exec_readAddressCounter (s : State) : exec .readAddressCounter s
    = command s fun a => run [.ret (.byte (statusAddress (regRead false a).1))] (regRead false a).2 := rfl

theorem exec_readBusyFlag (s : State) : exec .readBusyFlag s
    = command s fun a => run [.ret (.bool (busyFlag (regRead false a).1))] (regRead false a).2 := rfl

theorem backlightCommand_ready {s : State} (h : s.seq = .ready) (on : Bool) (change : Byte → Byte) :
    backlightCommand on change s = .next (match busRead1 s.accept with
      | (.short, a) => run [.ret (.bool false)] a
      | (.byte p, a) => run [.bus (change p), .ret (.bool true)] { a with bl := on }) := command_ready h _

theorem updateDC_ready {s : State} (h : s.seq = .ready) (mask : Byte) :
    updateDC mask s = .next (run [.regWrite false (upd s.dc mask), .ret .unit]
      { s.accept with dc := upd s.dc mask }) := command_ready h _

theorem updateEM_ready {s : State} (h : s.seq = .ready) (mask : Byte) :
    updateEM mask s = .next (run [.regWrite false (upd s.em mask), .ret .unit]
      { s.accept with em := upd s.em mask }) := command_ready h _

theorem updateSH_ready {s : State} (h : s.seq = .ready) (mask : Byte) :
    updateSH mask s = .next (run [.regWrite false (updSH mask), .ret .unit]
      { s.accept with sh := updSH mask }) := command_ready h _

theorem run_rets (r : List Response) (s : State) :
    run (r.map .ret) s = ({ s with responses := s.responses ++ r } : State).finish := by
  induction r generalizing s with
  | nil => simp
  | cons a r ih =>
    rw [List.map_cons, run_cons_done _ (micro_ret a s), ih]
    simp [State.respond]

/-- A full register write and its responses, from a state `a` in which a command is in progress and whose bus
part is that of `s`. -/
theorem run_sends {s a : State} (hb : a = s.onRest a) (hq : a.seq = .exec) (hr : a.responses = s.responses)
    (rs : Bool) (v : Byte) (r : List Response) :
    sendsByte rs v r s (run (.regWrite rs v :: r.map .ret) a) := by
  have e : regRead false a = ((regRead false s).1, (regRead false s).2.onRest a) := by
    rw [hb]; exact regRead_onRest false s a
  constructor
  · intro hf
    have hf' : busyFlag (regRead false a).1 = false := by simpa [State.statusFree, e] using hf
    have h1 : micro (.regWrite rs v) a = .done (byteWrite rs v ((regRead false s).2.onRest a)) := by
      rw [micro_regWrite, regWrite_eq, hf', e]; rfl
    rw [run_cons_done _ h1, run_rets]
    refine ⟨?_, rfl, rfl, rfl, ?_, ?_⟩
    · simp [State.finish, State.onRest, hq, nextSeq]
    · simp [State.finish, State.onRest, hr]
    · simp [State.finish, State.onRest]
  · intro hf
    have hf' : busyFlag (regRead false a).1 = true := by simpa [State.statusFree, e] using hf
    have h1 : micro (.regWrite rs v) a = .busy ((regRead false s).2.onRest a) := by
      rw [micro_regWrite, regWrite_eq, hf', e]; rfl
    rw [run_cons_busy _ h1]
    exact ⟨hq, rfl, hr, rfl⟩

/-! ## The state a command runs from -/

/-- The commands that write `EM` (R21). -/
def writesEM : List Instr := [.displayToLeft, .displayToRight, .enableShiftOnWrite, .disableShiftOnWrite]

/-- The commands that write `DC` (R21). -/
def writesDC : List Instr :=
  [.enableDisplay, .disableDisplay, .enableCursor, .disableCursor, .enableBlinking, .disableBlinking]

/-- The commands that write `SH` (R21). -/
def writesSH : List Instr := [.shiftCursorLeft, .shiftCursorRight, .shiftDisplayLeft, .shiftDisplayRight]

/-- The commands that write `BL` (R29). -/
def writesBL : List Instr := [.enableBacklight, .disableBacklight]

/-- The state `a` from which command `i`, given in state `s`, runs its micro-operations. -/
structure Begun (i : Instr) (s a : State) : Prop where
  cfg : a.cfg = s.cfg
  fs : a.fs = s.fs
  cmdPort : a.cmdPort = s.cmdPort
  resetIn : a.resetIn = s.resetIn
  seq : a.seq = .exec
  responses : a.responses = s.responses
  em : i ∉ writesEM → a.em = s.em
  dc : i ∉ writesDC → a.dc = s.dc
  sh : i ∉ writesSH → a.sh = s.sh
  bl : i ∉ writesBL → a.bl = s.bl
  now : s.now ≤ a.now
  memory : s.memoryLegal = true → a.memoryLegal = true
  registers : s.registersLegal = true → a.registersLegal = true
  trace : ∃ new, a.trace = s.trace ++ new ∧ (∀ e ∈ new, e.address = some s.cfg.addr) ∧
    ∀ b ∈ sentBytes new, b.getLsbD 3 = a.bl

theorem Begun.accept (i : Instr) (s : State) : Begun i s s.accept :=
  ⟨rfl, rfl, rfl, rfl, rfl, rfl, fun _ => rfl, fun _ => rfl, fun _ => rfl, fun _ => rfl, le_rfl, id, id,
    [], by simp, by simp, by simp [sentBytes]⟩

/-- `upd` with a mask of `DC`'s bits keeps `DC`'s tag and zero bits (R23). -/
theorem upd_dc_legal (dc : Byte) (h : (dc &&& 0xF8 == 0x08) = true) :
    (upd dc 0x04 &&& 0xF8 == 0x08) = true ∧ (upd dc 0xFB &&& 0xF8 == 0x08) = true ∧
    (upd dc 0x02 &&& 0xF8 == 0x08) = true ∧ (upd dc 0xFD &&& 0xF8 == 0x08) = true ∧
    (upd dc 0x01 &&& 0xF8 == 0x08) = true ∧ (upd dc 0xFE &&& 0xF8 == 0x08) = true := by
  revert dc; decide

/-- `upd` with a mask of `EM`'s bits keeps `EM`'s tag and zero bits (R22). -/
theorem upd_em_legal (em : Byte) (h : (em &&& 0xFC == 0x04) = true) :
    (upd em 0xFD &&& 0xFC == 0x04) = true ∧ (upd em 0x02 &&& 0xFC == 0x04) = true ∧
    (upd em 0x01 &&& 0xFC == 0x04) = true ∧ (upd em 0xFE &&& 0xFC == 0x04) = true := by
  revert em; decide

theorem registersLegal_iff (s : State) : s.registersLegal = true ↔
    (s.em &&& 0xFC == 0x04) = true ∧ (s.dc &&& 0xF8 == 0x08) = true ∧ (s.sh &&& 0xF3 == 0x10) = true ∧
    (s.fs &&& 0xF3 == 0x20) = true := by
  simp only [State.registersLegal, Bool.and_eq_true, and_assoc]

theorem Begun.withDC {i : Instr} (hi : i ∈ writesDC) (s : State) {v : Byte}
    (hv : (s.dc &&& 0xF8 == 0x08) = true → (v &&& 0xF8 == 0x08) = true) : Begun i s { s.accept with dc := v } :=
  ⟨rfl, rfl, rfl, rfl, rfl, rfl, fun _ => rfl, fun h => absurd hi h, fun _ => rfl, fun _ => rfl, le_rfl, id,
    fun h => by rw [registersLegal_iff] at h ⊢; exact ⟨h.1, hv h.2.1, h.2.2⟩,
    [], by simp, by simp, by simp [sentBytes]⟩

theorem Begun.withEM {i : Instr} (hi : i ∈ writesEM) (s : State) {v : Byte}
    (hv : (s.em &&& 0xFC == 0x04) = true → (v &&& 0xFC == 0x04) = true) : Begun i s { s.accept with em := v } :=
  ⟨rfl, rfl, rfl, rfl, rfl, rfl, fun h => absurd hi h, fun _ => rfl, fun _ => rfl, fun _ => rfl, le_rfl, id,
    fun h => by rw [registersLegal_iff] at h ⊢; exact ⟨hv h.1, h.2⟩,
    [], by simp, by simp, by simp [sentBytes]⟩

theorem Begun.withSH {i : Instr} (hi : i ∈ writesSH) (s : State) {v : Byte}
    (hv : (v &&& 0xF3 == 0x10) = true) : Begun i s { s.accept with sh := v } :=
  ⟨rfl, rfl, rfl, rfl, rfl, rfl, fun _ => rfl, fun _ => rfl, fun h => absurd hi h, fun _ => rfl, le_rfl, id,
    fun h => by rw [registersLegal_iff] at h ⊢; exact ⟨h.1, h.2.1, hv, h.2.2.2⟩,
    [], by simp, by simp, by simp [sentBytes]⟩

theorem Begun.statusRead (i : Instr) (s : State) : Begun i s (regRead false s.accept).2 := by
  have f := regRead_sameBlock false s.accept
  obtain ⟨-, n1, g1, g2⟩ := (grown_kept s.accept).regRead false (grown_refl s.accept)
  obtain ⟨-, n2, k1, k2⟩ := (flagged_kept s.accept).regRead false (flagged_refl s.accept)
  have e : n1 = n2 := by rw [g1] at k1; exact List.append_cancel_left k1
  refine ⟨f.cfg, f.fs, f.cmdPort, f.resetIn, f.seq, f.responses, fun _ => f.em, fun _ => f.dc, fun _ => f.sh,
    fun _ => f.bl, regRead_now_le false s.accept, fun h => memoryLegal_kept.regRead false h, ?_, n1, g1, g2, ?_⟩
  · intro h
    rw [registersLegal_iff] at h ⊢
    rw [f.em, f.dc, f.sh, f.fs]
    exact h
  · rw [e, f.bl]; exact k2

theorem Begun.busRead {i : Instr} (hi : i ∈ writesBL) (s : State) (b : Bool) :
    Begun i s { (busRead1 s.accept).2 with bl := b } :=
  ⟨rfl, rfl, rfl, rfl, rfl, rfl, fun _ => rfl, fun _ => rfl, fun _ => rfl, fun h => absurd hi h,
    Nat.le_add_right _ _, id, id,
    [.read s.cfg.addr (busRead1 s.accept).1], rfl, by simp [Event.address], by simp [sentBytes, Event.sent]⟩

/-! ## Every command -/

/-- The micro-operations in front of a command's response: codec operations, or the one bare transmission of a
backlight command. -/
def plainOps (bl : Bool) (ops : List Micro) : Prop :=
  (∀ m ∈ ops, m.isCodec = true) ∨ ∃ b : Byte, ops = [.bus b] ∧ b.getLsbD 3 = bl

theorem plainOps.mem {bl : Bool} {ops : List Micro} (h : plainOps bl ops) {m : Micro} (hm : m ∈ ops) :
    m.isCodec = true ∨ ∃ b : Byte, m = .bus b ∧ b.getLsbD 3 = bl := by
  rcases h with h | ⟨b, rfl, hb⟩
  · exact .inl (h m hm)
  · exact .inr ⟨b, List.mem_singleton.1 hm, hb⟩

/-- A command's last micro-operation gives its response, of the kind of the opcode map (R81, R82). -/
def answers (i : Instr) (m : Micro) : Prop :=
  (∃ r : Response, m = .ret r ∧ i.responseKind = some r.kind) ∨ (m = .retValue ∧ i.responseKind = some .byte)

theorem answers.kind {i : Instr} {m : Micro} (h : answers i m) :
    ∃ k, m.answerKind = some k ∧ i.responseKind = some k := by
  rcases h with ⟨r, rfl, h⟩ | ⟨rfl, h⟩ <;> exact ⟨_, rfl, h⟩

theorem cursorOps_codec (sizeX x y : Byte) : ∀ m ∈ cursorOps sizeX x y, m.isCodec = true := by
  unfold cursorOps; split <;> simp [Micro.isCodec]

theorem dataWrites_codec (d : List Byte) : ∀ m ∈ dataWrites d, m.isCodec = true := by
  simp [dataWrites, Micro.isCodec]

theorem saveAccessRestore_codec (a : Byte) {data : List Micro} (h : ∀ m ∈ data, m.isCodec = true) :
    ∀ m ∈ saveAccessRestore a data, m.isCodec = true := by
  intro m hm
  simp only [saveAccessRestore, List.mem_cons, List.mem_append, List.not_mem_nil, or_false] at hm
  rcases hm with rfl | rfl | hm | rfl <;> first | rfl | exact h m hm

theorem plainOps_codec {bl : Bool} {ops : List Micro} (h : ∀ m ∈ ops, m.isCodec = true) : plainOps bl ops :=
  .inl h

/-- What a command that gives a next state has done: it was taken at `READY`; from the state `a` it has run
micro-operations that end in its response. -/
theorem exec_command_next {i : Instr} {s t : State} (hc : isCommand i = true) (h : exec i s = .next t) :
    s.seq = .ready ∧ ∃ a ops last, Begun i s a ∧ plainOps a.bl ops ∧ answers i last ∧ t = run (ops ++ [last]) a := by
  have glyph : ∀ {op n base d}, i.responseKind = some .unit → glyphCommand op n base d s = .next t →
      s.seq = .ready ∧ ∃ a ops last, Begun i s a ∧ plainOps a.bl ops ∧ answers i last ∧
        t = run (ops ++ [last]) a := by
    intro op n base d hi h
    unfold glyphCommand at h
    split at h
    · obtain ⟨hr, rfl⟩ := command_next h
      exact ⟨hr, _, _, _, Begun.accept i s, plainOps_codec (saveAccessRestore_codec _ (dataWrites_codec d)),
        .inl ⟨.unit, rfl, hi⟩, rfl⟩
    · cases h
  have light : ∀ {on change}, i.responseKind = some .bool → i ∈ writesBL → (∀ p : Byte, (change p).getLsbD 3 = on) →
      backlightCommand on change s = .next t →
      s.seq = .ready ∧ ∃ a ops last, Begun i s a ∧ plainOps a.bl ops ∧ answers i last ∧
        t = run (ops ++ [last]) a := by
    intro on change hi hw hb h
    obtain ⟨hr, rfl⟩ := command_next h
    refine ⟨hr, ?_⟩
    rcases hk : busRead1 s.accept with ⟨a, u⟩
    have hu : u = (busRead1 s.accept).2 := by rw [hk]
    cases a with
    | short =>
      refine ⟨u, [], .ret (.bool false), ?_, by simp [plainOps], .inl ⟨_, rfl, hi⟩, rfl⟩
      have := Begun.busRead hw s s.bl
      rw [hu]; exact this
    | byte p =>
      refine ⟨{ u with bl := on }, [.bus (change p)], .ret (.bool true), ?_, ?_, .inl ⟨_, rfl, hi⟩,
        rfl⟩
      · rw [hu]; exact Begun.busRead hw s on
      · exact .inr ⟨_, rfl, hb p⟩
  have dc : ∀ {mask}, i.responseKind = some .unit → i ∈ writesDC →
      ((s.dc &&& 0xF8 == 0x08) = true → (upd s.dc mask &&& 0xF8 == 0x08) = true) → updateDC mask s = .next t →
      s.seq = .ready ∧ ∃ a ops last, Begun i s a ∧ plainOps a.bl ops ∧ answers i last ∧
        t = run (ops ++ [last]) a := by
    intro mask hi hw hv h
    obtain ⟨hr, rfl⟩ := command_next h
    exact ⟨hr, _, [_], _, Begun.withDC hw s hv, by simp [plainOps, Micro.isCodec], .inl ⟨.unit, rfl, hi⟩, rfl⟩
  have em : ∀ {mask}, i.responseKind = some .unit → i ∈ writesEM →
      ((s.em &&& 0xFC == 0x04) = true → (upd s.em mask &&& 0xFC == 0x04) = true) → updateEM mask s = .next t →
      s.seq = .ready ∧ ∃ a ops last, Begun i s a ∧ plainOps a.bl ops ∧ answers i last ∧
        t = run (ops ++ [last]) a := by
    intro mask hi hw hv h
    obtain ⟨hr, rfl⟩ := command_next h
    exact ⟨hr, _, [_], _, Begun.withEM hw s hv, by simp [plainOps, Micro.isCodec], .inl ⟨.unit, rfl, hi⟩, rfl⟩
  have sh : ∀ {mask}, i.responseKind = some .unit → i ∈ writesSH →
      (updSH mask &&& 0xF3 == 0x10) = true → updateSH mask s = .next t →
      s.seq = .ready ∧ ∃ a ops last, Begun i s a ∧ plainOps a.bl ops ∧ answers i last ∧
        t = run (ops ++ [last]) a := by
    intro mask hi hw hv h
    obtain ⟨hr, rfl⟩ := command_next h
    exact ⟨hr, _, [_], _, Begun.withSH hw s hv, by simp [plainOps, Micro.isCodec], .inl ⟨.unit, rfl, hi⟩, rfl⟩
  cases i with
  | clearDisplay | moveToHome | displayChar =>
    obtain ⟨hr, rfl⟩ := command_next h
    exact ⟨hr, _, [_], _, Begun.accept _ s, by simp [plainOps, Micro.isCodec], .inl ⟨.unit, rfl, rfl⟩, rfl⟩
  | enableDisplay => exact dc rfl (by decide) (fun h => (upd_dc_legal _ h).1) h
  | disableDisplay => exact dc rfl (by decide) (fun h => (upd_dc_legal _ h).2.1) h
  | enableCursor => exact dc rfl (by decide) (fun h => (upd_dc_legal _ h).2.2.1) h
  | disableCursor => exact dc rfl (by decide) (fun h => (upd_dc_legal _ h).2.2.2.1) h
  | enableBlinking => exact dc rfl (by decide) (fun h => (upd_dc_legal _ h).2.2.2.2.1) h
  | disableBlinking => exact dc rfl (by decide) (fun h => (upd_dc_legal _ h).2.2.2.2.2) h
  | displayToLeft => exact em rfl (by decide) (fun h => (upd_em_legal _ h).1) h
  | displayToRight => exact em rfl (by decide) (fun h => (upd_em_legal _ h).2.1) h
  | enableShiftOnWrite => exact em rfl (by decide) (fun h => (upd_em_legal _ h).2.2.1) h
  | disableShiftOnWrite => exact em rfl (by decide) (fun h => (upd_em_legal _ h).2.2.2) h
  | shiftCursorLeft | shiftCursorRight | shiftDisplayLeft | shiftDisplayRight =>
    exact sh rfl (by decide) (by decide) h
  | setCursor x y =>
    obtain ⟨hr, rfl⟩ := command_next h
    exact ⟨hr, _, _, _, Begun.accept _ s, plainOps_codec (cursorOps_codec _ x y), .inl ⟨.unit, rfl, rfl⟩, rfl⟩
  | eraseLine line =>
    obtain ⟨hr, rfl⟩ := command_next h
    refine ⟨hr, _, _, _, Begun.accept _ s, plainOps_codec ?_, .inl ⟨.unit, rfl, rfl⟩, rfl⟩
    intro m hm
    simp only [List.mem_append, or_assoc] at hm
    rcases hm with hm | hm | hm
    · exact cursorOps_codec _ _ _ m hm
    · exact dataWrites_codec _ m hm
    · exact cursorOps_codec _ _ _ m hm
  | writeDdram addr data | writeCgram addr data =>
    obtain ⟨hr, rfl⟩ := command_next h
    exact ⟨hr, _, _, _, Begun.accept _ s,
      plainOps_codec (saveAccessRestore_codec _ (by simp [Micro.isCodec])), .inl ⟨.unit, rfl, rfl⟩, rfl⟩
  | readDdram addr | readCgram addr =>
    obtain ⟨hr, rfl⟩ := command_next h
    exact ⟨hr, _, _, _, Begun.accept _ s,
      plainOps_codec (saveAccessRestore_codec _ (by simp [Micro.isCodec])), .inr ⟨rfl, rfl⟩, rfl⟩
  | writeGlyph5x8 slot d | writeGlyph5x10 slot d => exact glyph rfl h
  | enableBacklight => exact light rfl (by decide) (by decide) h
  | disableBacklight => exact light rfl (by decide) (by decide) h
  | getEntryMode | getDisplayControl | getShift | getFunctionSet =>
    obtain ⟨hr, rfl⟩ := command_next h
    exact ⟨hr, _, [], _, Begun.accept _ s, by simp [plainOps], .inl ⟨.byte _, rfl, rfl⟩, rfl⟩
  | readAddressCounter =>
    rw [exec_readAddressCounter] at h
    obtain ⟨hr, rfl⟩ := command_next h
    exact ⟨hr, _, [], _, Begun.statusRead _ s, by simp [plainOps], .inl ⟨.byte _, rfl, rfl⟩, rfl⟩
  | readBusyFlag =>
    rw [exec_readBusyFlag] at h
    obtain ⟨hr, rfl⟩ := command_next h
    exact ⟨hr, _, [], _, Begun.statusRead _ s, by simp [plainOps], .inl ⟨.bool _, rfl, rfl⟩, rfl⟩
  | _ => cases hc

/-- A word the block emits is its micro-operation, in front of what the sequencer has still to issue. -/
theorem exec_emitted {i : Instr} (hc : isCommand i = false) (s : State) :
    exec i s = emit s (emittedOps (encode i)) := by
  cases i <;> first | rfl | cases hc

/-- What the command port decodes is a command. -/
theorem decodeCommand_isCommand {bytes rest : List Byte} {i : Instr} (h : decodeCommand bytes = .ok (i, rest)) :
    isCommand i = true := by
  cases bytes with
  | nil => cases h
  | cons op data =>
    simp only [decodeCommand] at h
    unfold decodeOp at h
    split at h <;> (try (cases h; rfl))
    all_goals first
      | cases h
      | (obtain ⟨a, rfl, rfl⟩ := decodeOp_op1_ok.1 h; rfl)
      | (obtain ⟨a, b, rfl, rfl⟩ := decodeOp_op2_ok.1 h; rfl)
      | (obtain ⟨a, d, rfl, hd, rfl⟩ := decodeOp_glyph_ok.1 h; rfl)

/-! ## Steps -/

theorem step_reset {s : State} {p : Params} (h : s.resetIn = some p) : step s = .next (s.resetWith p) := by
  simp only [step, h]

theorem step_init {s : State} {k : Nat} (h : s.resetIn = none) (hs : s.seq = .init k) :
    step s = .next (initTurn k s) := by
  simp only [step, h, hs]

theorem step_exec {s : State} (h : s.resetIn = none) (hs : s.seq = .exec) : step s = .next (run s.ops s) := by
  simp only [step, h, hs]

theorem step_ready_none {s : State} (h : s.resetIn = none) (hs : s.seq = .ready) (hp : s.cmdPort = []) :
    step s = .next s := by
  simp only [step, h, hs, hp]

theorem step_ready_some {s : State} {i : Instr} {rest : List Byte} (h : s.resetIn = none) (hs : s.seq = .ready)
    (hd : decodeCommand s.cmdPort = .ok (i, rest)) : step s = exec i { s with cmdPort := rest } := by
  cases hp : s.cmdPort with
  | nil => rw [hp] at hd; cases hd
  | cons op bytes => rw [hp] at hd; simp only [step, h, hs, hp, hd]

/-- An init step begun. -/
theorem initTurn_begin {s : State} {k : Nat} {a : InitAction} (h : initAction s.cfg.family k = some a)
    (ho : s.ops = []) : initTurn k s = run (a.ops (a.prepare s)) (a.prepare s) := by
  simp only [initTurn, ho, h]

/-- An init step's register update leaves position, parameters, backlight flag and trace alone. -/
theorem prepare_same (a : InitAction) (s : State) :
    (a.prepare s).seq = s.seq ∧ (a.prepare s).cfg = s.cfg ∧ (a.prepare s).bl = s.bl ∧
    (a.prepare s).trace = s.trace := by
  cases a <;> exact ⟨rfl, rfl, rfl, rfl⟩

/-- An init step that goes on. -/
theorem initTurn_resume {s : State} {k : Nat} {m : Micro} {ms : List Micro} (ho : s.ops = m :: ms) :
    initTurn k s = run (m :: ms) s := by
  unfold initTurn
  rw [ho]

/-- A step in the middle of a command or of an init step goes on with what is left to issue. -/
theorem step_pending {s : State} {m : Micro} {ms : List Micro} (h0 : s.resetIn = none) (hq : s.seq ≠ .ready)
    (ho : s.ops = m :: ms) : step s = .next (run (m :: ms) s) := by
  cases hk : s.seq with
  | ready => exact absurd hk hq
  | exec => rw [step_exec h0 hk, ho]
  | init k => rw [step_init h0 hk, initTurn_resume ho]

/-- What an init step is: nothing, or its action from the state its register update makes, or what is left of it. -/
theorem initTurn_begun (k : Nat) (s : State) : initTurn k s = s.finish ∨
    (∃ a : InitAction, initTurn k s = run (a.ops (a.prepare s)) (a.prepare s)) ∨ initTurn k s = run s.ops s := by
  unfold initTurn
  split
  · exact .inr (.inl ⟨_, rfl⟩)
  · exact .inl rfl
  · rename_i h; rw [h]; exact .inr (.inr rfl)

/-- An init step leaves the parameters and the host's side alone. -/
theorem initTurn_frame (k : Nat) (s : State) : (initTurn k s).cmdPort = s.cmdPort ∧
    (initTurn k s).resetIn = s.resetIn ∧ (initTurn k s).cfg = s.cfg ∧ (initTurn k s).bl = s.bl := by
  unfold initTurn
  split
  · rename_i a _ _
    have h := run_frame (a.ops (a.prepare s)) (a.prepare s)
    rw [h.cmdPort, h.resetIn, h.cfg, h.bl]
    cases a <;> exact ⟨rfl, rfl, rfl, rfl⟩
  · exact ⟨rfl, rfl, rfl, rfl⟩
  · rename_i m ms _
    have h := run_frame (m :: ms) s
    exact ⟨h.cmdPort, h.resetIn, h.cfg, h.bl⟩

/-- All that a step which answers a next state can be. -/
theorem step_cases {s t : State} (h : step s = .next t) :
    (∃ p, s.resetIn = some p ∧ t = s.resetWith p) ∨
    (s.resetIn = none ∧ ((∃ k, s.seq = .init k ∧ t = initTurn k s) ∨ (s.seq = .exec ∧ t = run s.ops s) ∨
      (s.seq = .ready ∧ s.cmdPort = [] ∧ t = s) ∨
      (s.seq = .ready ∧ ∃ i rest, decodeCommand s.cmdPort = .ok (i, rest) ∧ exec i { s with cmdPort := rest } = .next t))) := by
  cases hr : s.resetIn with
  | some p => rw [step_reset hr] at h; cases h; exact .inl ⟨p, rfl, rfl⟩
  | none =>
    right; refine ⟨rfl, ?_⟩
    cases hq : s.seq with
    | init k => rw [step_init hr hq] at h; cases h; exact .inl ⟨k, rfl, rfl⟩
    | exec => rw [step_exec hr hq] at h; cases h; exact .inr (.inl ⟨rfl, rfl⟩)
    | ready =>
      right; right
      cases hp : s.cmdPort with
      | nil => rw [step_ready_none hr hq hp] at h; cases h; exact .inl ⟨rfl, rfl, rfl⟩
      | cons op rest =>
        right; refine ⟨rfl, ?_⟩
        rcases hd : decodeCommand (op :: rest) with e | ⟨i, rest'⟩
        · simp only [step, hr, hq, hp, hd] at h
          split at h
          · contradiction
          · cases h
          · cases h
        · rw [← hp] at hd
          rw [step_ready_some hr hq hd] at h
          rw [hr, hq] at h
          exact ⟨i, rest', rfl, h⟩

/-! ## Runs of steps -/

theorem hostRun_succ (M : Host.Core) {n : Nat} {s t : M.State} (h : M.step s = .next t) :
    M.run (n + 1) s = M.run n t := by
  rw [Host.Core.run, h]

theorem hostRun_snoc (M : Host.Core) {s t u : M.State} {n : Nat} (h : M.run n s = .next t) (k : M.step t = .next u) :
    M.run (n + 1) s = .next u := by
  induction n generalizing s with
  | zero => cases h; rw [hostRun_succ M k]; rfl
  | succ n ih =>
    rw [Host.Core.run] at h ⊢
    split at h
    · exact ih h
    · cases h
    · cases h
theorem core_run_succ {s t : State} (n : Nat) (h : step s = .next t) :
    Sys2Proof.core.run (n + 1) s = Sys2Proof.core.run n t := hostRun_succ Sys2Proof.core h

theorem core_run_snoc {s t u : State} {n : Nat} (h : Sys2Proof.core.run n s = .next t) (k : step t = .next u) :
    Sys2Proof.core.run (n + 1) s = .next u := hostRun_snoc Sys2Proof.core h k

end Sys2Proof.Machine
end

