-- ==== Sys2Proof/Laws/Commands.lean ====
section
/-!
SUPPORT. How commands end: the response of a run, the save, access, restore pattern with scripted answers, and
the invariants and the backlight flag after a run.
-/

namespace Sys2Proof.Machine

open Sys2Proof

/-- The last micro-operation of a command gives its response. -/
theorem finish_completed {s t : State} {r : Response} (hs : t.seq = .exec)
    (hr : t.responses = s.responses) : s.completed (run [.ret r] t) r :=
  ⟨by simp [run_cons_done [] (micro_ret r t), State.finish, State.respond, hs, nextSeq], rfl, rfl, rfl,
    by simp [run_cons_done [] (micro_ret r t), State.finish, State.respond, hr]⟩

theorem cursorOps_some {sizeX line b : Byte} (h : lineOffset sizeX line = some b) :
    cursorOps sizeX 0 line = [.regWrite false (b ||| 0x80)] := by
  simp [cursorOps, cursorByte, h, ddramSet]

theorem cursorOps_none {sizeX x line : Byte} (h : 3 < line) : cursorOps sizeX x line = [] := by
  simp [cursorOps, cursorByte, lineOffset_above h]

/-- The save, access, restore pattern with full register writes, its polls not finding the busy flag set (R175). -/
theorem run_saveAccessRestore_answer {a : State} (addressSet : Byte) (bytes : List (Bool × Byte))
    {save : ReadAnswer} {polls : List ReadAnswer} {rest : List Reply} (hs : save.legal = true)
    (hl : polls.length = bytes.length + 2) (hp : freeAnswers polls)
    (h : a.replies = save.replies ++ (answerReplies polls ++ rest)) (hq : a.seq = .exec) :
    ∃ t, run (saveAccessRestore addressSet (bytes.map fun b => .regWrite b.1 b.2) ++ [.ret .unit]) a
        = run [.ret .unit] t ∧ t.seq = .exec ∧ t.responses = a.responses ∧ t.replies = rest ∧
      t.trace = a.trace ++ save.events a.cfg.addr a.bl false ++
        answeredCycles a.cfg.addr a.bl polls
          ((false, addressSet) :: (bytes ++ [(false, (save.value &&& 0x7F) ||| 0x80)])) := by
  obtain ⟨t, h1, h2, h3, h4⟩ := run_saveAC_answer
    ((((false, addressSet) :: bytes).map (fun b => Micro.regWrite b.1 b.2)) ++ [.restoreAC, .ret .unit]) h hs
  obtain ⟨p1, pl, rfl⟩ : ∃ p1 pl, polls = p1 ++ [pl] := by
    rcases List.eq_nil_or_concat polls with rfl | ⟨p, q, rfl⟩
    · simp at hl
    · exact ⟨p, q, by simp⟩
  have hp1 : freeAnswers p1 := fun x hx => hp x (by simp [hx])
  obtain ⟨hpl, hpf⟩ := hp pl (by simp)
  have e3 : t.replies = answerReplies p1 ++ (pl.replies ++ rest) := by
    rw [h3]; simp [answerReplies]
  obtain ⟨u, k1, k2, k3, k4⟩ := run_writes_answer ((false, addressSet) :: bytes) [.restoreAC, .ret .unit]
    (by simpa using hl) hp1 e3
  obtain ⟨w, m1, m2, m3, m4⟩ := run_restoreAC_answer [.ret .unit] k3 hpl hpf
  refine ⟨w, ?_, ?_, ?_, m3, ?_⟩
  · rw [← m1, ← k1, ← h1]
    simp [saveAccessRestore]
  · exact m2.seq.trans (k2.seq.trans (h2.seq.trans hq))
  · exact m2.responses.trans (k2.responses.trans h2.responses)
  · rw [m4, k4, h4, k2.cfg, k2.bl, k2.saved, h2.cfg, h2.bl, h2.saved]
    have hl' : p1.length = ((false, addressSet) :: bytes).length := by simpa using hl
    simp only [answeredCycles, List.append_assoc]
    rw [← List.cons_append, List.zip_append hl']
    simp

/-- The save, access, restore pattern with a data read (R177, R178): the response is the byte read. -/
theorem run_saveReadRestore_answer {a : State} (addressSet : Byte) {save p1 d p2 : ReadAnswer} {rest : List Reply}
    (hs : save.legal = true) (hd : d.legal = true) (hp : freeAnswers [p1, p2])
    (h : a.replies = save.replies ++ (p1.replies ++ (d.replies ++ (p2.replies ++ rest)))) (hq : a.seq = .exec) :
    ∃ t, run (saveAccessRestore addressSet [.readData] ++ [.retValue]) a = run [.ret (.byte d.value)] t ∧
      t.seq = .exec ∧ t.responses = a.responses ∧ t.replies = rest ∧
      t.trace = a.trace ++ save.events a.cfg.addr a.bl false ++
        answeredCycles a.cfg.addr a.bl [p1] [(false, addressSet)] ++ d.events a.cfg.addr a.bl true ++
        answeredCycles a.cfg.addr a.bl [p2] [(false, (save.value &&& 0x7F) ||| 0x80)] := by
  rw [freeAnswers_cons, freeAnswers_cons] at hp
  obtain ⟨t, h1, h2, h3, h4⟩ :=
    run_saveAC_answer [.regWrite false addressSet, .readData, .restoreAC, .retValue] h hs
  obtain ⟨u, k1, k2, k3, k4⟩ := regWrite_answer false addressSet h3 hp.1.1 hp.1.2
  obtain ⟨v, l1, l2, l3, l4⟩ := run_readData_answer [.restoreAC, .retValue] k3 hd
  obtain ⟨w, m1, m2, m3, m4⟩ := run_restoreAC_answer [.retValue] l3 hp.2.1.1 hp.2.1.2
  have hv : w.value = d.value := m2.value.trans l2.value
  refine ⟨w, ?_, m2.seq.trans (l2.seq.trans (k2.seq.trans (h2.seq.trans hq))),
    m2.responses.trans (l2.responses.trans (k2.responses.trans h2.responses)), m3, ?_⟩
  · rw [run_cons_done [] (micro_ret _ w), ← hv, ← run_cons_done [] (micro_retValue w), ← m1, ← l1,
      ← run_cons_done _ ((micro_regWrite _ _ _).trans k1), ← h1]
    rfl
  · rw [m4, l4, k4, h4]
    simp only [l2.cfg, l2.bl, l2.saved, k2.cfg, k2.bl, k2.saved, h2.cfg, h2.bl, h2.saved]
    simp [answeredCycles]

/-- The save, access, restore pattern with full register writes, its reads answered and its polls free (R175). -/
theorem run_saveAccessRestore {a : State} (addressSet : Byte) (bytes : List (Bool × Byte)) {save : Byte × Byte}
    {polls : List (Byte × Byte)} {rest : List Reply}
    (hl : polls.length = bytes.length + 2) (hp : freePolls polls)
    (h : a.replies = pairReplies (save :: polls) ++ rest) (hq : a.seq = .exec) :
    ∃ t, run (saveAccessRestore addressSet (bytes.map fun b => .regWrite b.1 b.2) ++ [.ret .unit]) a
        = run [.ret .unit] t ∧ t.seq = .exec ∧ t.responses = a.responses ∧ t.replies = rest ∧
      t.trace = a.trace ++ readEvents a.cfg.addr a.bl false save.1 save.2 ++
        cycleEvents a.cfg.addr a.bl polls
          ((false, addressSet) :: (bytes ++ [(false, (joinSamples save.1 save.2 &&& 0x7F) ||| 0x80)])) := by
  obtain ⟨t, h1, h2, h3, h4, h5⟩ := run_saveAccessRestore_answer addressSet bytes (save := .bytes save.1 save.2)
    (polls := byteAnswers polls) rfl (by simpa [byteAnswers] using hl) (byteAnswers_free hp)
    (by rw [byteAnswers_replies]; exact h) hq
  exact ⟨t, h1, h2, h3, h4, by rw [h5, byteAnswers_cycles]; rfl⟩

/-! ## The response -/

theorem micro_plain_responses {m : Micro} (hm : m.isCodec = true ∨ ∃ b, m = .bus b) (s : State) :
    (micro m s).state.responses = s.responses := by
  rcases hm with h | ⟨b, rfl⟩
  · cases m with
    | regWrite rs v => exact (regWrite_sameBlock rs v s).responses
    | restoreAC => exact (regWrite_sameBlock _ _ s).responses
    | nibble rs n => exact (nibbleWrite_sameBlock rs n s).responses
    | saveAC => exact (regRead_sameBlock false s).responses
    | readData => exact (regRead_sameBlock true s).responses
    | _ => cases h
  · rfl

/-- A run that ends in a response: it is over and has given that response alone, or it has stopped in a busy poll
and has given none, and what is left ends in that response. -/
theorem run_answer {bl : Bool} {ops : List Micro} {last : Micro} {k : ResponseKind} (hp : plainOps bl ops)
    (hl : last.answerKind = some k) (s : State) :
    (∃ (t : State) (r : Response), t.seq = s.seq ∧ t.cfg = s.cfg ∧ t.responses = s.responses ∧ r.kind = k ∧
      run (ops ++ [last]) s = (t.respond r).finish) ∨
    ((run (ops ++ [last]) s).seq = s.seq ∧ (run (ops ++ [last]) s).responses = s.responses ∧
      ∃ m ms, (∀ x ∈ m :: ms, x.isCodec = true) ∧ (run (ops ++ [last]) s).ops = (m :: ms) ++ [last]) := by
  induction ops generalizing s with
  | nil =>
    left
    cases last with
    | ret r => exact ⟨s, r, rfl, rfl, rfl, Option.some.inj hl, rfl⟩
    | retValue => exact ⟨s, .byte s.value, rfl, rfl, rfl, Option.some.inj hl, rfl⟩
    | _ => cases hl
  | cons m ms ih =>
    have h1 := micro_plain_responses (m := m) ((hp.mem (by simp)).imp id (fun ⟨b, h, _⟩ => ⟨b, h⟩)) s
    obtain ⟨h2, h3⟩ := micro_frame m s
    rcases hk : micro m s with t | t <;> rw [hk] at h1 h2 h3
    · rw [List.cons_append, run_cons_done _ hk]
      have hp' : plainOps bl ms := by
        rcases hp with h | ⟨b, h, -⟩
        · exact .inl fun x hx => h x (by simp [hx])
        · rw [(List.cons.inj h).2]; exact .inl (by simp)
      rcases ih hp' t with ⟨u, r, a, b, c, d⟩ | ⟨a, b, c⟩
      · exact .inl ⟨u, r, a.trans h3, b.trans h2.cfg, c.trans h1, d⟩
      · exact .inr ⟨a.trans h3, b.trans h1, c⟩
    · rw [List.cons_append, run_cons_busy _ hk]
      refine .inr ⟨h3, h1, m, ms, ?_, rfl⟩
      rcases hp with h | ⟨b, h, -⟩
      · exact h
      · rw [(List.cons.inj h).1] at hk; cases hk

/-- What is left to issue in `EXEC`: codec operations and one response. -/
theorem pendingLegal_exec {s : State} (hq : s.seq = .exec) : s.pendingLegal = true ↔
    ∃ ops last k, s.ops = ops ++ [last] ∧ (∀ m ∈ ops, m.isCodec = true) ∧ last.answerKind = some k ∧
      s.pendingAnswer = some k := by
  simp only [State.pendingLegal, hq, Bool.and_eq_true, List.all_eq_true]
  constructor
  · rintro ⟨h1, h2⟩
    obtain ⟨k, hk⟩ := Option.isSome_iff_exists.1 h2
    obtain ⟨last, e1, e2⟩ := Option.bind_eq_some_iff.1 hk
    exact ⟨s.ops.dropLast, last, k, (List.dropLast_append_getLast? last e1).symm, h1, e2, hk⟩
  · rintro ⟨ops, last, k, e, h1, -, h3⟩
    exact ⟨by simpa [e] using h1, by simp [h3]⟩

/-- A run in `EXEC` that ends in a response (R81): it has ended with one response, of the kind its last
micro-operation gives, or it is still in progress with that response to come. -/
theorem run_response {bl : Bool} {ops : List Micro} {last : Micro} {k : ResponseKind} (hp : plainOps bl ops)
    (hl : last.answerKind = some k) {s : State} (hq : s.seq = .exec) :
    ((run (ops ++ [last]) s).seq = .ready ∧ (run (ops ++ [last]) s).ops = [] ∧
      ∃ r : Response, (run (ops ++ [last]) s).responses = s.responses ++ [r] ∧ r.kind = k) ∨
    ((run (ops ++ [last]) s).seq = .exec ∧ (run (ops ++ [last]) s).ops ≠ [] ∧
      (run (ops ++ [last]) s).responses = s.responses ∧ (run (ops ++ [last]) s).pendingLegal = true ∧
      (run (ops ++ [last]) s).pendingAnswer = some k) := by
  rcases run_answer hp hl s with ⟨t, r, a, b, c, d, e⟩ | ⟨a, b, m, ms, c, d⟩
  · exact .inl ⟨by simp [e, State.finish, State.respond, a, hq, nextSeq], by rw [e]; rfl, r,
      by simp [e, State.finish, State.respond, c], d⟩
  · have hpa : (run (ops ++ [last]) s).pendingAnswer = some k := by
      rw [State.pendingAnswer, d, List.getLast?_concat]; exact hl
    exact .inr ⟨a.trans hq, by simp [d], b,
      (pendingLegal_exec (a.trans hq)).2 ⟨m :: ms, last, k, d, c, hl, hpa⟩, hpa⟩

/-- A run of an init step leaves, at `INIT(k)`, only codec operations and waits. -/
theorem run_pending_init {ops : List Micro} {s : State} {k : Nat} (hq : s.seq = .init k)
    (h : ∀ m ∈ ops, (m.isCodec || m.isWait) = true) : (run ops s).pendingLegal = true := by
  rcases run_seq ops s with ⟨a, b⟩ | ⟨a, pre, m, ms, c, -, b⟩
  · unfold State.pendingLegal
    rw [a, hq, nextSeq]
    split_ifs <;> simp [b]
  · unfold State.pendingLegal
    rw [a, hq, b]
    simp only [List.all_eq_true]
    exact fun x hx => h x (by rw [c]; exact List.mem_append_right _ hx)

/-- The micro-operations of an init step are codec operations and waits. -/
theorem initAction_ops_legal (a : InitAction) (s : State) : ∀ m ∈ a.ops s, (m.isCodec || m.isWait) = true := by
  cases a <;> simp [InitAction.ops, Micro.isCodec, Micro.isWait]

/-! ## The backlight flag -/

/-- A run that transmits nothing but codec frames carries the flag. -/
theorem run_flagged {ops : List Micro} {a : State}
    (h : ∀ m ∈ ops, m.isCodec = true ∨ m.isWait = true ∨ m.answerKind.isSome = true ∨
      ∃ b : Byte, m = .bus b ∧ b.getLsbD 3 = a.bl) :
    flagged a (run ops a) := by
  have hm : ∀ m ∈ ops, ∀ v, flagged a v → flagged a (micro m v).state := by
    intro m hm v hv
    rcases h m hm with hc | hw | hk | ⟨b, rfl, hb⟩
    · exact (flagged_kept a).micro hc hv
    · cases m with
      | wait d =>
        obtain ⟨h1, new, h2, h3⟩ := hv
        refine ⟨h1, new ++ [.wait d], by simp [h2], ?_⟩
        rw [sentBytes_append]; simpa [sentBytes, Event.sent] using h3
      | _ => cases hw
    · cases m with
      | ret r => exact hv
      | retValue => exact hv
      | _ => cases hk
    · exact (flagged_kept a).write b v (hb.trans hv.1.symm) hv
  rcases run_induct hm (flagged_refl a) with ⟨_, ht, e⟩ | ⟨_, _, _, _, -, -, ht, e⟩ <;> rw [e] <;> exact ht

/-! ## The invariant after a run -/

/-- A run of micro-operations that are no waits, or that belong to an init step, ends in the invariant. -/
theorem run_inv {ops : List Micro} {s : State} (hr : s.registersLegal = true) (hm : s.memoryLegal = true)
    (hq : match s.seq with
      | .init k => 1 ≤ k ∧ k ≤ (initSequence s.cfg.family).length
      | .ready => False
      | .exec => ∀ m ∈ ops, m.isWait = false) : (run ops s).Inv := by
  have f := run_frame ops s
  refine ⟨?_, ?_, run_memoryLegal ops s hm⟩
  · rw [registersLegal_iff] at hr ⊢
    rwa [f.em, f.dc, f.sh, f.fs]
  · unfold State.sequencerLegal
    rcases run_seq ops s with ⟨h1, h2⟩ | ⟨h1, pre, m, ms, h3, -, h2⟩ <;> rw [h1, h2, f.cfg]
    · cases hs : s.seq with
      | init k =>
        rw [hs] at hq
        simp only [nextSeq]
        split_ifs with hk
        · simp; omega
        · rfl
      | ready => rw [hs] at hq; exact hq.elim
      | exec => rfl
    · cases hs : s.seq with
      | init k => rw [hs] at hq; simpa using hq
      | ready => rw [hs] at hq; exact hq.elim
      | exec =>
        rw [hs, h3] at hq
        simp only [List.mem_append, List.mem_cons] at hq
        simp only [Bool.and_eq_true, List.all_eq_true, bne_iff_ne]
        refine ⟨by simp, fun m' hm' => ?_⟩
        rw [hq m' (.inr (by simpa using hm'))]; rfl

theorem plainOps_noWait {bl : Bool} {ops : List Micro} (h : plainOps bl ops) : ∀ m ∈ ops, m.isWait = false := by
  intro m hm
  rcases h.mem hm with h | ⟨b, rfl, -⟩
  · cases m <;> first | rfl | cases h
  · rfl

theorem answers_noWait {i : Instr} {m : Micro} (h : answers i m) : m.isWait = false := by
  rcases h with ⟨r, rfl, -⟩ | ⟨rfl, -⟩ <;> rfl

end Sys2Proof.Machine
end

