-- ==== Sys2Proof/Laws/Controller.lean ====
section
/-!
SUPPORT. The reference responder and whole commands: what the bytes a command writes do to the controller, and
that a run with a controller in step ends at once and leaves it in step.
-/

namespace Sys2Proof.Machine

open Sys2Proof

/-! ## Bytes executed -/

/-- An address-set byte of DDRAM, below 0x80 (R99). -/
theorem ddramSet_exec (l : Lcd) (a : Byte) (ha : a < 0x80) :
    l.execute false (ddramSet a) = { l with space := .ddram, ac := a.extractLsb' 0 7 } := by
  have h1 : (ddramSet a).getLsbD 7 = true := by revert a; decide
  have h2 : (ddramSet a).extractLsb' 0 7 = a.extractLsb' 0 7 := by revert a; decide
  simp [Lcd.execute, Lcd.instruction, h1, h2]

/-- The restore: the address counter saved comes back, in DDRAM space (R124). -/
theorem restore_exec (l : Lcd) (ac : Addr7) :
    l.execute false (ddramSet (0#1 ++ ac)) = { l with space := .ddram, ac := ac } := by
  have h2 : (0#1 ++ ac : Byte).extractLsb' 0 7 = ac := by revert ac; decide
  rw [ddramSet_exec l _ (by revert ac; decide), h2]

/-- The byte the restore sends. -/
theorem restore_byte (ac : Addr7) : ddramSet (0#1 ++ ac) = 0b1#1 ++ ac := by revert ac; decide

/-- An address-set byte of CGRAM, below 0x40 (R99). -/
theorem cgramSet_exec (l : Lcd) (a : Byte) (ha : a < 0x40) :
    l.execute false (cgramSet a) = { l with space := .cgram, ac := a.extractLsb' 0 7 } := by
  have h1 : (cgramSet a).getLsbD 7 = false := by revert a; decide
  have h3 : (cgramSet a).getLsbD 6 = true := by revert a; decide
  have h2 : (cgramSet a &&& 0x3F).extractLsb' 0 7 = a.extractLsb' 0 7 := by revert a; decide
  simp only [Lcd.execute, Bool.false_eq_true, if_false, Lcd.instruction, h1, h3, h2, if_true]

/-- Bytes executed in a row depend on, and show in, the core alone. -/
theorem SameCore.executeAll {l k : Lcd} (h : SameCore l k) (bs : List (Bool × Byte)) :
    SameCore (l.executeAll bs) (k.executeAll bs) := by
  induction bs generalizing l k with
  | nil => exact h
  | cons c cs ih => exact ih (h.execute _ _)

/-- Only a data byte or the clear byte changes a memory. -/
theorem executeAll_mem (bytes : List (Bool × Byte)) (l : Lcd) (h : ∀ b ∈ bytes, b.1 = false ∧ b.2 ≠ 0x01) :
    (l.executeAll bytes).dd = l.dd ∧ (l.executeAll bytes).cg = l.cg := by
  induction bytes generalizing l with
  | nil => exact ⟨rfl, rfl⟩
  | cons b bs ih =>
    obtain ⟨h1, h2⟩ := ih (l.execute b.1 b.2) (fun c hc => h c (by simp [hc]))
    obtain ⟨h3, h4⟩ := h b (by simp)
    have : (l.execute b.1 b.2).dd = l.dd ∧ (l.execute b.1 b.2).cg = l.cg := by
      rw [h3]
      simp only [Lcd.execute, Bool.false_eq_true, if_false]
      unfold Lcd.instruction
      split_ifs <;> first | exact ⟨rfl, rfl⟩ | skip
      exfalso
      have : ∀ v : Byte, v.getLsbD 7 = false → v.getLsbD 6 = false → v.getLsbD 5 = false →
          v.getLsbD 4 = false → v.getLsbD 3 = false → v.getLsbD 2 = false → v.getLsbD 1 = false →
          v.getLsbD 0 = true → v = 0x01 := by decide
      simp only [Bool.not_eq_true] at *
      exact h4 (this _ ‹_› ‹_› ‹_› ‹_› ‹_› ‹_› ‹_› ‹_›)
    exact ⟨h1.trans this.1, h2.trans this.2⟩

/-- Data bytes stored in CGRAM at ascending addresses, none of them past its end. -/
theorem executeAll_cgram (d : List Byte) (l : Lcd) (base : Nat) (hs : l.space = .cgram) (hi : l.inc = true)
    (ha : l.ac.toNat = base) (hlt : base + d.length ≤ 64) (hw : l.cg.wf cgramSize = true) :
    let k := l.executeAll (d.map fun v => (true, v))
    k.cg.wf cgramSize = true ∧ k.dd = l.dd ∧
    (∀ j, (h : j < d.length) → k.cg.read (base + j) = d[j]) ∧
    (∀ a, a < base ∨ base + d.length ≤ a → k.cg.read a = l.cg.read a) := by
  induction d generalizing l base with
  | nil => exact ⟨hw, rfl, fun k h => absurd h (by simp), fun a _ => rfl⟩
  | cons v d ih =>
    simp only [List.length_cons] at hlt
    have hm : (l.ac &&& 0x3F).toNat = base := by
      have : ∀ x : Addr7, x.toNat < 64 → (x &&& 0x3F).toNat = x.toNat := by decide
      rw [this _ (by omega), ha]
    have e : l.execute true v = { l with cg := l.cg.write base v, ac := l.ac + 1 } := by
      simp [Lcd.execute, Lcd.memWrite, Lcd.stepAC, hs, hi]
      exact congrArg (fun n => Memory.write l.cg n v) hm
    have hac : (l.ac + 1).toNat = base + 1 := by rw [BitVec.toNat_add]; simp; omega
    obtain ⟨i1, i2, i3, i4⟩ := ih { l with cg := l.cg.write base v, ac := l.ac + 1 } (base + 1) hs hi hac
      (by omega) (Memory.wf_write hw (by unfold cgramSize; omega) v)
    have ee : l.executeAll ((v :: d).map fun v => (true, v))
        = Lcd.executeAll { l with cg := l.cg.write base v, ac := l.ac + 1 } (d.map fun v => (true, v)) := by
      rw [← e]; rfl
    simp only [ee]
    refine ⟨i1, i2, ?_, ?_⟩
    · intro k hk
      cases k with
      | zero => rw [i4 _ (by omega)]; simpa using Memory.read_write_same hw base v
      | succ k =>
        rw [show base + (k + 1) = base + 1 + k by omega, i3 k (by simpa using hk)]; rfl
    · intro a h
      rw [i4 a (by simp at h; omega)]
      exact Memory.read_write_other hw _ _ (by simp at h; omega)

/-! ## Runs with a controller in step -/

/-- A read with E low gives the latch: the controller puts nothing on the pins. -/
theorem pins_low (l : Lcd) (p : Byte) (h : p.getLsbD 2 = false) : l.pins p = p := by
  have hx : ∀ x : Nibble, x &&& 0xF = x := by decide
  have hy : ∀ x : Byte, x.extractLsb' 4 4 ++ x.extractLsb' 0 4 = x := nibbles_append
  simp only [Lcd.pins, h, Bool.and_false, Bool.false_eq_true, if_false]
  rw [hx]; exact hy p

/-- Full register writes in a row: the controller executes the bytes in order. -/
theorem run_writes_inStep (bytes : List (Bool × Byte)) (ms : List Micro) {s : State} {l : Lcd} (h : s.inStep l)
    (hb : l.bf = false) :
    ∃ t k, run (bytes.map (fun b => Micro.regWrite b.1 b.2) ++ ms) s = run ms t ∧ SameBlock s t ∧ t.inStep k ∧
      SameCore (l.executeAll bytes) k ∧ k.bf = false := by
  induction bytes generalizing s l with
  | nil => exact ⟨s, l, rfl, SameBlock.refl s, h, SameCore.refl l, hb⟩
  | cons b bs ih =>
    obtain ⟨t, k, a1, a2, a3, a4, a5⟩ := regWrite_inStep h hb b.1 b.2
    obtain ⟨u, m, b1, b2, b3, b4, b5⟩ := ih a3 a5
    exact ⟨u, m, b1 ▸ run_cons_done _ ((micro_regWrite _ _ _).trans a1), a2.trans b2, b3,
      (a4.executeAll bs).trans b4, b5⟩

/-- The save, access, restore pattern with full register writes (R175): the controller executes the address-set
byte, the data and the restore byte of the address counter it had. -/
theorem run_saveAccessRestore_inStep (a : Byte) (bytes : List (Bool × Byte)) {s : State} {l : Lcd}
    (h : s.inStep l) (hb : l.bf = false) (hq : s.seq = .exec) :
    ∃ t k, run (saveAccessRestore a (bytes.map (fun b => Micro.regWrite b.1 b.2)) ++ [.ret .unit]) s = t ∧
      t.seq = .ready ∧ t.responses = s.responses ++ [.unit] ∧ t.inStep k ∧
      SameCore (l.executeAll ((false, a) :: (bytes ++ [(false, 0b1#1 ++ l.ac)]))) k ∧ k.bf = false := by
  obtain ⟨t, k, a1, a2, a3, a4⟩ := saveAC_inStep h
  obtain ⟨u, m, b1, b2, b3, b4, b5⟩ :=
    run_writes_inStep ((false, a) :: bytes) [.restoreAC, .ret .unit] a3 (a4.bf.trans hb)
  obtain ⟨x, o, d1, d2, d3, d4, d5⟩ := regWrite_inStep b3 b5 false (ddramSet u.saved)
  have hsv : u.saved = 0#1 ++ l.ac := b2.saved.trans a2.saved
  have hx : x.seq = .exec := d2.seq.trans (b2.seq.trans (a2.seq.trans hq))
  have e : run (saveAccessRestore a (bytes.map (fun b => Micro.regWrite b.1 b.2)) ++ [.ret .unit]) s
      = (x.respond .unit).finish := by
    rw [show saveAccessRestore a (bytes.map (fun b => Micro.regWrite b.1 b.2)) ++ [.ret .unit]
      = .saveAC :: (((false, a) :: bytes).map (fun b => Micro.regWrite b.1 b.2) ++ [.restoreAC, .ret .unit])
      from by simp [saveAccessRestore], run_cons_done _ a1, b1, run_cons_done _ ((micro_restoreAC u).trans d1)]
    rfl
  refine ⟨_, o, e, ?_, ?_, d3, ?_, d5⟩
  · simp [State.finish, State.respond, hx, nextSeq]
  · simp [State.finish, State.respond, d2.responses.trans (b2.responses.trans a2.responses)]
  · rw [hsv, restore_byte] at d4
    have := (((a4.executeAll ((false, a) :: bytes)).trans b4).execute false (0b1#1 ++ l.ac)).trans d4
    have g : (l.executeAll ((false, a) :: bytes)).execute false (0b1#1 ++ l.ac)
        = l.executeAll ((false, a) :: (bytes ++ [(false, 0b1#1 ++ l.ac)])) := by
      simp [Lcd.executeAll]
    rwa [g] at this

/-- The micro-operations of a command with a controller in step: whole bytes and responses. -/
def Micro.wholeBytes : Micro → Bool
  | .regWrite _ _ | .saveAC | .restoreAC | .readData | .ret _ | .retValue => true
  | .wait _ | .nibble _ _ | .bus _ => false

/-- With a controller in step that is not busy, a micro-operation of a command that transmits whole bytes ends
at once and leaves the controller so. -/
theorem micro_inStep {m : Micro} (hm : m.wholeBytes = true) {s : State} {l : Lcd} (h : s.inStep l) (hb : l.bf = false) :
    ∃ t k, micro m s = .done t ∧ t.inStep k ∧ k.bf = false ∧ t.seq = s.seq := by
  cases m with
  | regWrite rs v =>
    obtain ⟨t, k, h1, h2, h3, -, h5⟩ := regWrite_inStep h hb rs v
    exact ⟨t, k, h1, h3, h5, h2.seq⟩
  | restoreAC =>
    obtain ⟨t, k, h1, h2, h3, -, h5⟩ := regWrite_inStep h hb false (ddramSet s.saved)
    exact ⟨t, k, h1, h3, h5, h2.seq⟩
  | saveAC =>
    obtain ⟨t, k, h1, h2, h3, h4⟩ := saveAC_inStep h
    exact ⟨t, k, h1, h3, h4.bf.trans hb, h2.seq⟩
  | readData =>
    obtain ⟨t, k, h1, h2, h3, h4⟩ := readData_inStep h
    exact ⟨t, k, h1, h3, h4.bf.trans hb, h2.seq⟩
  | ret r => exact ⟨_, l, rfl, h, hb, rfl⟩
  | retValue => exact ⟨_, l, rfl, h, hb, rfl⟩
  | nibble rs n => cases hm
  | wait d => cases hm
  | bus b => cases hm

/-- A run of such micro-operations is over at once and leaves the controller in step. -/
theorem run_inStep {ops : List Micro} (hm : ∀ m ∈ ops, m.wholeBytes = true)
    {s : State} {l : Lcd} (h : s.inStep l) (hb : l.bf = false) (hq : s.seq = .exec) :
    (run ops s).seq = .ready ∧ ∃ k, (run ops s).inStep k ∧ k.bf = false := by
  induction ops generalizing s l with
  | nil => exact ⟨by simp [State.finish, hq, nextSeq], l, h, hb⟩
  | cons m ms ih =>
    obtain ⟨t, k, h1, h2, h3, h4⟩ := micro_inStep (hm m (by simp)) h hb
    rw [run_cons_done ms h1]
    exact ih (fun m' hm' => hm m' (by simp [hm'])) h2 h3 (h4.trans hq)

end Sys2Proof.Machine
end

