-- ==== Sys2Proof/Laws/Init.lean ====
section
/-!
SUPPORT. The steps of initialization, one lemma per kind of step.
-/

namespace Sys2Proof.Machine

open Sys2Proof

/-- Where initialization from construction stands: nothing in progress, the registers, the answers left, and
everything issued so far. -/
structure InitAt (p : Params) (t : State) (q : Seq) (dc fs : Byte) (rp : List Reply) (tr : List Event) : Prop where
  seq : t.seq = q
  ops : t.ops = []
  resetIn : t.resetIn = none
  cfg : t.cfg = p
  em : t.em = 0x06
  dc : t.dc = dc
  sh : t.sh = 0x10
  fs : t.fs = fs
  bl : t.bl = p.blReset
  responses : t.responses = []
  replies : t.replies = rp
  trace : t.trace = tr

theorem InitAt.finish {p t q dc fs rp tr} (h : InitAt p t q dc fs rp tr) :
    InitAt p t.finish (nextSeq p.family q) dc fs rp tr :=
  ⟨by simp [State.finish, h.seq, h.cfg], rfl, h.resetIn, h.cfg, h.em, h.dc, h.sh, h.fs, h.bl,
    h.responses, h.replies, h.trace⟩

/-- A step that is a wait. -/
theorem InitAt.step_wait {p t k dc fs rp tr d} (h : InitAt p t (.init k) dc fs rp tr)
    (ha : initAction p.family k = some (.wait d)) :
    ∃ u, step t = .next u ∧ InitAt p u (nextSeq p.family (.init k)) dc fs rp (tr ++ [.wait d]) := by
  rw [← h.cfg] at ha
  refine ⟨_, by rw [step_init h.resetIn h.seq, initTurn_begin ha h.ops]; rfl,
    InitAt.finish (t := waitAtLeast d t) ?_⟩
  exact ⟨h.seq, h.ops, h.resetIn, h.cfg, h.em, h.dc, h.sh, h.fs, h.bl, h.responses, h.replies,
    congrArg (· ++ [Event.wait d]) h.trace⟩

/-- A step that is a raw nibble. -/
theorem InitAt.step_nibble {p t k dc fs rp tr n} (h : InitAt p t (.init k) dc fs rp tr)
    (ha : initAction p.family k = some (.rawNibble n)) :
    ∃ u, step t = .next u ∧ InitAt p u (nextSeq p.family (.init k)) dc fs rp
      (tr ++ writeEvents p.addr (nibbleFrames p.blReset false n)) := by
  rw [← h.cfg] at ha
  refine ⟨_, by rw [step_init h.resetIn h.seq, initTurn_begin ha h.ops]; rfl,
    InitAt.finish (t := nibbleWrite false n t) ?_⟩
  have b := nibbleWrite_sameBlock false n t
  exact ⟨b.seq.trans h.seq, by simpa using h.ops, b.resetIn.trans h.resetIn, b.cfg.trans h.cfg,
    b.em.trans h.em, b.dc.trans h.dc, b.sh.trans h.sh, b.fs.trans h.fs, b.bl.trans h.bl,
    b.responses.trans h.responses, by simpa using h.replies, by rw [nibbleWrite_trace, h.trace, h.cfg, h.bl]⟩

/-- A step that is one full register write, its status read not finding the busy flag set. -/
theorem InitAt.step_write {p t k dc fs dc' fs'} {poll : ReadAnswer} {rest tr a v}
    (h : InitAt p t (.init k) dc fs (poll.replies ++ rest) tr)
    (hl : poll.legal = true) (hp : poll.value.getLsbD 7 = false) (ha : initAction p.family k = some a)
    (hprep : a.prepare t = { t with dc := dc', fs := fs' }) (hops : a.ops (a.prepare t) = [.regWrite false v]) :
    ∃ u, step t = .next u ∧ InitAt p u (nextSeq p.family (.init k)) dc' fs' rest
      (tr ++ answeredCycles p.addr p.blReset [poll] [(false, v)]) := by
  rw [← h.cfg] at ha
  obtain ⟨u, h1, b, h3, h4⟩ := regWrite_answer (s := { t with dc := dc', fs := fs' }) false v h.replies hl hp
  refine ⟨_, by rw [step_init h.resetIn h.seq, initTurn_begin ha h.ops, hops, hprep,
    run_cons_done [] ((micro_regWrite _ _ _).trans h1)]; rfl, InitAt.finish (t := { u with ops := [] }) ?_⟩
  refine ⟨b.seq.trans h.seq, rfl, b.resetIn.trans h.resetIn, b.cfg.trans h.cfg,
    b.em.trans h.em, b.dc, b.sh.trans h.sh, b.fs, b.bl.trans h.bl,
    b.responses.trans h.responses, h3, ?_⟩
  show u.trace = _
  rw [h4]
  show t.trace ++ (poll.events t.cfg.addr t.bl false ++ writeEvents t.cfg.addr (byteFrames t.bl false v)) = _
  rw [h.trace, h.cfg, h.bl]
  simp [answeredCycles]

/-- `FS` after initialization as the two toggles of R36. -/
theorem configuredFS_eq (p : Params) : configuredFS 0x28 p.font p.sizeY
    = 0x28#8 ^^^ (if p.font = .f5x10 then 0x04 else 0) ^^^ (if p.sizeY = .one then 0x08 else 0) := by
  have h : ∀ f y, configuredFS 0x28 f y
      = 0x28#8 ^^^ (if f = Font.f5x10 then 0x04 else 0) ^^^ (if y = LineCount.one then 0x08 else 0) := by
    intro f y; cases y <;> cases f <;> decide
  exact h p.font p.sizeY

end Sys2Proof.Machine
end

