-- ==== Sys2Proof/Laws/PerInstr.lean ====
section
/-!
SUPPORT. Per instruction, about the instruction as syntax: the kind of word it is and, for a command, the length
and the response, are those of its row of the opcode map (30_encoding.md R80 to R82, R98, R223, R96, R97).
-/

namespace Sys2Proof.Laws.EncodingFitsFormat

open Sys2Proof

/-- What an encoded word of a format with this response is: a command of the format's length, which has a
response; or a word of one of the three other kinds, which has none. -/
def fits : Encoded → Format → Option ResponseKind → Prop
  | .command bs, f, r => f.commandLength = some bs.length ∧ r ≠ none
  | .lcdByte _, f, r => f = .lcdi ∧ r = none
  | .rawNibble _, f, r => f = .rawn ∧ r = none
  | .frame _, f, r => f = .expanderFrame ∧ r = none

/-- A well-formed instruction's encoding fits its format. -/
def Statement (i : Instr) : Prop := i.wellFormed = true → fits (encode i) i.format i.responseKind

/-- A command of a fixed number of bytes. -/
theorem command {i : Instr} {bs : List Byte} {r : ResponseKind} (he : encode i = .command bs)
    (hf : i.format.commandLength = some bs.length) (hr : i.responseKind = some r) : Statement i := by
  intro _
  rw [he]
  exact ⟨hf, by rw [hr]; simp⟩

theorem clearDisplay : Statement .clearDisplay := command rfl rfl rfl

theorem moveToHome : Statement .moveToHome := command rfl rfl rfl

theorem enableDisplay : Statement .enableDisplay := command rfl rfl rfl

theorem disableDisplay : Statement .disableDisplay := command rfl rfl rfl

theorem enableCursor : Statement .enableCursor := command rfl rfl rfl

theorem disableCursor : Statement .disableCursor := command rfl rfl rfl

theorem enableBlinking : Statement .enableBlinking := command rfl rfl rfl

theorem disableBlinking : Statement .disableBlinking := command rfl rfl rfl

theorem displayToLeft : Statement .displayToLeft := command rfl rfl rfl

theorem displayToRight : Statement .displayToRight := command rfl rfl rfl

theorem enableShiftOnWrite : Statement .enableShiftOnWrite := command rfl rfl rfl

theorem disableShiftOnWrite : Statement .disableShiftOnWrite := command rfl rfl rfl

theorem shiftCursorLeft : Statement .shiftCursorLeft := command rfl rfl rfl

theorem shiftCursorRight : Statement .shiftCursorRight := command rfl rfl rfl

theorem shiftDisplayLeft : Statement .shiftDisplayLeft := command rfl rfl rfl

theorem shiftDisplayRight : Statement .shiftDisplayRight := command rfl rfl rfl

theorem setCursor (x y : Byte) : Statement (.setCursor x y) := command rfl rfl rfl

theorem writeDdram (addr data : Byte) : Statement (.writeDdram addr data) := command rfl rfl rfl

theorem readDdram (addr : Byte) : Statement (.readDdram addr) := command rfl rfl rfl

theorem displayChar (c : Byte) : Statement (.displayChar c) := command rfl rfl rfl

theorem writeGlyph5x8 (slot : Byte) (d : List Byte) : Statement (.writeGlyph5x8 slot d) := by
  intro h
  have hd : d.length = glyph8Length := by simpa [Instr.wellFormed] using h
  simp [fits, encode, Instr.format, Format.commandLength, Instr.responseKind, hd, glyph8Length]

theorem writeGlyph5x10 (slot : Byte) (d : List Byte) : Statement (.writeGlyph5x10 slot d) := by
  intro h
  have hd : d.length = glyph11Length := by simpa [Instr.wellFormed] using h
  simp [fits, encode, Instr.format, Format.commandLength, Instr.responseKind, hd, glyph11Length]

theorem eraseLine (line : Byte) : Statement (.eraseLine line) := command rfl rfl rfl

theorem enableBacklight : Statement .enableBacklight := command rfl rfl rfl

theorem disableBacklight : Statement .disableBacklight := command rfl rfl rfl

theorem getEntryMode : Statement .getEntryMode := command rfl rfl rfl

theorem getDisplayControl : Statement .getDisplayControl := command rfl rfl rfl

theorem getShift : Statement .getShift := command rfl rfl rfl

theorem getFunctionSet : Statement .getFunctionSet := command rfl rfl rfl

theorem readCgram (addr : Byte) : Statement (.readCgram addr) := command rfl rfl rfl

theorem writeCgram (addr data : Byte) : Statement (.writeCgram addr data) := command rfl rfl rfl

theorem readAddressCounter : Statement .readAddressCounter := command rfl rfl rfl

theorem readBusyFlag : Statement .readBusyFlag := command rfl rfl rfl

theorem lcdClearDisplay : Statement .lcdClearDisplay := fun _ => ⟨rfl, rfl⟩

theorem lcdReturnHome : Statement .lcdReturnHome := fun _ => ⟨rfl, rfl⟩

theorem lcdEntryModeSet (i s : Bool) : Statement (.lcdEntryModeSet i s) := fun _ => ⟨rfl, rfl⟩

theorem lcdDisplayControl (d c b : Bool) : Statement (.lcdDisplayControl d c b) := fun _ => ⟨rfl, rfl⟩

theorem lcdCursorDisplayShift (s r : Bool) : Statement (.lcdCursorDisplayShift s r) := fun _ => ⟨rfl, rfl⟩

theorem lcdFunctionSet4bit (n f : Bool) : Statement (.lcdFunctionSet4bit n f) := fun _ => ⟨rfl, rfl⟩

theorem lcdSetCgramAddress (a : BitVec 6) : Statement (.lcdSetCgramAddress a) := fun _ => ⟨rfl, rfl⟩

theorem lcdSetDdramAddress (a : Addr7) : Statement (.lcdSetDdramAddress a) := fun _ => ⟨rfl, rfl⟩

theorem rawNibble8bitInterface : Statement .rawNibble8bitInterface := fun _ => ⟨rfl, rfl⟩

theorem rawNibble4bitInterface : Statement .rawNibble4bitInterface := fun _ => ⟨rfl, rfl⟩

theorem xw (n : Nibble) (b e r : Bool) : Statement (.xw n b e r) := fun _ => ⟨rfl, rfl⟩

theorem xr (b e r : Bool) : Statement (.xr b e r) := fun _ => ⟨rfl, rfl⟩

end Sys2Proof.Laws.EncodingFitsFormat
end

