-- ==== Sys2Proof/Tests/Slice0.lean ====
section
/-!
SUPPORT. Tests. Expected results are the spec's own: the vectors of spec/95_test_vectors.md by name (TG1, P3,
...), or words written out from the encodings of 30_encoding.md. Below them, for every obligation with
hypotheses, a witness that meets them.
-/

namespace Sys2Proof.Tests

open Sys2Proof Sys2Proof.Machine

/-! ## Well-formedness refuses ill-formed terms -/

theorem test_glyph8_short_ill_formed : (Instr.writeGlyph5x8 0 [0, 0, 0, 0, 0, 0, 0]).wellFormed = false := by decide
theorem test_glyph8_long_ill_formed : (Instr.writeGlyph5x8 0 [0, 0, 0, 0, 0, 0, 0, 0, 0]).wellFormed = false := by
  decide
theorem test_glyph11_short_ill_formed :
    (Instr.writeGlyph5x10 0 [0, 0, 0, 0, 0, 0, 0, 0, 0, 0]).wellFormed = false := by decide
theorem test_glyph11_long_ill_formed :
    (Instr.writeGlyph5x10 0 [0, 0, 0, 0, 0, 0, 0, 0, 0, 0, 0, 0]).wellFormed = false := by decide

/-! ## Decoding: every constructor, its word written out from R80 and R82, R98, R223, R96, R97 -/

theorem test_decode_display_commands :
    decode (.command [0b00000001]) = .ok .clearDisplay ∧ decode (.command [0b00000010]) = .ok .moveToHome ∧
    decode (.command [0b00000011]) = .ok .enableDisplay ∧ decode (.command [0b00000100]) = .ok .disableDisplay ∧
    decode (.command [0b00000101]) = .ok .enableCursor ∧ decode (.command [0b00000110]) = .ok .disableCursor ∧
    decode (.command [0b00000111]) = .ok .enableBlinking ∧
    decode (.command [0b00001000]) = .ok .disableBlinking := by decide

theorem test_decode_entry_and_shift_commands :
    decode (.command [0b00001001]) = .ok .displayToLeft ∧ decode (.command [0b00001010]) = .ok .displayToRight ∧
    decode (.command [0b00001011]) = .ok .enableShiftOnWrite ∧
    decode (.command [0b00001100]) = .ok .disableShiftOnWrite ∧
    decode (.command [0b00001101]) = .ok .shiftCursorLeft ∧
    decode (.command [0b00001110]) = .ok .shiftCursorRight ∧
    decode (.command [0b00001111]) = .ok .shiftDisplayLeft ∧
    decode (.command [0b00010000]) = .ok .shiftDisplayRight := by decide

theorem test_decode_data_commands :
    decode (.command [0b00010001, 0x05, 0x01]) = .ok (.setCursor 0x05 0x01) ∧
    decode (.command [0b00010010, 0x45, 0x41]) = .ok (.writeDdram 0x45 0x41) ∧
    decode (.command [0b00010011, 0x45]) = .ok (.readDdram 0x45) ∧
    decode (.command [0b00010100, 0x48]) = .ok (.displayChar 0x48) ∧
    decode (.command [0b00010111, 0x01]) = .ok (.eraseLine 0x01) ∧
    decode (.command [0b00011110, 0x11]) = .ok (.readCgram 0x11) ∧
    decode (.command [0b00011111, 0x11, 0x22]) = .ok (.writeCgram 0x11 0x22) := by decide

theorem test_decode_glyph_commands :
    decode (.command [0b00010101, 0x0A, 0x0E, 0x11, 0x11, 0x11, 0x0E, 0x00, 0x00, 0x01])
      = .ok (.writeGlyph5x8 0x0A [0x0E, 0x11, 0x11, 0x11, 0x0E, 0x00, 0x00, 0x01]) ∧
    decode (.command [0b00010110, 0x03, 1, 2, 3, 4, 5, 6, 7, 8, 9, 10, 11])
      = .ok (.writeGlyph5x10 0x03 [1, 2, 3, 4, 5, 6, 7, 8, 9, 10, 11]) := by decide

theorem test_decode_system_commands :
    decode (.command [0b00011000]) = .ok .enableBacklight ∧ decode (.command [0b00011001]) = .ok .disableBacklight ∧
    decode (.command [0b00011010]) = .ok .getEntryMode ∧
    decode (.command [0b00011011]) = .ok .getDisplayControl ∧ decode (.command [0b00011100]) = .ok .getShift ∧
    decode (.command [0b00011101]) = .ok .getFunctionSet ∧
    decode (.command [0b00100000]) = .ok .readAddressCounter ∧
    decode (.command [0b00100001]) = .ok .readBusyFlag := by decide

theorem test_decode_lcd_bytes :
    decode (.lcdByte 0b00000001) = .ok .lcdClearDisplay ∧ decode (.lcdByte 0b00000010) = .ok .lcdReturnHome ∧
    decode (.lcdByte 0b00000110) = .ok (.lcdEntryModeSet true false) ∧
    decode (.lcdByte 0b00001101) = .ok (.lcdDisplayControl true false true) ∧
    decode (.lcdByte 0b00011000) = .ok (.lcdCursorDisplayShift true false) ∧
    decode (.lcdByte 0b00100100) = .ok (.lcdFunctionSet4bit false true) ∧
    decode (.lcdByte 0b01010001) = .ok (.lcdSetCgramAddress 0b010001) ∧
    decode (.lcdByte 0b11000101) = .ok (.lcdSetDdramAddress 0b1000101) := by decide

theorem test_decode_nibbles_and_frames :
    decode (.rawNibble 0b0011) = .ok .rawNibble8bitInterface ∧
    decode (.rawNibble 0b0010) = .ok .rawNibble4bitInterface ∧
    decode (.frame 0b01001101) = .ok (.xw 0b0100 true true true) ∧
    decode (.frame 0b11111110) = .ok (.xr true true false) := by decide

theorem test_reserved_words_are_refused :
    decode (.command [0x00]) = .error (.noCommand 0x00) ∧ decode (.command [0x22]) = .error (.noCommand 0x22) ∧
    decode (.command [0xFF]) = .error (.noCommand 0xFF) ∧ decode (.command []) = .error .empty ∧
    decode (.command [0x11, 0x05]) = .error (.shortCommand 0x11) ∧
    decode (.command [0x01, 0x01]) = .error .trailingBytes ∧
    decode (.lcdByte 0b00000000) = .error (.notAnLcdByte 0) ∧
    decode (.lcdByte 0b00110000) = .error (.notAnLcdByte 0x30) ∧
    decode (.rawNibble 0b0100) = .error (.notARawNibble 4) ∧
    decode (.frame 0b11100010) = .error (.notAFrame 0xE2) := by decide

/-- Words numbered as spec/opcode_table.json numbers them: its "match" with operand bits. -/
theorem test_table_words :
    decodeTableWord 8 0x21 = some .readBusyFlag ∧ decodeTableWord 16 0x1448 = some (.displayChar 0x48) ∧
    decodeTableWord 24 0x110501 = some (.setCursor 0x05 0x01) ∧
    decodeTableWord 80 0x15020102030405060708 = some (.writeGlyph5x8 2 [1, 2, 3, 4, 5, 6, 7, 8]) ∧
    decodeTableWord 8 0x80 = some (.lcdSetDdramAddress 0) ∧ decodeTableWord 8 0xF2 = some (.xr false false false) ∧
    decodeTableWord 8 0x30 = some (.xw 3 false false false) ∧
    decodeTableWord 4 0x3 = some .rawNibble8bitInterface ∧ decodeTableWord 16 0x2200 = none := by decide

/-! ## One step of one command -/

/-- A block that is `READY` with the registers of R36 (HD44780, `SIZE_Y` 2, `FONT` 0), `SIZE_X`, `BL`, the answers
to its read requests, and bytes at its command port. -/
def ready (sizeX : Byte) (bl : Bool) (replies : List Reply) (bytes : List Byte) : State :=
  { State.powerOn { Config.params with sizeX := sizeX, blReset := bl } with
    seq := .ready, replies := replies, cmdPort := bytes }

/-- A status of the given value, read with `BL` = 0: the `POLL[hl]` of 95_test_vectors.md. -/
def poll (status : Byte) : List Event :=
  [.write 0x20 0xF2, .write 0x20 0xF6, .read 0x20 (.byte ((status &&& 0xF0) ||| 0x06)),
   .write 0x20 0xF2, .write 0x20 0xF6, .read 0x20 (.byte ((status <<< 4) ||| 0x06)), .write 0x20 0xF2]

/-- `n` pairs of read answers 0x06. -/
def free (n : Nat) : List Reply := List.replicate (2 * n) ⟨1, 0x06⟩

/-- Transmissions. -/
def sends (bs : List Byte) : List Event := bs.map (.write 0x20)

/-- What is looked at after a step: trace, responses, `EM`, `DC`, `SH`, `BL`, and whether the block is `READY`. -/
structure Seen where
  trace : List Event
  responses : List Response
  em : Byte := 0x06
  dc : Byte := 0x0C
  sh : Byte := 0x10
  bl : Bool := false
  isReady : Bool := true
deriving DecidableEq, Repr

def seen : Host.Outcome State Fault Refusal → Option Seen
  | .next t => some ⟨t.trace, t.responses, t.em, t.dc, t.sh, t.bl, t.seq == .ready⟩
  | .fault _ => none
  | .refused _ => none

/-- TG1. -/
theorem test_clear_display : seen (step (ready 16 false (free 1) [0x01]))
    = some { trace := poll 0x00 ++ sends [0x04, 0x04, 0x00, 0x14, 0x14, 0x10], responses := [.unit] } := by decide

/-- TG2. -/
theorem test_move_to_home : seen (step (ready 16 false (free 1) [0x02]))
    = some { trace := poll 0x00 ++ sends [0x04, 0x04, 0x00, 0x24, 0x24, 0x20], responses := [.unit] } := by decide

/-- TG3. -/
theorem test_enable_display : seen (step { ready 16 false (free 1) [0x03] with dc := 0x08 })
    = some { trace := poll 0x00 ++ sends [0x04, 0x04, 0x00, 0xC4, 0xC4, 0xC0], responses := [.unit], dc := 0x0C } := by decide

/-- TG4. -/
theorem test_disable_display : seen (step (ready 16 false (free 1) [0x04]))
    = some { trace := poll 0x00 ++ sends [0x04, 0x04, 0x00, 0x84, 0x84, 0x80], responses := [.unit], dc := 0x08 } := by decide

/-- TG5. -/
theorem test_enable_cursor : seen (step (ready 16 false (free 1) [0x05]))
    = some { trace := poll 0x00 ++ sends [0x04, 0x04, 0x00, 0xE4, 0xE4, 0xE0], responses := [.unit], dc := 0x0E } := by decide

/-- TG6. -/
theorem test_disable_cursor : seen (step { ready 16 false (free 1) [0x06] with dc := 0x0F })
    = some { trace := poll 0x00 ++ sends [0x04, 0x04, 0x00, 0xD4, 0xD4, 0xD0], responses := [.unit], dc := 0x0D } := by decide

/-- TG7. -/
theorem test_enable_blinking : seen (step (ready 16 false (free 1) [0x07]))
    = some { trace := poll 0x00 ++ sends [0x04, 0x04, 0x00, 0xD4, 0xD4, 0xD0], responses := [.unit], dc := 0x0D } := by decide

/-- TG8. -/
theorem test_disable_blinking : seen (step (ready 16 false (free 1) [0x08]))
    = some { trace := poll 0x00 ++ sends [0x04, 0x04, 0x00, 0xC4, 0xC4, 0xC0], responses := [.unit], dc := 0x0C } := by decide

/-- TG9. -/
theorem test_display_to_left : seen (step (ready 16 false (free 1) [0x09]))
    = some { trace := poll 0x00 ++ sends [0x04, 0x04, 0x00, 0x44, 0x44, 0x40], responses := [.unit], em := 0x04 } := by decide

/-- TG10. -/
theorem test_display_to_right : seen (step { ready 16 false (free 1) [0x0A] with em := 0x04 })
    = some { trace := poll 0x00 ++ sends [0x04, 0x04, 0x00, 0x64, 0x64, 0x60], responses := [.unit], em := 0x06 } := by decide

/-- TG11. -/
theorem test_enable_shift_on_write : seen (step (ready 16 false (free 1) [0x0B]))
    = some { trace := poll 0x00 ++ sends [0x04, 0x04, 0x00, 0x74, 0x74, 0x70], responses := [.unit], em := 0x07 } := by decide

/-- TG12. -/
theorem test_disable_shift_on_write : seen (step { ready 16 false (free 1) [0x0C] with em := 0x07 })
    = some { trace := poll 0x00 ++ sends [0x04, 0x04, 0x00, 0x64, 0x64, 0x60], responses := [.unit], em := 0x06 } := by decide

/-- TG17. -/
theorem test_shift_cursor_left : seen (step { ready 16 false (free 1) [0x0D] with sh := 0x1C })
    = some { trace := poll 0x00 ++ sends [0x14, 0x14, 0x10, 0x04, 0x04, 0x00], responses := [.unit], sh := 0x10 } := by decide

/-- TG14. -/
theorem test_shift_cursor_right : seen (step (ready 16 false (free 1) [0x0E]))
    = some { trace := poll 0x00 ++ sends [0x14, 0x14, 0x10, 0x44, 0x44, 0x40], responses := [.unit], sh := 0x14 } := by decide

/-- TG15. -/
theorem test_shift_display_left : seen (step (ready 16 false (free 1) [0x0F]))
    = some { trace := poll 0x00 ++ sends [0x14, 0x14, 0x10, 0x84, 0x84, 0x80], responses := [.unit], sh := 0x18 } := by decide

/-- TG16. -/
theorem test_shift_display_right : seen (step (ready 16 false (free 1) [0x10]))
    = some { trace := poll 0x00 ++ sends [0x14, 0x14, 0x10, 0xC4, 0xC4, 0xC0], responses := [.unit], sh := 0x1C } := by decide

/-- TA15. -/
theorem test_display_char : seen (step (ready 16 false (free 1) [0x14, 0x41]))
    = some { trace := poll 0x00 ++ sends [0x45, 0x45, 0x41, 0x15, 0x15, 0x11], responses := [.unit] } := by decide

/-- TA6. -/
theorem test_set_cursor : seen (step (ready 16 false (free 1) [0x11, 0x05, 0x01]))
    = some { trace := poll 0x00 ++ sends [0xC4, 0xC4, 0xC0, 0x54, 0x54, 0x50], responses := [.unit] } := by decide

/-- TA11b. -/
theorem test_set_cursor_wraps : seen (step (ready 16 false (free 1) [0x11, 0xC8, 0x01]))
    = some { trace := poll 0x00 ++ sends [0x84, 0x84, 0x80, 0x84, 0x84, 0x80], responses := [.unit] } := by decide

/-- What a command shows that changes no register. -/
def shows (trace : List Event) (r : Response) : Option Seen := some { trace := trace, responses := [r] }

/-- TA9: a line above 3 puts nothing on the bus. -/
theorem test_set_cursor_line_4 : seen (step (ready 16 false (free 1) [0x11, 0x05, 0x04]))
    = some { trace := [], responses := [.unit] } := by decide

/-- TA12, status reads all 00: the transmissions. -/
theorem test_erase_line : (seen (step (ready 3 false (free 5) [0x17, 0x01]))).map (·.trace)
    = some (poll 0 ++ sends [0xC4, 0xC4, 0xC0, 0x04, 0x04, 0x00] ++
        poll 0 ++ sends [0x25, 0x25, 0x21, 0x05, 0x05, 0x01] ++
        poll 0 ++ sends [0x25, 0x25, 0x21, 0x05, 0x05, 0x01] ++
        poll 0 ++ sends [0x25, 0x25, 0x21, 0x05, 0x05, 0x01] ++
        poll 0 ++ sends [0xC4, 0xC4, 0xC0, 0x04, 0x04, 0x00]) := by decide

/-- TA13: the spaces alone. -/
theorem test_erase_line_7 : (seen (step (ready 3 false (free 3) [0x17, 0x07]))).map (·.trace)
    = some (poll 0 ++ sends [0x25, 0x25, 0x21, 0x05, 0x05, 0x01] ++
        poll 0 ++ sends [0x25, 0x25, 0x21, 0x05, 0x05, 0x01] ++
        poll 0 ++ sends [0x25, 0x25, 0x21, 0x05, 0x05, 0x01]) := by decide

/-- Two answers that carry a status byte in their high nibbles. -/
def status (v : Byte) : List Reply := [⟨1, (v &&& 0xF0) ||| 0x06⟩, ⟨1, (v <<< 4) ||| 0x06⟩]

/-- P3, command 1, its read answers scripted. -/
theorem test_write_ddram :
    seen (step (ready 16 false (status 0x05 ++ status 0x05 ++ status 0x45 ++ status 0x46) [0x12, 0x45, 0x41]))
    = shows (poll 0x05 ++ poll 0x05 ++ sends [0xC4, 0xC4, 0xC0, 0x54, 0x54, 0x50] ++
        poll 0x45 ++ sends [0x45, 0x45, 0x41, 0x15, 0x15, 0x11] ++
        poll 0x46 ++ sends [0x84, 0x84, 0x80, 0x54, 0x54, 0x50]) (.unit) := by decide

/-- P3, command 2: no poll before the data read. -/
theorem test_read_ddram :
    seen (step (ready 16 false (status 0x05 ++ status 0x05 ++ [⟨1, 0x47⟩, ⟨1, 0x17⟩] ++ status 0x46) [0x13, 0x45]))
    = shows (poll 0x05 ++ poll 0x05 ++ sends [0xC4, 0xC4, 0xC0, 0x54, 0x54, 0x50] ++
        [.write 0x20 0xF3, .write 0x20 0xF7, .read 0x20 (.byte 0x47), .write 0x20 0xF3, .write 0x20 0xF7,
         .read 0x20 (.byte 0x17), .write 0x20 0xF3] ++
        poll 0x46 ++ sends [0x84, 0x84, 0x80, 0x54, 0x54, 0x50]) (.byte 0x41) := by decide

/-- P6, command 4: an aborted save restores address 0. -/
theorem test_write_ddram_short_save :
    seen (step (ready 16 false (⟨0, 0x77⟩ :: free 3) [0x12, 0x10, 0x5A]))
    = shows ([.write 0x20 0xF2, .write 0x20 0xF6, .read 0x20 .short] ++
        poll 0 ++ sends [0x94, 0x94, 0x90, 0x04, 0x04, 0x00] ++
        poll 0 ++ sends [0x55, 0x55, 0x51, 0xA5, 0xA5, 0xA1] ++
        poll 0 ++ sends [0x84, 0x84, 0x80, 0x04, 0x04, 0x00]) (.unit) := by decide

/-- P5, command 2. -/
theorem test_read_cgram :
    seen (step (ready 16 false (status 0x42 ++ status 0x42 ++ [⟨1, 0x17⟩, ⟨1, 0x17⟩] ++ status 0x12) [0x1E, 0x11]))
    = shows (poll 0x42 ++ poll 0x42 ++ sends [0x54, 0x54, 0x50, 0x14, 0x14, 0x10] ++
        [.write 0x20 0xF3, .write 0x20 0xF7, .read 0x20 (.byte 0x17), .write 0x20 0xF3, .write 0x20 0xF7,
         .read 0x20 (.byte 0x17), .write 0x20 0xF3] ++
        poll 0x12 ++ sends [0xC4, 0xC4, 0xC0, 0x24, 0x24, 0x20]) (.byte 0x11) := by decide

/-- TA21: the operand is not masked, CGRAM address 0x80 is sent as 0xC0. -/
theorem test_write_cgram : (seen (step (ready 16 false (free 4) [0x1F, 0x80, 0x3C]))).map (·.trace)
    = some (poll 0 ++ poll 0 ++ sends [0xC4, 0xC4, 0xC0, 0x04, 0x04, 0x00] ++
        poll 0 ++ sends [0x35, 0x35, 0x31, 0xC5, 0xC5, 0xC1] ++
        poll 0 ++ sends [0x84, 0x84, 0x80, 0x04, 0x04, 0x00]) := by decide

/-- The bytes sent from place `k` on. -/
def sentFrom (k n : Nat) (o : Host.Outcome State Fault Refusal) : List Byte :=
  match o with
  | .next t => ((sentBytes t.trace).drop k).take n
  | .fault _ => []
  | .refused _ => []

set_option maxRecDepth 8000 in
/-- P5, command 1: the address set, the first row and the fifth (slot 0x0A masks to 2). -/
theorem test_write_glyph_5x8 :
    let o := step (ready 16 false (free 11) [0x15, 0x0A, 0x0E, 0x11, 0x11, 0x11, 0x0E, 0x00, 0x00, 0x00])
    sentFrom 10 6 o = [0x54, 0x54, 0x50, 0x04, 0x04, 0x00] ∧
    sentFrom 21 6 o = [0x05, 0x05, 0x01, 0xE5, 0xE5, 0xE1] ∧
    sentFrom 65 6 o = [0x05, 0x05, 0x01, 0xE5, 0xE5, 0xE1] ∧ (sentFrom 0 200 o).length = 115 := by decide

set_option maxRecDepth 8000 in
/-- TA33 and R181: slot 0xFF has base 0x30; the first row and the eleventh. -/
theorem test_write_glyph_5x10 :
    let o := step (ready 16 false (free 14) [0x16, 0xFF, 1, 2, 3, 4, 5, 6, 7, 8, 9, 10, 11])
    sentFrom 10 6 o = [0x74, 0x74, 0x70, 0x04, 0x04, 0x00] ∧
    sentFrom 21 6 o = [0x05, 0x05, 0x01, 0x15, 0x15, 0x11] ∧
    sentFrom 131 6 o = [0x05, 0x05, 0x01, 0xB5, 0xB5, 0xB1] := by decide

/-- TB1. -/
theorem test_enable_backlight : seen (step (ready 16 false [⟨1, 0x10⟩] [0x18]))
    = some { trace := [.read 0x20 (.byte 0x10), .write 0x20 0x18], responses := [.bool true], bl := true } := by
  decide

/-- TB3: a short read. -/
theorem test_enable_backlight_short : seen (step (ready 16 false [⟨0, 0x10⟩] [0x18]))
    = some { trace := [.read 0x20 .short], responses := [.bool false] } := by decide

/-- TB4. -/
theorem test_disable_backlight : seen (step (ready 16 true [⟨1, 0x19⟩] [0x19]))
    = some { trace := [.read 0x20 (.byte 0x19), .write 0x20 0x11], responses := [.bool true] } := by decide

/-- TB5. -/
theorem test_disable_backlight_short : seen (step (ready 16 true [⟨2, 0x19⟩] [0x19]))
    = some { trace := [.read 0x20 .short], responses := [.bool false], bl := true } := by decide

/-- TB7. -/
theorem test_get_entry_mode : seen (step (ready 16 false [] [0x1A]))
    = some { trace := [], responses := [.byte 0x06] } := by decide

/-- TB8. -/
theorem test_get_display_control : seen (step { ready 16 false [] [0x1B] with dc := 0x0E })
    = some { trace := [], responses := [.byte 0x0E], dc := 0x0E } := by decide

/-- TB9. -/
theorem test_get_shift : seen (step { ready 16 false [] [0x1C] with sh := 0x1C })
    = some { trace := [], responses := [.byte 0x1C], sh := 0x1C } := by decide

/-- TB10. -/
theorem test_get_function_set : seen (step { ready 16 false [] [0x1D] with fs := 0x24 })
    = some { trace := [], responses := [.byte 0x24] } := by decide

/-- TB12: bit 7 of the status is not part of the address counter. -/
theorem test_read_address_counter : seen (step (ready 16 false (status 0xC5) [0x20]))
    = some { trace := poll 0xC5, responses := [.byte 0x45] } := by decide

/-- TB13. -/
theorem test_read_busy_flag : seen (step (ready 16 false (status 0x80) [0x21]))
    = some { trace := poll 0x80, responses := [.bool true] } := by decide

/-- TC13, its first turn: a busy status leaves the write to be issued. -/
theorem test_busy_poll_goes_on : seen (step (ready 16 false (status 0x80) [0x05]))
    = some { trace := poll 0x80, responses := [], dc := 0x0E, isReady := false } := by decide

/-- Opcode 0x22 names no command. -/
theorem test_no_command : step (ready 16 false [] [0x22, 0x01]) = .refused (.noCommand 0x22) := by rfl

/-! ## The words the block emits -/

/-- TC11 by the LCD instruction byte 0x28. -/
theorem test_lcd_function_set : seen (exec (.lcdFunctionSet4bit true false) (ready 16 false (free 1) []))
    = some { trace := poll 0 ++ sends [0x24, 0x24, 0x20, 0x84, 0x84, 0x80], responses := [] } := by decide

/-- TC10. -/
theorem test_lcd_clear_display : seen (exec .lcdClearDisplay (ready 16 false (free 1) []))
    = some { trace := poll 0 ++ sends [0x04, 0x04, 0x00, 0x14, 0x14, 0x10], responses := [] } := by decide

/-- The byte of TG2. -/
theorem test_lcd_return_home : seen (exec .lcdReturnHome (ready 16 false (free 1) []))
    = some { trace := poll 0 ++ sends [0x04, 0x04, 0x00, 0x24, 0x24, 0x20], responses := [] } := by decide

/-- The byte 0x07 of TG11; no register of the block is written. -/
theorem test_lcd_entry_mode_set : seen (exec (.lcdEntryModeSet true true) (ready 16 false (free 1) []))
    = some { trace := poll 0 ++ sends [0x04, 0x04, 0x00, 0x74, 0x74, 0x70], responses := [] } := by decide

/-- The byte 0x0E of TG5; no register of the block is written. -/
theorem test_lcd_display_control : seen (exec (.lcdDisplayControl true true false) (ready 16 false (free 1) []))
    = some { trace := poll 0 ++ sends [0x04, 0x04, 0x00, 0xE4, 0xE4, 0xE0], responses := [] } := by decide

/-- The byte 0x18 of TG15; no register of the block is written. -/
theorem test_lcd_cursor_display_shift :
    seen (exec (.lcdCursorDisplayShift true false) (ready 16 false (free 1) []))
    = some { trace := poll 0 ++ sends [0x14, 0x14, 0x10, 0x84, 0x84, 0x80], responses := [] } := by decide

/-- The byte 0x51 of P5, command 2. -/
theorem test_lcd_set_cgram_address : seen (exec (.lcdSetCgramAddress 0x11) (ready 16 false (free 1) []))
    = some { trace := poll 0 ++ sends [0x54, 0x54, 0x50, 0x14, 0x14, 0x10], responses := [] } := by decide

/-- The byte 0xC5 of P3. -/
theorem test_lcd_set_ddram_address : seen (exec (.lcdSetDdramAddress 0x45) (ready 16 false (free 1) []))
    = some { trace := poll 0 ++ sends [0xC4, 0xC4, 0xC0, 0x54, 0x54, 0x50], responses := [] } := by decide

/-- TC1: one nibble, no poll. -/
theorem test_raw_nibble_8bit : seen (exec .rawNibble8bitInterface (ready 16 false [] []))
    = some { trace := sends [0x34, 0x34, 0x30], responses := [] } := by decide

/-- TI1: the fourth raw nibble. -/
theorem test_raw_nibble_4bit : seen (exec .rawNibble4bitInterface (ready 16 false [] []))
    = some { trace := sends [0x24, 0x24, 0x20], responses := [] } := by decide

/-- TX4. -/
theorem test_xw : seen (exec (.xw 0xC true true false) (ready 16 false [] []))
    = some { trace := sends [0xCC], responses := [] } := by decide

/-- TX11. -/
theorem test_xr : seen (exec (.xr true true true) (ready 16 false [] []))
    = some { trace := sends [0xFF], responses := [] } := by decide

/-- Stored as the next word to be emitted, the frame 0xF6 is sent by the next step. -/
theorem test_with_fetch_word : seen (step (State.reset.withFetchWord 8 0xF6))
    = some { trace := sends [0xF6], responses := [] } := by decide

/-! ## Initialization and reset -/

/-- TI1, step 1. -/
theorem test_first_init_step : seen (step State.reset)
    = some { trace := [.wait 40000], responses := [], isReady := false } := by decide

/-- TF1 to TF7. -/
theorem test_configured_function_set :
    configuredFS 0x28 .f5x8 .one = 0x20 ∧ configuredFS 0x28 .f5x8 .two = 0x28 ∧
    configuredFS 0x28 .f5x8 .three = 0x28 ∧ configuredFS 0x28 .f5x8 .four = 0x28 ∧
    configuredFS 0x28 .f5x10 .one = 0x24 ∧ configuredFS 0x28 .f5x10 .two = 0x2C ∧
    configuredFS 0x28 .f5x10 .four = 0x2C := by decide

/-- TU9 to TU11, TU16, TU22. -/
theorem test_upd : upd 0x0C 0x10 = 0x1C ∧ upd 0x0C 0x11 = 0x00 ∧ upd 0xFF 0x11 = 0x11 ∧ upd 0x0C 0xFF = 0x0C ∧
    updSH 0x0C = 0x1C := by decide

/-- TX9. -/
theorem test_frame_drops_low_bits : writeFrame false 0x3F false true = 0x34 := by decide

/-! ## The reference responder -/

/-- A controller in 4-bit mode with this address counter. -/
def lcdAt (ac : Addr7) : Lcd := { Lcd.powerOn with ac := ac, mode4 := true }

/-- A `READY` block with a controller in step. -/
def inStepState (ac : Addr7) (bytes : List Byte) : State :=
  { ready 16 false [] bytes with latch := 0x00, lcd := some (lcdAt ac) }

/-- P3, command 1: DDRAM[45] = 41, address counter 05. -/
theorem test_responder_write_ddram :
    (match step (inStepState 0x05 [0x12, 0x45, 0x41]) with
      | .next t => t.lcd.map fun l => (l.dd, l.ac, l.space)
      | .fault _ => none
      | .refused _ => none) = some ([(0x45, 0x41)], 0x05, .ddram) := by decide

/-- P3, command 2. -/
theorem test_responder_read_ddram :
    (match step { inStepState 0x05 [0x13, 0x45] with
        lcd := some { lcdAt 0x05 with dd := [(0x45, 0x41)] } } with
      | .next t => (t.responses, t.lcd.map fun l => l.ac)
      | .fault _ => ([], none)
      | .refused _ => ([], none)) = ([.byte 0x41], some 0x05) := by decide

/-- 20_memory.md section 8 by hand: in 4-bit mode one nibble turns the phase over, a second one turns it back. -/
theorem test_raw_nibble_turns_the_phase : ∀ p ∈ [(Phase.hi, Phase.lo), (.lo, .hi)],
    let s : State := { inStepState 0x05 [] with lcd := some { lcdAt 0x05 with phase := p.1 } }
    (nibbleWrite false 0x20 s).lcd.map (·.phase) = some p.2 ∧
    (nibbleWrite false 0x20 (nibbleWrite false 0x30 s)).lcd.map (·.phase) = some p.1 := by decide

/-! ## Witnesses: for every obligation with hypotheses, a state and operands that meet them -/

/-- Status reads answered 0x00. -/
def frees (n : Nat) : List (Byte × Byte) := List.replicate n (0x06, 0x06)

theorem frees_free (n : Nat) : freePolls (frees n) := by
  intro p hp
  rw [List.eq_of_mem_replicate hp]
  rfl

theorem witness_DecodeEncodeRoundTrip : (Instr.writeGlyph5x10 0xFF (List.replicate 11 0xFF)).wellFormed = true ∧
    (Instr.writeGlyph5x8 0x00 (List.replicate 8 0x00)).wellFormed = true ∧
    (Instr.lcdSetDdramAddress 0x7F).wellFormed = true := by decide

theorem witness_CommandBytesDecodeInAnyStream : (Instr.eraseLine 0xFF).wellFormed = true ∧
    encode (.eraseLine 0xFF) = .command [0x17, 0xFF] := by decide

theorem witness_DecodedCommandReencodes :
    decodeCommand [0x11, 0x05, 0x01, 0x22] = .ok (.setCursor 0x05 0x01, [0x22]) := by decide

theorem witness_DecodedEmittedWordReencodes : decodeLcdByte 0x01 = .ok .lcdClearDisplay ∧
    decodeLcdByte 0xFF = .ok (.lcdSetDdramAddress 0x7F) ∧ decodeRawNibble 0x2 = .ok .rawNibble4bitInterface ∧
    decodeFrame 0x00 = .ok (.xw 0 false false false) ∧ decodeFrame 0xFF = .ok (.xr true true true) := by decide

theorem witness_UndefinedCommandsAreRefused_opcodes : ∀ op ∈ [0x00#8, 0x22#8, 0xFF#8],
    (ready 16 false [] [op, 0x01]).resetIn = none ∧ (ready 16 false [] [op, 0x01]).seq = .ready ∧
    (ready 16 false [] [op, 0x01]).cmdPort = op :: [0x01] ∧ (op = 0x00 ∨ 0x22 ≤ op) := by decide

theorem witness_UndefinedCommandsAreRefused_short : ∀ given ∈ [[], [0x05#8]],
    (ready 16 false [] (0x11 :: given)).resetIn = none ∧ (ready 16 false [] (0x11 :: given)).seq = .ready ∧
    (Instr.setCursor 0x05 0x01).wellFormed = true ∧
    encode (.setCursor 0x05 0x01) = .command (0x11 :: [0x05, 0x01]) ∧ given.length < [0x05#8, 0x01#8].length ∧
    (ready 16 false [] (0x11 :: given)).cmdPort = 0x11 :: given := by decide

theorem witness_EveryOperandHasAMeaning : (Instr.setCursor 0xFF 0xFF).wellFormed = true ∧
    (ready 16 false [] []).seq = .ready ∧ (3 : Byte) < 4 ∧ (3 : Byte) < 0xFF := by decide

theorem witness_UpdFollowsTheMaskConvention : 0x10 < (0x11 : Byte).toNat ∧ (0x10 : Byte).toNat ≤ 0x10 := by decide

theorem witness_UpdIsIdempotentAndOneSided : (0x10 : Byte).toNat ≤ 0x10 ∧ 0x10 < (0x11 : Byte).toNat := by decide

theorem witness_LineOffsetTable : (3 : Byte) < 4 := by decide

/-- The clauses at the bounds of their ranges: they do not overlap. -/
theorem witness_AddressTagsAreOredUnmasked : (0x80 : Byte) ≤ 0x80 ∧ (0x80 : Byte) ≤ 0xFF ∧ (0x00 : Byte) ≤ 0x7F ∧
    (0x3F : Byte) ≤ 0x7F ∧ (0x40 : Byte) ≤ 0x7F ∧ (0x7F : Byte) ≤ 0x7F ∧ ¬ (0x80 : Byte) ≤ 0x7F ∧
    cursorByte 20 0xFF 3 = some 0xD3 := by decide

/-- R99 by hand: CGRAM addresses 0x11 and 0x51 are both sent as 0x51, 0x80 as 0xC0. -/
theorem test_address_tags : decodeLcdByte (cgramSet 0x11) = .ok (.lcdSetCgramAddress 0x11) ∧
    decodeLcdByte (cgramSet 0x51) = .ok (.lcdSetCgramAddress 0x11) ∧
    decodeLcdByte (cgramSet 0x80) = .ok (.lcdSetDdramAddress 0x40) := by decide

/-- Two bytes; a first short read; a byte and then a short read. -/
theorem witness_RegReadTransactions :
    (ready 16 false [byteReply 0x46, byteReply 0x56] []).replies = byteReply 0x46 :: byteReply 0x56 :: [] ∧
    (ready 16 false [⟨0, 0⟩] []).replies = ⟨0, 0⟩ :: [] ∧ (⟨0, 0⟩ : Reply).available ≠ 1 ∧
    (ready 16 false [byteReply 0x06, ⟨2, 0⟩] []).replies = byteReply 0x06 :: ⟨2, 0⟩ :: [] ∧
    (⟨2, 0⟩ : Reply).available ≠ 1 := by decide

theorem witness_StatusByteFields : (ready 16 false [⟨0, 0xFF⟩] []).replies = ⟨0, 0xFF⟩ :: [] ∧
    (⟨0, 0xFF⟩ : Reply).available ≠ 1 ∧
    (ready 16 false [byteReply 0xF6, ⟨0, 0xFF⟩] []).replies = byteReply 0xF6 :: ⟨0, 0xFF⟩ :: [] := by decide

/-- TC14 and TC15. -/
theorem witness_AbortedPollCountsAsFree : (ready 16 false [⟨0, 0xFF⟩] []).replies = ⟨0, 0xFF⟩ :: [] ∧
    (⟨0, 0xFF⟩ : Reply).available ≠ 1 ∧
    (ready 16 false [byteReply 0x86, ⟨2, 0x00⟩] []).replies = byteReply 0x86 :: ⟨2, 0x00⟩ :: [] ∧
    (⟨2, 0x00⟩ : Reply).available ≠ 1 := by decide

/-- TC15: the busy bit seen in the first sample is lost with the abort. -/
theorem test_poll_aborted_after_busy_sample : seen (step (ready 16 false [⟨1, 0x86⟩, ⟨0, 0x86⟩] [0x02]))
    = shows ([.write 0x20 0xF2, .write 0x20 0xF6, .read 0x20 (.byte 0x86), .write 0x20 0xF2, .write 0x20 0xF6,
        .read 0x20 .short] ++ sends [0x04, 0x04, 0x00, 0x24, 0x24, 0x20]) .unit := by decide

/-- A block in the middle of a poll that reads busy twice and then free (TC13). -/
def inPoll (q : Seq) (m : Micro) (ms : List Micro) : State :=
  { ready 16 false (pairReplies ([(0x86, 0x06), (0x86, 0x06)] ++ [(0x06, 0x06)]) ++ []) [] with
    seq := q, ops := m :: ms, saved := 0x05, value := 0x41 }

theorem inPoll_meets (q : Seq) (m : Micro) (ms : List Micro) (hq : q ≠ .ready) : (inPoll q m ms).resetIn = none ∧
    (inPoll q m ms).seq ≠ .ready ∧ (inPoll q m ms).ops = m :: ms ∧
    (∀ p ∈ [((0x86 : Byte), (0x06 : Byte)), (0x86, 0x06)], p.1.getLsbD 7 = true) ∧
    ((0x06 : Byte), (0x06 : Byte)).1.getLsbD 7 = false ∧
    (inPoll q m ms).replies = pairReplies ([(0x86, 0x06), (0x86, 0x06)] ++ [(0x06, 0x06)]) ++ [] :=
  ⟨rfl, hq, rfl, by simp, rfl, rfl⟩

/-- The write of a one-byte command, an emitted word, an init step, and the restore of READ_DDRAM meet all
hypotheses (`inPoll_meets`). -/
theorem witness_PollOfKTurnsCosts :
    (∀ c ∈ [(Seq.exec, [Micro.ret .unit]), (.exec, []), (.init 12, [])], c.1 ≠ .ready ∧
      (inPoll c.1 (.regWrite false 0x0E) c.2).ops = .regWrite false 0x0E :: c.2) ∧
    (inPoll .exec .restoreAC [.retValue]).ops = .restoreAC :: [.retValue] ∧
    (0x85 : Byte) = (inPoll .exec .restoreAC [.retValue]).saved ||| 0x80 := by
  refine ⟨?_, rfl, rfl⟩
  simp [inPoll]

/-- In the middle of a command and at an init step. -/
theorem witness_EndlessBusyNeverEnds : ∀ q ∈ [Seq.exec, Seq.init 8],
    let l : Lcd := { lcdAt 0 with bf := true }
    let s : State := { inStepState 0 [] with lcd := some l, seq := q, ops := .regWrite false 0x01 :: [.ret .unit] }
    s.resetIn = none ∧ s.lcd = some l ∧ l.mode4 = true ∧ l.phase = .hi ∧ s.eLow = true ∧ s.replies = [] ∧
    l.bf = true ∧ s.seq ≠ .ready ∧ s.ops = .regWrite false 0x01 :: [.ret .unit] := by decide

theorem witness_EnableLineLevels :
    (ready 16 false [byteReply 0x46, byteReply 0x56] []).replies = byteReply 0x46 :: byteReply 0x56 :: [] ∧
    (ready 16 false [⟨0, 0⟩] []).replies = ⟨0, 0⟩ :: [] ∧ (⟨0, 0⟩ : Reply).available ≠ 1 ∧
    (ready 16 false [byteReply 0x06, ⟨0, 0⟩] []).replies = byteReply 0x06 :: ⟨0, 0⟩ :: [] := by decide

theorem witness_ClearAndHomeSendTheirByte :
    (Instr.moveToHome, 0x02#8) ∈ [(Instr.clearDisplay, 0x01#8), (.moveToHome, 0x02#8)] ∧
    (ready 16 false [] []).seq = .ready := by decide

theorem witness_DisplayControlCommands : (Instr.disableBlinking, 0xFE#8) ∈
    [(Instr.enableDisplay, 0x04#8), (.disableDisplay, 0xFB#8), (.enableCursor, 0x02#8), (.disableCursor, 0xFD#8),
      (.enableBlinking, 0x01#8), (.disableBlinking, 0xFE#8)] ∧ (ready 16 false [] []).seq = .ready := by decide

theorem witness_EntryModeCommands : (Instr.disableShiftOnWrite, 0xFE#8) ∈
    [(Instr.displayToLeft, 0xFD#8), (.displayToRight, 0x02#8), (.enableShiftOnWrite, 0x01#8),
      (.disableShiftOnWrite, 0xFE#8)] ∧ (ready 16 false [] []).seq = .ready := by decide

theorem witness_ShiftCommands : (Instr.shiftDisplayRight, 0x1C#8) ∈
    [(Instr.shiftCursorLeft, 0x10#8), (.shiftCursorRight, 0x14#8), (.shiftDisplayLeft, 0x18#8),
      (.shiftDisplayRight, 0x1C#8)] ∧ (ready 16 false [] []).seq = .ready := by decide

/-- `sendsByte` splits on the status read: free (an aborted one too) and busy both occur. -/
theorem witness_sendsByte : (ready 16 false (free 1) []).statusFree = true ∧
    (ready 16 false [⟨0, 0⟩] []).statusFree = true ∧
    (ready 16 false (status 0x80) []).statusFree = false := by decide

theorem witness_SetCursorCommand : (ready 16 false [] []).seq = .ready ∧ (3 : Byte) < 4 ∧ (3 : Byte) < 0xFF ∧
    ¬ (3 : Byte) < 3 := by decide

theorem witness_DisplayCharCommand : (ready 16 false [] []).seq = .ready := by decide

theorem witness_EraseLineCommand :
    ((ready 3 false (pairReplies (frees 5) ++ []) []).seq = .ready ∧
      lineOffset (ready 3 false [] []).cfg.sizeX 3 = some 0x43 ∧
      (frees 5).length = (ready 3 false [] []).cfg.sizeX.toNat + 2 ∧ freePolls (frees 5)) ∧
    (ready 3 false (pairReplies (frees 3) ++ []) []).seq = .ready ∧ (3 : Byte) < 4 ∧
      (frees 3).length = (ready 3 false [] []).cfg.sizeX.toNat ∧ freePolls (frees 3) :=
  ⟨⟨rfl, by decide, by decide, frees_free 5⟩, rfl, by decide, by decide, frees_free 3⟩

theorem witness_SingleByteWriteCommands :
    (∃ addr, Instr.writeCgram 0xFF 0x5A = .writeCgram addr 0x5A ∧ (0xFF : Byte) = addr ||| 0x40) ∧
    (∃ addr, Instr.writeDdram 0x00 0x5A = .writeDdram addr 0x5A ∧ (0x80 : Byte) = addr ||| 0x80) ∧
    (ready 16 false [] []).seq = .ready ∧ (frees 3).length = 3 ∧ freePolls (frees 3) ∧
    (ready 16 false (pairReplies ((0x06, 0x56) :: frees 3) ++ []) []).replies
      = pairReplies ((0x06, 0x56) :: frees 3) ++ [] :=
  ⟨⟨0xFF, rfl, by decide⟩, ⟨0x00, rfl, by decide⟩, rfl, rfl, frees_free 3, rfl⟩

theorem witness_SingleByteReadCommands :
    (∃ addr, Instr.readCgram 0x00 = .readCgram addr ∧ (0x40 : Byte) = addr ||| 0x40) ∧
    (∃ addr, Instr.readDdram 0xFF = .readDdram addr ∧ (0xFF : Byte) = addr ||| 0x80) ∧
    (ready 16 false [] []).seq = .ready ∧ freePolls [((0x06 : Byte), (0x56 : Byte)), (0x06, 0x06)] ∧
    (ready 16 false (pairReplies [(0x06, 0x56), (0x06, 0x56), (0x47, 0x17), (0x06, 0x06)] ++ []) []).replies
      = pairReplies [(0x06, 0x56), (0x06, 0x56), (0x47, 0x17), (0x06, 0x06)] ++ [] :=
  ⟨⟨0x00, rfl, by decide⟩, ⟨0xFF, rfl, by decide⟩, rfl, by simp [freePolls], rfl⟩

theorem witness_GlyphCommands :
    (∃ slot, Instr.writeGlyph5x8 0xFF (List.replicate 8 0x1F) = .writeGlyph5x8 slot (List.replicate 8 0x1F) ∧
      (List.replicate 8 (0x1F : Byte)).length = 8 ∧ (0x38 : Byte) = (slot &&& 0x07) <<< 3) ∧
    (∃ slot, Instr.writeGlyph5x10 0x07 (List.replicate 11 0x1F) = .writeGlyph5x10 slot (List.replicate 11 0x1F) ∧
      (List.replicate 11 (0x1F : Byte)).length = 11 ∧ (0x30 : Byte) = (slot &&& 0x06) <<< 3) ∧
    (ready 16 false [] []).seq = .ready ∧ (frees 10).length = (List.replicate 8 (0x1F : Byte)).length + 2 ∧
    (frees 13).length = (List.replicate 11 (0x1F : Byte)).length + 2 ∧ freePolls (frees 10) ∧
    freePolls (frees 13) :=
  ⟨⟨0xFF, rfl, rfl, by decide⟩, ⟨0x07, rfl, rfl, by decide⟩, rfl, rfl, rfl, frees_free 10, frees_free 13⟩

theorem witness_ExecRefusesTheseFormsOnly : Instr.clearDisplay.wellFormed = true ∧ isCommand .clearDisplay = true ∧
    State.reset.seq ≠ .ready ∧ ([0] : List Byte).length ≠ 8 ∧ (List.replicate 10 (0 : Byte)).length ≠ 11 ∧
    exec .clearDisplay State.reset = .refused .portClosed := ⟨rfl, rfl, by decide, by decide, by decide, rfl⟩

/-- Every form, and reads of each kind: both samples given, the first short, the second short. -/
theorem witness_ShortReadsDoNotStopACommand :
    (∃ addr v, Instr.writeDdram 0x10 0x5A = .writeDdram addr v ∧ (0x90 : Byte) = addr ||| 0x80 ∧ [(0x5A : Byte)] = [v]) ∧
    (∃ addr v, Instr.writeCgram 0xFF 0x5A = .writeCgram addr v ∧ (0xFF : Byte) = addr ||| 0x40 ∧ [(0x5A : Byte)] = [v]) ∧
    (∃ slot, Instr.writeGlyph5x8 0x0A (List.replicate 8 0x1F) = .writeGlyph5x8 slot (List.replicate 8 0x1F) ∧
      (List.replicate 8 (0x1F : Byte)).length = 8 ∧ (0x50 : Byte) = ((slot &&& 0x07) <<< 3) ||| 0x40) ∧
    (∃ slot, Instr.writeGlyph5x10 0xFF (List.replicate 11 0x1F) = .writeGlyph5x10 slot (List.replicate 11 0x1F) ∧
      (List.replicate 11 (0x1F : Byte)).length = 11 ∧ (0x70 : Byte) = ((slot &&& 0x06) <<< 3) ||| 0x40) ∧
    (∃ addr, Instr.readDdram 0x45 = .readDdram addr ∧ (0xC5 : Byte) = addr ||| 0x80) ∧
    (∃ addr, Instr.readCgram 0x11 = .readCgram addr ∧ (0x51 : Byte) = addr ||| 0x40) ∧
    (ready 16 false [] []).seq = .ready ∧ (ReadAnswer.short1 ⟨0, 0x77⟩).legal = true ∧
    (ReadAnswer.short2 0x86 ⟨2, 0x77⟩).legal = true ∧ (ReadAnswer.bytes 0x46 0x56).legal = true ∧
    freeAnswers [.bytes 0x06 0x06, .short1 ⟨0, 0x77⟩, .short2 0x86 ⟨0, 0x77⟩] :=
  ⟨⟨_, _, rfl, rfl, rfl⟩, ⟨_, _, rfl, rfl, rfl⟩, ⟨_, rfl, rfl, rfl⟩, ⟨_, rfl, rfl, rfl⟩, ⟨_, rfl, rfl⟩, ⟨_, rfl, rfl⟩,
    rfl, rfl, rfl, rfl, by simp [freeAnswers, ReadAnswer.legal, ReadAnswer.value]⟩

/-- R251, R177: the data read of READ_CGRAM aborts at its second sample; the restore is still issued. -/
theorem test_read_cgram_short_data :
    seen (step (ready 16 false (status 0x42 ++ status 0x42 ++ [⟨1, 0x17⟩, ⟨0, 0x17⟩] ++ status 0x12) [0x1E, 0x11]))
    = shows (poll 0x42 ++ poll 0x42 ++ sends [0x54, 0x54, 0x50, 0x14, 0x14, 0x10] ++
        [.write 0x20 0xF3, .write 0x20 0xF7, .read 0x20 (.byte 0x17), .write 0x20 0xF3, .write 0x20 0xF7,
         .read 0x20 .short] ++
        poll 0x12 ++ sends [0xC4, 0xC4, 0xC0, 0x24, 0x24, 0x20]) (.byte 0x00) := by decide

theorem witness_BacklightCommands : (ready 16 false [] []).seq = .ready ∧
    (busRead1 (ready 16 false [⟨0, 0⟩] [])).1 = .short ∧
    (busRead1 (ready 16 false [⟨1, 0xF0⟩] [])).1 = .byte 0xF0 := by decide

theorem witness_GettersAnswerWithTheRegister : (ready 16 false [] []).seq = .ready ∧
    (Instr.getFunctionSet, (ready 16 false [] []).fs) ∈
      [(Instr.getEntryMode, (ready 16 false [] []).em), (.getDisplayControl, (ready 16 false [] []).dc),
       (.getShift, (ready 16 false [] []).sh), (.getFunctionSet, (ready 16 false [] []).fs)] := by decide

theorem witness_StatusCommands : (ready 16 false [] []).seq = .ready := by decide

theorem witness_LcdInstructionBytesAreWritten : encode .lcdClearDisplay = .lcdByte 0x01 ∧
    encode (.lcdSetDdramAddress 0x7F) = .lcdByte 0xFF ∧ (ready 16 false [] []).seq = .ready ∧
    (ready 16 false [] []).ops = [] := by decide

theorem witness_RawNibblesAndFramesAreSent : (ready 16 false [] []).seq = .ready ∧
    (ready 16 false [] []).ops = [] := by decide

/-- The bounds of every construction argument, legal and, one by one, illegal. -/
theorem witness_ConstructionChecksItsArguments :
    (∀ r ∈ [(⟨127, 255, 4, 1, .ks0066, true, 0⟩ : RawParams), ⟨0, 0, 1, 0, .hd44780, false, 1000⟩,
        ⟨0, 16, 2, 0, .splc780d, false, 1⟩, ⟨39, 20, 3, 1, .hd44780, true, 1000⟩],
      r.addr < 128 ∧ r.sizeX < 256 ∧ 1 ≤ r.sizeY ∧ r.sizeY ≤ 4 ∧ r.font ≤ 1) ∧
    ∀ r ∈ [(⟨128, 0, 1, 0, .hd44780, false, 0⟩ : RawParams), ⟨0, 256, 1, 0, .hd44780, false, 0⟩,
        ⟨0, 0, 0, 0, .hd44780, false, 0⟩, ⟨0, 0, 5, 0, .hd44780, false, 0⟩, ⟨0, 0, 1, 2, .hd44780, false, 0⟩],
      128 ≤ r.addr ∨ 256 ≤ r.sizeX ∨ r.sizeY < 1 ∨ 4 < r.sizeY ∨ 1 < r.font := by decide

/-- A reset asked for in the middle of an endless poll. -/
theorem witness_ResetReloadsFromAnyState :
    let s : State := { ready 16 false (status 0x80) [] with
      seq := .exec, ops := [.regWrite false 0x01, .ret .unit], resetIn := some Config.params }
    s.resetIn = some Config.params := by decide

/-- All free, and all aborted at either sample. -/
theorem witness_InitializationEndsReady :
    freeAnswers [.bytes 0x06 0x06, .bytes 0x06 0x06, .bytes 0x06 0x06, .bytes 0x06 0x06, .bytes 0x76 0xF6] ∧
    freeAnswers [.short1 ⟨0, 0⟩, .short2 0x86 ⟨0, 0⟩, .short1 ⟨2, 0⟩, .short1 ⟨0, 0⟩, .short1 ⟨0, 0⟩] ∧
    { Config.params with family := .ks0066 }.family = .ks0066 ∧ Config.params.family ≠ .ks0066 :=
  ⟨by simp [freeAnswers, ReadAnswer.legal, ReadAnswer.value], by simp [freeAnswers, ReadAnswer.legal, ReadAnswer.value],
    rfl, by decide⟩

theorem witness_SilentResponderDoesNotBlockInitialization :
    (List.replicate 5 (⟨0, 0xFF⟩ : Reply)).length = 5 ∧
    ∀ r ∈ List.replicate 5 (⟨0, 0xFF⟩ : Reply), r.available ≠ 1 := by decide

theorem witness_WaitsAreLowerBounds : 0 < 1000 ∧ 999 / 1000 + waitReadings 100 1000 ≤ 2000 / 1000 := by decide

theorem witness_InitStepsAreTheEmittedWords :
    (let s : State := { State.reset with seq := .init 7 }
     s.resetIn = none ∧ s.seq = .init 7 ∧ s.ops = [] ∧ s.cfg.family ≠ .ks0066) ∧
    (let s : State := { State.powerOn { Config.params with family := .ks0066 } with seq := .init 2 }
     s.resetIn = none ∧ s.seq = .init 2 ∧ s.ops = [] ∧ s.cfg.family = .ks0066) := by decide

theorem witness_StepRunsTheDecodedCommand : (ready 16 false [] [0x14, 0x48, 0x01]).resetIn = none ∧
    (ready 16 false [] [0x14, 0x48, 0x01]).seq = .ready ∧
    decodeCommand (ready 16 false [] [0x14, 0x48, 0x01]).cmdPort = .ok (.displayChar 0x48, [0x01]) ∧
    (ready 16 false [] []).cmdPort = [] := by decide

theorem witness_PortIsClosedOutsideReady : State.reset.resetIn = none ∧ State.reset.seq ≠ .ready := by decide

/-- A step at `READY`, a step of initialization and its last step. -/
theorem witness_InitializationIsNeverReentered :
    (∃ t, step (ready 16 false [] [0x1A]) = .next t) ∧ (∀ k, (ready 16 false [] [0x1A]).seq ≠ .init k) ∧
    (∃ t, step State.reset = .next t) ∧ State.reset.seq = .init 1 ∧
    (∃ t, step { State.reset with seq := .init 12 } = .next t) ∧
    (initSequence State.reset.cfg.family).length ≤ 12 :=
  ⟨⟨_, rfl⟩, fun _ h => (by cases h), ⟨_, rfl⟩, rfl, ⟨_, rfl⟩, by decide⟩

theorem witness_EveryStepKeepsTheInvariant : State.reset.Inv ∧ State.reset.pendingLegal = true ∧
    (∃ t, step State.reset = .next t) ∧
    ((inPoll .exec (.regWrite false 0x0E) [.ret .unit]).pendingLegal = true ∧
      ∃ t, step (inPoll .exec (.regWrite false 0x0E) [.ret .unit]) = .next t) ∧
    (inPoll (.init 12) (.regWrite false 0x0C) []).pendingLegal = true ∧
      ∃ t, step (inPoll (.init 12) (.regWrite false 0x0C) []) = .next t :=
  ⟨⟨by decide, by decide, by decide⟩, rfl, ⟨_, rfl⟩, ⟨rfl, _, rfl⟩, rfl, _, rfl⟩

theorem witness_WhoWritesWhichRegister : (∃ t, exec .enableCursor (ready 16 false [] []) = .next t) ∧
    ∃ t, exec .enableBacklight (ready 16 false [⟨1, 0⟩] []) = .next t := ⟨⟨_, rfl⟩, _, rfl⟩

/-- A first step; a later step that goes on, and one that ends. -/
theorem witness_OneResponsePerCommand : isCommand .readBusyFlag = true ∧
    (∃ t, exec .readBusyFlag (ready 16 false [] []) = .next t) ∧
    ∀ replies ∈ [status 0x80, free 1],
      let s : State := { ready 16 false replies [] with seq := .exec, ops := [.restoreAC, .retValue] }
      s.resetIn = none ∧ s.seq = .exec ∧ s.pendingLegal = true ∧ s.pendingAnswer = some .byte :=
  ⟨rfl, ⟨_, rfl⟩, by decide⟩

theorem witness_TraceGrowsAtOneAddress : State.reset.Inv ∧ ∃ t, step State.reset = .next t :=
  ⟨⟨by decide, by decide, by decide⟩, _, rfl⟩

theorem witness_EveryFrameCarriesTheBacklightFlag : isCommand .disableBacklight = true ∧
    (∃ t, exec .disableBacklight (ready 16 true [⟨1, 0x19⟩] []) = .next t) ∧
    (let s : State := { ready 16 true (free 1) [] with seq := .exec, ops := [.regWrite false 0x0E, .ret .unit] }
     s.pendingLegal = true ∧ ∃ t, step s = .next t) ∧
    State.reset.pendingLegal = true ∧ ∃ t, step State.reset = .next t :=
  ⟨rfl, ⟨_, rfl⟩, ⟨rfl, _, rfl⟩, rfl, _, rfl⟩

theorem witness_ResponderMemoryLaws : Memory.wf ddramSize [(0x00, 0x41), (0x7F, 0x42)] = true ∧
    0x7F < ddramSize ∧ 0x3F < cgramSize := by decide

theorem inStepState_inStep (ac : Addr7) : (inStepState ac []).inStep (lcdAt ac) :=
  ⟨rfl, rfl, rfl, by simp [State.eLow, inStepState], rfl⟩

theorem witness_CommandsEndAndKeepTheResponderInStep : (Instr.eraseLine 0xFF).wellFormed = true ∧
    isCommand (.eraseLine 0xFF) = true ∧ (inStepState 0x7F []).seq = .ready ∧
    (inStepState 0x7F []).inStep (lcdAt 0x7F) ∧ (lcdAt 0x7F).bf = false :=
  ⟨rfl, rfl, rfl, inStepState_inStep 0x7F, rfl⟩

theorem witness_ResponderExecutesTheBytesWritten : (Instr.writeDdram 0x45 0x41).wellFormed = true ∧
    (inStepState 0x05 []).seq = .ready ∧ (inStepState 0x05 []).ops = [] ∧
    (inStepState 0x05 []).inStep (lcdAt 0x05) ∧ (lcdAt 0x05).bf = false ∧
    writtenBytes (inStepState 0x05 []) 0x05 (.writeDdram 0x45 0x41)
      = some [(false, 0xC5), (true, 0x41), (false, 0x85)] ∧
    writtenBytes (inStepState 0x05 []) 0x05 .shiftCursorLeft = some [(false, 0x10)] ∧
    ∀ b ∈ [(false, (0x10 : Byte))], b.1 = false ∧ b.2 ≠ 0x01 :=
  ⟨rfl, rfl, rfl, inStepState_inStep 0x05, rfl, rfl, rfl, by simp⟩

theorem witness_DdramRoundTrip : (0x7F : Byte) < 0x80 ∧ (inStepState 0x05 []).seq = .ready ∧
    (inStepState 0x05 []).inStep (lcdAt 0x05) ∧ (lcdAt 0x05).bf = false ∧
    (lcdAt 0x05).dd.wf ddramSize = true :=
  ⟨by decide, rfl, inStepState_inStep 0x05, rfl, rfl⟩

theorem witness_CgramRoundTrip : (0x3F : Byte) < 0x40 ∧ (inStepState 0x05 []).seq = .ready ∧
    (inStepState 0x05 []).inStep (lcdAt 0x05) ∧ (lcdAt 0x05).bf = false ∧
    (lcdAt 0x05).cg.wf cgramSize = true :=
  ⟨by decide, rfl, inStepState_inStep 0x05, rfl, rfl⟩

theorem witness_GlyphStoresItsRows :
    (∃ slot, Instr.writeGlyph5x8 0xFF (List.replicate 8 0x1F) = .writeGlyph5x8 slot (List.replicate 8 0x1F) ∧
      (List.replicate 8 (0x1F : Byte)).length = 8 ∧ 0x38 = 8 * (slot.toNat % 8)) ∧
    (∃ slot, Instr.writeGlyph5x10 0x07 (List.replicate 11 0x1F) = .writeGlyph5x10 slot (List.replicate 11 0x1F) ∧
      (List.replicate 11 (0x1F : Byte)).length = 11 ∧ 0x30 = 16 * (slot.toNat % 8 / 2)) ∧
    (inStepState 0x42 []).seq = .ready ∧ (inStepState 0x42 []).inStep (lcdAt 0x42) ∧ (lcdAt 0x42).bf = false ∧
    (lcdAt 0x42).inc = true ∧ (lcdAt 0x42).cg.wf cgramSize = true :=
  ⟨⟨0xFF, rfl, rfl, by decide⟩, ⟨0x07, rfl, rfl, by decide⟩, rfl, inStepState_inStep 0x42, rfl, rfl, rfl⟩

end Sys2Proof.Tests
end

section
/-!
Construction (00_scope.md R7, 92_eei_decisions.md D22): `checkParams` accepts exactly the arguments that are the
plain numbers of some legal parameters, and answers those parameters.
-/

namespace Sys2Proof

/-- The construction argument `SIZE_Y` that stands for a number of lines (R7). -/
def LineCount.number : LineCount → Nat
  | .one => 1
  | .two => 2
  | .three => 3
  | .four => 4

/-- The construction argument `FONT` that stands for a font (R7). -/
def Font.number : Font → Nat
  | .f5x8 => 0
  | .f5x10 => 1

/-- The construction arguments that stand for parameters `p`. -/
def Params.raw (p : Params) : RawParams where
  addr := p.addr.toNat
  sizeX := p.sizeX.toNat
  sizeY := p.sizeY.number
  font := p.font.number
  family := p.family
  blReset := p.blReset
  clockRes := p.clockRes

theorem LineCount.eq_iff_number_eq {l m : LineCount} : l = m ↔ l.number = m.number := by
  cases l <;> cases m <;> decide

theorem Font.eq_iff_number_eq {f g : Font} : f = g ↔ f.number = g.number := by
  cases f <;> cases g <;> decide

theorem LineCount.number_bounds (l : LineCount) : 1 ≤ l.number ∧ l.number ≤ 4 := by
  cases l <;> decide

theorem Font.number_le_one (f : Font) : f.number ≤ 1 := by
  cases f <;> decide

theorem LineCount.exists_number_eq {n : Nat} (h1 : 1 ≤ n) (h4 : n ≤ 4) : ∃ l : LineCount, l.number = n := by
  obtain rfl | rfl | rfl | rfl : n = 1 ∨ n = 2 ∨ n = 3 ∨ n = 4 := by omega
  · exact ⟨.one, rfl⟩
  · exact ⟨.two, rfl⟩
  · exact ⟨.three, rfl⟩
  · exact ⟨.four, rfl⟩

theorem Font.exists_number_eq {n : Nat} (h : n ≤ 1) : ∃ f : Font, f.number = n := by
  obtain rfl | rfl : n = 0 ∨ n = 1 := by omega
  · exact ⟨.f5x8, rfl⟩
  · exact ⟨.f5x10, rfl⟩

/-- D22 bounds four of the arguments; `FAMILY`, `BL_RESET` and `CLOCK_RES` are free. -/
theorem Params.exists_raw_eq {r : RawParams} (ha : r.addr < 128) (hx : r.sizeX < 256) (h1 : 1 ≤ r.sizeY)
    (h4 : r.sizeY ≤ 4) (hf : r.font ≤ 1) : ∃ p : Params, p.raw = r := by
  obtain ⟨addr, sizeX, sizeY, font, family, blReset, clockRes⟩ := r
  obtain ⟨lines, rfl⟩ := LineCount.exists_number_eq h1 h4
  obtain ⟨font, rfl⟩ := Font.exists_number_eq hf
  refine ⟨⟨BitVec.ofNat 7 addr, BitVec.ofNat 8 sizeX, lines, font, family, blReset, clockRes⟩, ?_⟩
  simp [Params.raw, Nat.mod_eq_of_lt ha, Nat.mod_eq_of_lt hx]

end Sys2Proof

namespace Sys2Proof.Machine

open Sys2Proof

@[simp] theorem lineCountOfNat_number (l : LineCount) : lineCountOfNat l.number = some l := by
  cases l <;> rfl

@[simp] theorem fontOfNat_number (f : Font) : fontOfNat f.number = some f := by
  cases f <;> rfl

theorem number_lineCountOfNat {n : Nat} {l : LineCount} (h : lineCountOfNat n = some l) : l.number = n := by
  unfold lineCountOfNat at h
  split at h <;> cases h <;> rfl

theorem number_fontOfNat {n : Nat} {f : Font} (h : fontOfNat n = some f) : f.number = n := by
  unfold fontOfNat at h
  split at h <;> cases h <;> rfl

theorem checkParams_raw (p : Params) : checkParams p.raw = some p := by
  simp [checkParams, Params.raw, p.addr.isLt, p.sizeX.isLt]

theorem raw_of_checkParams {r : RawParams} {p : Params} (h : checkParams r = some p) : p.raw = r := by
  unfold checkParams at h
  split at h
  next lines font hl hf =>
    split at h
    next hb =>
      obtain ⟨ha, hx⟩ := hb
      cases h
      simp [Params.raw, Nat.mod_eq_of_lt ha, Nat.mod_eq_of_lt hx, number_lineCountOfNat hl, number_fontOfNat hf]
    next => cases h
  next => cases h

theorem construct_raw (p : Params) : State.construct p.raw = .next (State.powerOn p) := by
  rw [State.construct, checkParams_raw]

theorem construct_eq_refused {r : RawParams} (h : ∀ p : Params, p.raw ≠ r) :
    State.construct r = .refused .illegalParameter := by
  have hnone : checkParams r = none := Option.eq_none_iff_forall_ne_some.2 fun p hp => h p (raw_of_checkParams hp)
  rw [State.construct, hnone]

/-- Settles O40: legal arguments are the plain numbers of some parameters, which construction latches; the plain
numbers of any parameters keep the four bounds, so that arguments outside one of them are refused. -/
theorem constructionChecksItsArguments : Obligations.ConstructionChecksItsArguments := by
  constructor
  · intro r ha hx h1 h4 hf
    obtain ⟨p, rfl⟩ := Params.exists_raw_eq ha hx h1 h4 hf
    exact ⟨p, construct_raw p, rfl, rfl, LineCount.eq_iff_number_eq, LineCount.eq_iff_number_eq,
      LineCount.eq_iff_number_eq, LineCount.eq_iff_number_eq, Font.eq_iff_number_eq, Font.eq_iff_number_eq,
      rfl, rfl, rfl⟩
  · intro r hr
    refine construct_eq_refused ?_
    rintro p rfl
    have haddr : p.raw.addr < 128 := p.addr.isLt
    have hsizeX : p.raw.sizeX < 256 := p.sizeX.isLt
    have hsizeY : 1 ≤ p.raw.sizeY ∧ p.raw.sizeY ≤ 4 := p.sizeY.number_bounds
    have hfont : p.raw.font ≤ 1 := p.font.number_le_one
    omega

end Sys2Proof.Machine
end

section
/-!
The sequencer and the registers (10_state.md): what a step of initialization runs, once, and the invariants of every
step that follow from it and from what a command runs (`exec_command_next`).
-/

namespace Sys2Proof.Machine

open Sys2Proof

/-! ## A step of initialization is a run -/

/-- The function-set configuration step keeps `FS`'s tag and zero bits (R25, R224). -/
theorem configuredFS_legal {fs : Byte} (font : Font) (lines : LineCount) (h : (fs &&& 0xF3 == 0x20) = true) :
    (configuredFS fs font lines &&& 0xF3 == 0x20) = true := by
  unfold configuredFS
  split_ifs <;> revert fs <;> decide

theorem prepare_registersLegal (a : InitAction) {s : State} (h : s.registersLegal = true) :
    (a.prepare s).registersLegal = true := by
  cases a with
  | functionSet =>
    rw [registersLegal_iff] at h ⊢
    obtain ⟨hem, hdc, hsh, hfs⟩ := h
    exact ⟨hem, hdc, hsh, configuredFS_legal _ _ hfs⟩
  | displayOn =>
    rw [registersLegal_iff] at h ⊢
    obtain ⟨hem, hdc, hsh, hfs⟩ := h
    exact ⟨hem, (upd_dc_legal _ hdc).1, hsh, hfs⟩
  | wait _ | rawNibble _ | displayOff | clear | entryMode => exact h

theorem prepare_memoryLegal (a : InitAction) (s : State) : (a.prepare s).memoryLegal = s.memoryLegal := by
  cases a <;> rfl

/-- The state `b` from which a step of initialization, taken in state `s`, runs the micro-operations `ops`. -/
structure InitBegun (s b : State) (ops : List Micro) : Prop where
  seq : b.seq = s.seq
  cfg : b.cfg = s.cfg
  bl : b.bl = s.bl
  trace : b.trace = s.trace
  registers : s.registersLegal = true → b.registersLegal = true
  memory : s.memoryLegal = true → b.memoryLegal = true
  ops : ∀ m ∈ ops, m ∈ s.ops ∨ (m.isCodec || m.isWait) = true

theorem InitBegun.same {s : State} {ops : List Micro} (h : ops ⊆ s.ops) : InitBegun s s ops :=
  ⟨rfl, rfl, rfl, rfl, id, id, fun _ hm => .inl (h hm)⟩

theorem InitBegun.prepare (a : InitAction) (s : State) : InitBegun s (a.prepare s) (a.ops (a.prepare s)) := by
  obtain ⟨hseq, hcfg, hbl, htrace⟩ := prepare_same a s
  exact ⟨hseq, hcfg, hbl, htrace, prepare_registersLegal a, fun h => (prepare_memoryLegal a s).trans h,
    fun m hm => .inr (initAction_ops_legal a _ m hm)⟩

theorem initTurn_eq_run (k : Nat) (s : State) : ∃ b ops, InitBegun s b ops ∧ initTurn k s = run ops b := by
  rcases initTurn_begun k s with h | ⟨a, h⟩ | h
  · exact ⟨s, [], InitBegun.same (List.nil_subset _), h⟩
  · exact ⟨_, _, InitBegun.prepare a s, h⟩
  · exact ⟨s, s.ops, InitBegun.same (List.Subset.refl _), h⟩

/-- Under the invariant of what is left to issue, an init step runs codec operations and waits. -/
theorem InitBegun.ops_legal {s b : State} {ops : List Micro} (hb : InitBegun s b ops) {k : Nat} (hq : s.seq = .init k)
    (h : s.pendingLegal = true) : ∀ m ∈ ops, (m.isCodec || m.isWait) = true := by
  simp only [State.pendingLegal, hq, List.all_eq_true] at h
  exact fun m hm => (hb.ops m hm).elim (h m) id

/-! ## The sequencer's positions (R27) -/

theorem run_seq_exec {ops : List Micro} {s : State} (hq : s.seq = .exec) :
    (run ops s).seq = .ready ∨ (run ops s).seq = .exec := by
  rcases run_seq ops s with ⟨h, -⟩ | ⟨h, -⟩ <;> rw [hq] at h
  · exact .inl h
  · exact .inr h

theorem initTurn_seq {s : State} {k : Nat} (hq : s.seq = .init k) :
    (initTurn k s).seq = .init k ∨
    (k < (initSequence s.cfg.family).length ∧ (initTurn k s).seq = .init (k + 1)) ∨
    ((initSequence s.cfg.family).length ≤ k ∧ (initTurn k s).seq = .ready) := by
  obtain ⟨b, ops, hb, e⟩ := initTurn_eq_run k s
  rw [e]
  rcases run_seq ops b with ⟨h, -⟩ | ⟨h, -⟩ <;> rw [hb.seq, hq] at h
  · rw [hb.cfg, nextSeq] at h
    split_ifs at h with hk
    · exact .inr (.inl ⟨hk, h⟩)
    · exact .inr (.inr ⟨not_lt.1 hk, h⟩)
  · exact .inl h

/-- Once initialization is over, a step without a reset leads to `READY` or `EXEC`. -/
theorem step_seq_of_initialized {s t : State} (hr : s.resetIn = none) (hq : ∀ k, s.seq ≠ .init k)
    (h : step s = .next t) : t.seq = .ready ∨ t.seq = .exec := by
  rcases step_cases h with ⟨p, hp, -⟩ | ⟨-, ⟨k, hk, -⟩ | ⟨he, rfl⟩ | ⟨he, -, rfl⟩ | ⟨-, i, rest, hd, hx⟩⟩
  · rw [hr] at hp; cases hp
  · exact absurd hk (hq k)
  · exact run_seq_exec he
  · exact .inl he
  · obtain ⟨-, a, ops, last, hb, -, -, rfl⟩ := exec_command_next (decodeCommand_isCommand hd) hx
    exact run_seq_exec hb.seq

/-! ## The invariant -/

theorem one_le_initSequence_length (family : Family) : 1 ≤ (initSequence family).length := by
  cases family <;> decide

theorem powerOn_inv (p : Params) : (State.powerOn p).Inv :=
  ⟨by simp [State.registersLegal, State.powerOn],
    decide_eq_true ⟨le_rfl, one_le_initSequence_length p.family⟩, rfl⟩

theorem resetWith_inv (p : Params) {s : State} (h : s.Inv) : (s.resetWith p).Inv := by
  obtain ⟨hregisters, hsequencer, -⟩ := powerOn_inv p
  obtain ⟨-, -, hmemory⟩ := h
  exact ⟨hregisters, hsequencer, hmemory⟩

theorem initTurn_inv {s : State} {k : Nat} (hq : s.seq = .init k) (h : s.Inv) : (initTurn k s).Inv := by
  obtain ⟨hregisters, hsequencer, hmemory⟩ := h
  obtain ⟨b, ops, hb, e⟩ := initTurn_eq_run k s
  rw [e]
  refine run_inv (hb.registers hregisters) (hb.memory hmemory) ?_
  simpa [State.sequencerLegal, hb.seq, hb.cfg, hq] using hsequencer

theorem run_pending_inv {s : State} (hq : s.seq = .exec) (h : s.Inv) : (run s.ops s).Inv := by
  obtain ⟨hregisters, hsequencer, hmemory⟩ := h
  refine run_inv hregisters hmemory ?_
  simp only [State.sequencerLegal, hq, Bool.and_eq_true, List.all_eq_true, Bool.not_eq_true'] at hsequencer
  simpa only [hq] using hsequencer.2

theorem exec_inv {i : Instr} {s t : State} (hc : isCommand i = true) (h : s.Inv) (hx : exec i s = .next t) :
    t.Inv := by
  obtain ⟨hregisters, -, hmemory⟩ := h
  obtain ⟨-, a, ops, last, hb, hp, ha, rfl⟩ := exec_command_next hc hx
  refine run_inv (hb.registers hregisters) (hb.memory hmemory) ?_
  simp only [hb.seq, List.mem_append, List.mem_singleton]
  rintro m (hm | rfl)
  · exact plainOps_noWait hp m hm
  · exact answers_noWait ha

theorem step_inv {s t : State} (h : s.Inv) (hs : step s = .next t) : t.Inv := by
  rcases step_cases hs with ⟨p, -, rfl⟩ | ⟨-, ⟨k, hk, rfl⟩ | ⟨he, rfl⟩ | ⟨-, -, rfl⟩ | ⟨-, i, rest, hd, hx⟩⟩
  · exact resetWith_inv p h
  · exact initTurn_inv hk h
  · exact run_pending_inv he h
  · exact h
  · exact exec_inv (s := { s with cmdPort := rest }) (decodeCommand_isCommand hd) h hx

/-! ## What is left to issue -/

theorem pendingLegal_of_ready {s : State} (hq : s.seq = .ready) (ho : s.ops = []) : s.pendingLegal = true := by
  simp [State.pendingLegal, hq, ho]

/-- A run in `EXEC` of a command's micro-operations leaves nothing, or what ends in the command's response. -/
theorem run_pending_exec {bl : Bool} {ops : List Micro} {last : Micro} {kind : ResponseKind} (hp : plainOps bl ops)
    (hl : last.answerKind = some kind) {s : State} (hq : s.seq = .exec) :
    (run (ops ++ [last]) s).pendingLegal = true := by
  rcases run_response hp hl hq with ⟨hr, ho, -⟩ | ⟨-, -, -, h, -⟩
  · exact pendingLegal_of_ready hr ho
  · exact h

theorem step_pendingLegal {s t : State} (h : s.pendingLegal = true) (hs : step s = .next t) :
    t.pendingLegal = true := by
  rcases step_cases hs with ⟨p, -, rfl⟩ | ⟨-, ⟨k, hk, rfl⟩ | ⟨he, rfl⟩ | ⟨-, -, rfl⟩ | ⟨-, i, rest, hd, hx⟩⟩
  · rfl
  · obtain ⟨b, ops, hb, e⟩ := initTurn_eq_run k s
    rw [e]
    exact run_pending_init (hb.seq.trans hk) (hb.ops_legal hk h)
  · obtain ⟨ops, last, kind, ho, hcodec, hlast, -⟩ := (pendingLegal_exec he).1 h
    rw [ho]
    exact run_pending_exec (bl := s.bl) (plainOps_codec hcodec) hlast he
  · exact h
  · obtain ⟨-, a, ops, last, hb, hp, ha, rfl⟩ := exec_command_next (decodeCommand_isCommand hd) hx
    obtain ⟨kind, hlast, -⟩ := ha.kind
    exact run_pending_exec hp hlast hb.seq

/-- Settles O49: a step is a reset, nothing, or a run from a state that meets the invariant. -/
theorem everyStepKeepsTheInvariant : Obligations.EveryStepKeepsTheInvariant :=
  ⟨fun _ _ => step_inv, fun _ _ => step_pendingLegal⟩

/-- Settles O50: position 1 is one that both variants have. -/
theorem constructionMeetsTheInvariant : Obligations.ConstructionMeetsTheInvariant :=
  fun p => ⟨powerOn_inv p, rfl⟩

/-- Settles O48: an init step goes where its run goes, and after initialization only commands run. -/
theorem initializationIsNeverReentered : Obligations.InitializationIsNeverReentered := by
  intro s t hr hs
  constructor
  · intro hq k hk
    rcases step_seq_of_initialized hr hq hs with h | h <;> rw [hk] at h <;> cases h
  · intro k hq
    rw [step_init hr hq] at hs
    cases hs
    exact initTurn_seq hq

end Sys2Proof.Machine
end

section
/-!
What instructions refuse and change (10_state.md R21, R27, R29, R30), and the backlight flag on every frame of a step
(30_encoding.md R95).
-/

namespace Sys2Proof.Machine

open Sys2Proof

/-! ## Tables, construction and the command port -/

/-- Settles O12: the four entries are the table's own, and `lineOffset_above` says that there is no other. -/
theorem lineOffsetTable : Obligations.LineOffsetTable :=
  fun sizeX => ⟨rfl, rfl, rfl, rfl, fun _ h => lineOffset_above h sizeX⟩

/-- Settles O39: construction loads the values of R35, whatever the parameters. -/
theorem stateAtConstruction : Obligations.StateAtConstruction :=
  fun _ => ⟨rfl, rfl, rfl, rfl, rfl, rfl, rfl⟩

/-- Settles O46: the two branches of a step at `READY` that are not refused. -/
theorem stepRunsTheDecodedCommand : Obligations.StepRunsTheDecodedCommand :=
  ⟨fun _ _ _ hr hq hd => step_ready_some hr hq hd, fun _ hr hq hp => step_ready_none hr hq hp⟩

/-- Settles O47: outside `READY` a step is an init step or a run, which both leave the port alone. -/
theorem portIsClosedOutsideReady : Obligations.PortIsClosedOutsideReady := by
  intro s hr hq
  cases hk : s.seq with
  | ready => exact absurd hk hq
  | init k => exact ⟨_, step_init hr hk, (initTurn_frame k s).1⟩
  | exec => exact ⟨_, step_exec hr hk, (run_frame s.ops s).cmdPort⟩

/-! ## What `exec` refuses -/

/-- A well-formed command is accepted at `READY` only, with an effect of its own (R27, R283). -/
theorem exec_command {i : Instr} (hw : i.wellFormed = true) (hc : isCommand i = true) (s : State) :
    ∃ effect, exec i s = command s effect := by
  cases i with
  | writeGlyph5x8 slot d | writeGlyph5x10 slot d => exact ⟨_, if_pos (eq_of_beq hw)⟩
  | enableDisplay | disableDisplay | enableCursor | disableCursor | enableBlinking | disableBlinking =>
    exact ⟨_, (rfl : updateDC _ s = command s _)⟩
  | displayToLeft | displayToRight | enableShiftOnWrite | disableShiftOnWrite =>
    exact ⟨_, (rfl : updateEM _ s = command s _)⟩
  | shiftCursorLeft | shiftCursorRight | shiftDisplayLeft | shiftDisplayRight =>
    exact ⟨_, (rfl : updateSH _ s = command s _)⟩
  | enableBacklight | disableBacklight => exact ⟨_, (rfl : backlightCommand _ _ s = command s _)⟩
  | readAddressCounter => exact ⟨_, exec_readAddressCounter s⟩
  | readBusyFlag => exact ⟨_, exec_readBusyFlag s⟩
  | lcdClearDisplay | lcdReturnHome | lcdEntryModeSet | lcdDisplayControl | lcdCursorDisplayShift
  | lcdFunctionSet4bit | lcdSetCgramAddress | lcdSetDdramAddress | rawNibble8bitInterface
  | rawNibble4bitInterface | xw | xr => cases hc
  | _ => exact ⟨_, rfl⟩

theorem exec_closed {i : Instr} (hw : i.wellFormed = true) (hc : isCommand i = true) {s : State}
    (hq : s.seq ≠ .ready) : exec i s = .refused .portClosed := by
  obtain ⟨effect, e⟩ := exec_command hw hc s
  rw [e, command_closed hq]

theorem glyphCommand_refused {n : Nat} {d : List Byte} (h : d.length ≠ n) (op base : Byte) (s : State) :
    glyphCommand op n base d s = .refused (.shortCommand op) := if_neg h

theorem isCommand_of_refused {i : Instr} {s : State} {r : Refusal} (h : exec i s = .refused r) :
    isCommand i = true := by
  by_contra hc
  rw [exec_emitted (Bool.not_eq_true _ ▸ hc)] at h
  cases h

/-- Settles O32: a well-formed command is refused outside `READY` only, a word the block emits never. -/
theorem execRefusesTheseFormsOnly : Obligations.ExecRefusesTheseFormsOnly := by
  refine ⟨fun i s hw hc hq => exec_closed hw hc hq, fun _ _ s h => glyphCommand_refused h _ _ s,
    fun _ _ s h => glyphCommand_refused h _ _ s, fun i s r h => ⟨isCommand_of_refused h, ?_⟩⟩
  by_contra hn
  obtain ⟨hq, hw⟩ := not_or.1 hn
  obtain ⟨effect, e⟩ := exec_command (Bool.not_eq_false _ ▸ hw) (isCommand_of_refused h) s
  rw [e, command_ready (not_not.1 hq)] at h
  cases h

/-! ## Which instruction changes which register -/

/-- Settles O51: a command runs from a state in which its own register alone is changed, a word the block emits from
the state as it is, and a run leaves the registers alone. -/
theorem whoWritesWhichRegister : Obligations.WhoWritesWhichRegister := by
  intro i s t h
  cases hc : isCommand i with
  | true =>
    obtain ⟨-, a, ops, last, hb, -, -, rfl⟩ := exec_command_next hc h
    have hf := run_frame (ops ++ [last]) a
    exact ⟨hf.fs.trans hb.fs, hf.cfg.trans hb.cfg, hf.cmdPort.trans hb.cmdPort, hf.resetIn.trans hb.resetIn,
      fun hi => hf.em.trans (hb.em hi), fun hi => hf.dc.trans (hb.dc hi), fun hi => hf.sh.trans (hb.sh hi),
      fun hi => hf.bl.trans (hb.bl hi)⟩
  | false =>
    rw [exec_emitted hc] at h
    cases h
    have hf := run_frame (emittedOps (encode i) ++ s.ops) { s with seq := emitSeq s.seq }
    exact ⟨hf.fs, hf.cfg, hf.cmdPort, hf.resetIn, fun _ => hf.em, fun _ => hf.dc, fun _ => hf.sh, fun _ => hf.bl⟩

/-! ## The backlight flag on every frame -/

/-- The trace has grown from `s` to `t`, and every byte transmitted carries `t`'s `BL` in bit 3 (R95). -/
def CarriesFlag (s t : State) : Prop :=
  ∃ new, t.trace = s.trace ++ new ∧ ∀ b ∈ sentBytes new, b.getLsbD 3 = t.bl

theorem carriesFlag_of_trace_eq {s t : State} (h : t.trace = s.trace) : CarriesFlag s t :=
  ⟨[], by simp [h], by simp [sentBytes]⟩

theorem CarriesFlag.trans_flagged {s t u : State} (h : CarriesFlag s t) (k : flagged t u) : CarriesFlag s u := by
  obtain ⟨new, htrace, hsent⟩ := h
  obtain ⟨hbl, more, htrace', hsent'⟩ := k
  refine ⟨new ++ more, by rw [htrace', htrace, List.append_assoc], fun b hb => ?_⟩
  rw [sentBytes_append, List.mem_append] at hb
  rw [hbl]
  exact hb.elim (hsent b) (hsent' b)

/-- A command's micro-operations, its response included, carry the flag. -/
theorem run_command_flagged {a : State} {ops : List Micro} {last : Micro} {kind : ResponseKind}
    (hp : plainOps a.bl ops) (hl : last.answerKind = some kind) : flagged a (run (ops ++ [last]) a) := by
  refine run_flagged fun m hm => ?_
  rw [List.mem_append, List.mem_singleton] at hm
  rcases hm with hm | rfl
  · exact (hp.mem hm).imp_right fun h => .inr (.inr h)
  · exact .inr (.inr (.inl (by rw [hl]; rfl)))

theorem exec_carriesFlag {i : Instr} {s t : State} (hc : isCommand i = true) (h : exec i s = .next t) :
    CarriesFlag s t := by
  obtain ⟨-, a, ops, last, hb, hp, ha, rfl⟩ := exec_command_next hc h
  obtain ⟨new, htrace, -, hsent⟩ := hb.trace
  obtain ⟨kind, hlast, -⟩ := ha.kind
  exact CarriesFlag.trans_flagged ⟨new, htrace, hsent⟩ (run_command_flagged hp hlast)

theorem initTurn_carriesFlag {s : State} {k : Nat} (hq : s.seq = .init k) (h : s.pendingLegal = true) :
    CarriesFlag s (initTurn k s) := by
  obtain ⟨b, ops, hb, e⟩ := initTurn_eq_run k s
  rw [e]
  refine (carriesFlag_of_trace_eq hb.trace).trans_flagged (run_flagged fun m hm => ?_)
  exact (Bool.or_eq_true _ _ ▸ hb.ops_legal hq h m hm).imp_right .inl

theorem step_carriesFlag {s t : State} (h : s.pendingLegal = true) (hs : step s = .next t) : CarriesFlag s t := by
  rcases step_cases hs with ⟨p, -, rfl⟩ | ⟨-, ⟨k, hk, rfl⟩ | ⟨he, rfl⟩ | ⟨-, -, rfl⟩ | ⟨-, i, rest, hd, hx⟩⟩
  · exact carriesFlag_of_trace_eq rfl
  · exact initTurn_carriesFlag hk h
  · obtain ⟨ops, last, kind, ho, hcodec, hlast, -⟩ := (pendingLegal_exec he).1 h
    rw [ho]
    exact (carriesFlag_of_trace_eq rfl).trans_flagged (run_command_flagged (plainOps_codec hcodec) hlast)
  · exact carriesFlag_of_trace_eq rfl
  · exact exec_carriesFlag (s := { s with cmdPort := rest }) (decodeCommand_isCommand hd) hx

/-- Settles O54: codec frames carry the flag, and the one bare transmission of a command is a backlight command's, whose
byte carries it as that command leaves it. -/
theorem everyFrameCarriesTheBacklightFlag : Obligations.EveryFrameCarriesTheBacklightFlag :=
  ⟨fun _ _ _ => exec_carriesFlag, fun _ _ => step_carriesFlag⟩

end Sys2Proof.Machine
end

section
/-!
Initialization from construction as a chain of its variant's steps (44_init_sequences.md R225, R226).
-/

namespace Sys2Proof.Machine

open Sys2Proof

/-- From `s`, `k` steps of initialization lead to where `k` steps of the variant are done, with these registers,
answers left and items issued. -/
def InitReached (p : Params) (s : State) (k : Nat) (dc fs : Byte) (rp : List Reply) (tr : List Event) : Prop :=
  ∃ t, Sys2Proof.core.run k s = .next t ∧ InitAt p t (nextSeq p.family (.init k)) dc fs rp tr

theorem initAt_powerOn (p : Params) (rp : List Reply) :
    InitAt p { State.powerOn p with replies := rp } (.init 1) 0x0C 0x28 rp [] :=
  ⟨rfl, rfl, rfl, rfl, rfl, rfl, rfl, rfl, rfl, rfl, rfl, rfl⟩

theorem nextSeq_init_zero (family : Family) : nextSeq family (.init 0) = .init 1 :=
  if_pos (one_le_initSequence_length family)

theorem InitReached.start (p : Params) (rp : List Reply) :
    InitReached p { State.powerOn p with replies := rp } 0 0x0C 0x28 rp [] :=
  ⟨_, rfl, nextSeq_init_zero p.family ▸ initAt_powerOn p rp⟩

/-- What a full register write of initialization is: from registers `dc` and `fs` the step makes them `dc'` and `fs'`,
and writes `v`. -/
def InitAction.Writes (a : InitAction) (p : Params) (dc fs dc' fs' v : Byte) : Prop :=
  ∀ t : State, t.cfg = p → t.em = 0x06 → t.dc = dc → t.fs = fs →
    a.prepare t = { t with dc := dc', fs := fs' } ∧ a.ops (a.prepare t) = [.regWrite false v]

theorem functionSet_writes (p : Params) (dc fs : Byte) :
    InitAction.functionSet.Writes p dc fs dc (configuredFS fs p.font p.sizeY) (configuredFS fs p.font p.sizeY) := by
  rintro t rfl - rfl rfl
  exact ⟨rfl, rfl⟩

theorem displayOff_writes (p : Params) (dc fs : Byte) : InitAction.displayOff.Writes p dc fs dc fs 0x08 := by
  rintro t - - rfl rfl
  exact ⟨rfl, rfl⟩

theorem clear_writes (p : Params) (dc fs : Byte) : InitAction.clear.Writes p dc fs dc fs 0x01 := by
  rintro t - - rfl rfl
  exact ⟨rfl, rfl⟩

theorem entryMode_writes (p : Params) (dc fs : Byte) : InitAction.entryMode.Writes p dc fs dc fs 0x06 := by
  rintro t - hem rfl rfl
  exact ⟨rfl, by rw [← hem]; rfl⟩

theorem displayOn_writes (p : Params) (fs : Byte) : InitAction.displayOn.Writes p 0x0C fs 0x0C fs 0x0C := by
  rintro t - - hdc rfl
  have hprep : InitAction.displayOn.prepare t = { t with dc := 0x0C } := by rw [InitAction.prepare, hdc]; rfl
  exact ⟨hprep, by rw [hprep]; rfl⟩

section Chain

variable {p : Params} {s : State} {k : Nat} {dc fs dc' fs' v : Byte} {rp : List Reply} {tr : List Event}
  {seq : List InitAction} {a : InitAction}

/-- One more step of the chain. -/
theorem InitReached.extend {rp' : List Reply} {tr' : List Event} (h : InitReached p s k dc fs rp tr)
    (hv : initSequence p.family = seq) (ha : seq[k]? = some a)
    (hstep : ∀ t, InitAt p t (.init (k + 1)) dc fs rp tr → initAction p.family (k + 1) = some a →
      ∃ u, step t = .next u ∧ InitAt p u (nextSeq p.family (.init (k + 1))) dc' fs' rp' tr') :
    InitReached p s (k + 1) dc' fs' rp' tr' := by
  subst hv
  obtain ⟨t, hrun, ht⟩ := h
  rw [nextSeq, if_pos (List.getElem?_eq_some_iff.1 ha).1] at ht
  obtain ⟨u, hu, hu'⟩ := hstep t ht ha
  exact ⟨u, core_run_snoc hrun hu, hu'⟩

theorem InitReached.wait {d : Nat} (h : InitReached p s k dc fs rp tr) (hv : initSequence p.family = seq)
    (ha : seq[k]? = some (.wait d)) : InitReached p s (k + 1) dc fs rp (tr ++ [.wait d]) :=
  h.extend hv ha fun _ ht => ht.step_wait

theorem InitReached.nibble {n : Byte} (h : InitReached p s k dc fs rp tr) (hv : initSequence p.family = seq)
    (ha : seq[k]? = some (.rawNibble n)) :
    InitReached p s (k + 1) dc fs rp (tr ++ writeEvents p.addr (nibbleFrames p.blReset false n)) :=
  h.extend hv ha fun _ ht => ht.step_nibble

theorem InitReached.write {poll : ReadAnswer} {polls : List ReadAnswer} {rest : List Reply}
    (h : InitReached p s k dc fs (answerReplies (poll :: polls) ++ rest) tr) (hv : initSequence p.family = seq)
    (ha : seq[k]? = some a) (hw : a.Writes p dc fs dc' fs' v)
    (hpoll : poll.legal = true ∧ poll.value.getLsbD 7 = false) :
    InitReached p s (k + 1) dc' fs' (answerReplies polls ++ rest)
      (tr ++ answeredCycles p.addr p.blReset [poll] [(false, v)]) := by
  rw [answerReplies_cons] at h
  refine h.extend hv ha fun t ht ha => ?_
  obtain ⟨hlegal, hfree⟩ := hpoll
  obtain ⟨hprep, hops⟩ := hw t ht.cfg ht.em ht.dc ht.fs
  exact ht.step_write hlegal hfree ha hprep hops

theorem InitReached.ready (h : InitReached p s k dc fs rp tr) (hk : (initSequence p.family).length = k) :
    ∃ t, Sys2Proof.core.run (initSequence p.family).length s = .next t ∧ InitAt p t .ready dc fs rp tr := by
  subst hk
  rwa [InitReached, nextSeq, if_neg (lt_irrefl _)] at h

end Chain

/-- Settles O42: the chain of each variant's steps, as its table has them (R225, R226). -/
theorem initializationEndsReady : Obligations.InitializationEndsReady := by
  rintro p s q1 q2 q3 q4 q5 rest rfl hfree
  simp only [freeAnswers_cons, freeAnswers_nil, and_true] at hfree
  obtain ⟨f1, f2, f3, f4, f5⟩ := hfree
  have start := InitReached.start p (answerReplies [q1, q2, q3, q4, q5] ++ rest)
  rw [← configuredFS_eq]
  by_cases hk : p.family = .ks0066
  · have hv : initSequence p.family = variantB := by rw [hk]; rfl
    obtain ⟨t, hrun, ht⟩ := start |>.wait hv rfl |>.nibble hv rfl |>.write hv rfl (functionSet_writes _ _ _) f1
      |>.wait hv rfl |>.write hv rfl (displayOff_writes _ _ _) f2 |>.wait hv rfl
      |>.write hv rfl (clear_writes _ _ _) f3 |>.wait hv rfl |>.write hv rfl (entryMode_writes _ _ _) f4
      |>.write hv rfl (displayOn_writes _ _) f5 |>.ready (congrArg List.length hv)
    exact ⟨t, hrun, ht.seq, ht.em, ht.dc, ht.sh, ht.fs, ht.bl, ht.responses, ht.replies,
      fun h => absurd hk h, fun _ => ht.trace⟩
  · have hv : initSequence p.family = variantA := by
      cases hf : p.family with
      | hd44780 | splc780d => rfl
      | ks0066 => exact absurd hf hk
    obtain ⟨t, hrun, ht⟩ := start |>.wait hv rfl |>.nibble hv rfl |>.wait hv rfl |>.nibble hv rfl |>.wait hv rfl
      |>.nibble hv rfl |>.nibble hv rfl |>.write hv rfl (functionSet_writes _ _ _) f1
      |>.write hv rfl (displayOff_writes _ _ _) f2 |>.write hv rfl (clear_writes _ _ _) f3
      |>.write hv rfl (entryMode_writes _ _ _) f4 |>.write hv rfl (displayOn_writes _ _) f5
      |>.ready (congrArg List.length hv)
    exact ⟨t, hrun, ht.seq, ht.em, ht.dc, ht.sh, ht.fs, ht.bl, ht.responses, ht.replies,
      fun _ => ht.trace, fun h => absurd h hk⟩

end Sys2Proof.Machine
end

section
/-!
The bus trace and the clock (20_memory.md R50, R51, R64; 44_init_sequences.md R221; 60_exceptions.md R261): what a step
issues, and that no step turns the clock back.
-/

namespace Sys2Proof.Machine

open Sys2Proof

/-! ## What a run issues -/

/-- A micro-operation that is no wait issues bus operations at `ADDR` alone (R50). -/
theorem micro_grown {m : Micro} (hm : m.isWait = false) (s : State) : grown s (micro m s).state := by
  by_cases hc : m.isCodec = true
  · exact (grown_kept s).micro hc (grown_refl s)
  · cases m with
    | bus b => exact grown_busWrite s b s (grown_refl s)
    | ret _ | retValue => exact grown_refl s
    | wait d => cases hm
    | nibble _ _ | regWrite _ _ | saveAC | restoreAC | readData => exact absurd rfl hc

/-- From `s` to `t` the trace has grown by bus operations at `ADDR` and, only where `waits` holds, by waits. -/
def Issues (waits : Prop) (s t : State) : Prop :=
  t.cfg = s.cfg ∧ ∃ new, t.trace = s.trace ++ new ∧
    ∀ e ∈ new, e.address = some s.cfg.addr ∨ (waits ∧ ∃ d, e = Event.wait d)

theorem Issues.of_same_trace {waits : Prop} {s t : State} (hc : t.cfg = s.cfg) (ht : t.trace = s.trace) :
    Issues waits s t := ⟨hc, [], by simp [ht], by simp⟩

theorem Issues.append {waits : Prop} {s t u : State} (h : Issues waits s t) (hc : u.cfg = t.cfg) {more : List Event}
    (hu : u.trace = t.trace ++ more)
    (hm : ∀ e ∈ more, e.address = some t.cfg.addr ∨ (waits ∧ ∃ d, e = Event.wait d)) : Issues waits s u := by
  obtain ⟨hcfg, new, htrace, hnew⟩ := h
  rw [hcfg] at hm
  refine ⟨hc.trans hcfg, new ++ more, by rw [hu, htrace, List.append_assoc], fun e he => ?_⟩
  exact (List.mem_append.1 he).elim (hnew e) (hm e)

theorem Issues.grown {waits : Prop} {s t u : State} (h : Issues waits s t) (k : grown t u) : Issues waits s u := by
  obtain ⟨hcfg, more, htrace, hmore⟩ := k
  exact h.append hcfg htrace fun e he => .inl (hmore e he)

theorem Issues.micro {waits : Prop} {s t : State} {m : Micro} (hm : m.isWait = true → waits) (h : Issues waits s t) :
    Issues waits s (micro m t).state := by
  cases hw : m.isWait with
  | false => exact h.grown (micro_grown hw t)
  | true =>
    cases m with
    | wait d =>
      refine h.append rfl (more := [.wait d]) rfl fun e he => .inr ⟨hm rfl, d, ?_⟩
      exact List.mem_singleton.1 he
    | nibble _ _ | bus _ | regWrite _ _ | saveAC | restoreAC | readData | ret _ | retValue => cases hw

theorem Issues.run {waits : Prop} {s t : State} {ops : List Micro} (hops : ∀ m ∈ ops, m.isWait = true → waits)
    (h : Issues waits s t) : Issues waits s (run ops t) := by
  rcases run_induct (fun m hm _ hu => Issues.micro (hops m hm) hu) h with ⟨u, hu, e⟩ | ⟨_, _, _, u, -, -, hu, e⟩ <;>
    rw [e] <;> exact hu

theorem Issues.run_noWait {waits : Prop} {s t : State} {ops : List Micro} (hops : ∀ m ∈ ops, m.isWait = false)
    (h : Issues waits s t) : Issues waits s (Machine.run ops t) :=
  h.run fun m hm hw => by rw [hops m hm] at hw; cases hw

/-! ## What a step issues -/

theorem initTurn_issues {waits : Prop} (hw : waits) (k : Nat) (s : State) : Issues waits s (initTurn k s) := by
  obtain ⟨b, ops, hb, e⟩ := initTurn_eq_run k s
  rw [e]
  exact Issues.run (fun _ _ _ => hw) (.of_same_trace hb.cfg hb.trace)

theorem noWait_of_exec {s : State} (hq : s.seq = .exec) (h : s.sequencerLegal = true) :
    ∀ m ∈ s.ops, m.isWait = false := by
  simp only [State.sequencerLegal, hq, Bool.and_eq_true, List.all_eq_true, Bool.not_eq_true'] at h
  exact h.2

theorem exec_issues {i : Instr} {s t : State} (waits : Prop) (hc : isCommand i = true) (h : exec i s = .next t) :
    Issues waits s t := by
  obtain ⟨-, a, ops, last, hb, hp, ha, rfl⟩ := exec_command_next hc h
  obtain ⟨new, htrace, haddr, -⟩ := hb.trace
  refine Issues.run_noWait ?_ ⟨hb.cfg, new, htrace, fun e he => .inl (haddr e he)⟩
  simp only [List.mem_append, List.mem_singleton]
  rintro m (hm | rfl)
  · exact plainOps_noWait hp m hm
  · exact answers_noWait ha

theorem step_issues {s t : State} (h : s.Inv) (hs : step s = .next t) :
    ∃ new, t.trace = s.trace ++ new ∧
      ∀ e ∈ new, e.address = some s.cfg.addr ∨ ((∃ k, s.seq = .init k) ∧ ∃ d, e = Event.wait d) := by
  obtain ⟨-, hsequencer, -⟩ := h
  rcases step_cases hs with ⟨p, -, rfl⟩ | ⟨-, ⟨k, hk, rfl⟩ | ⟨he, rfl⟩ | ⟨-, -, rfl⟩ | ⟨-, i, rest, hd, hx⟩⟩
  · exact ⟨[], by simp, by simp⟩
  · exact (initTurn_issues ⟨k, hk⟩ k s).2
  · exact (Issues.run_noWait (noWait_of_exec he hsequencer) (.of_same_trace rfl rfl)).2
  · exact ⟨[], by simp, by simp⟩
  · exact (exec_issues (s := { s with cmdPort := rest }) _ (decodeCommand_isCommand hd) hx).2

/-! ## The clock -/

theorem prepare_now (a : InitAction) (s : State) : (a.prepare s).now = s.now := by
  cases a <;> rfl

theorem initTurn_now_le (k : Nat) (s : State) : s.now ≤ (initTurn k s).now := by
  rcases initTurn_begun k s with e | ⟨a, e⟩ | e <;> rw [e]
  · exact le_rfl
  · exact (prepare_now a s).ge.trans (run_now_le _ _)
  · exact run_now_le _ _

theorem exec_now_le {i : Instr} {s t : State} (hc : isCommand i = true) (h : exec i s = .next t) : s.now ≤ t.now := by
  obtain ⟨-, a, ops, last, hb, -, -, rfl⟩ := exec_command_next hc h
  exact hb.now.trans (run_now_le _ _)

theorem step_now_le {s t : State} (hs : step s = .next t) : s.now ≤ t.now := by
  rcases step_cases hs with ⟨p, -, rfl⟩ | ⟨-, ⟨k, -, rfl⟩ | ⟨-, rfl⟩ | ⟨-, -, rfl⟩ | ⟨-, i, rest, hd, hx⟩⟩
  · exact le_rfl
  · exact initTurn_now_le k s
  · exact run_now_le _ _
  · exact le_rfl
  · exact exec_now_le (s := { s with cmdPort := rest }) (decodeCommand_isCommand hd) hx

/-- Settles O53: every micro-operation but a wait issues bus operations at `ADDR` alone, and only an init step runs a
wait; no micro-operation turns the clock back. -/
theorem traceGrowsAtOneAddress : Obligations.TraceGrowsAtOneAddress :=
  ⟨fun _ _ => step_issues, fun _ _ => step_now_le⟩

end Sys2Proof.Machine
end

section
/-!
The block together with the reference responder (20_memory.md section 8): an instruction ends at once with the
controller having executed the bytes it writes, and what that makes of a glyph.
-/

namespace Sys2Proof.Machine

open Sys2Proof

/-! ## Runs whose bytes a controller in step executes -/

theorem executeAll_bf (bytes : List (Bool × Byte)) (l : Lcd) : (l.executeAll bytes).bf = l.bf := by
  induction bytes generalizing l with
  | nil => rfl
  | cons b bs ih => exact (ih (l.execute b.1 b.2)).trans (execute_control l b.1 b.2).1

/-- `t` is `READY`, with a controller in step that is, up to its nibble buffers, `l` after executing `bytes`. -/
def Executed (l : Lcd) (bytes : List (Bool × Byte)) (t : State) : Prop :=
  t.seq = .ready ∧ ∃ k, t.inStep k ∧ SameCore (l.executeAll bytes) k

theorem SameCore.executed {l k : Lcd} (h : SameCore l k) {bytes : List (Bool × Byte)} {t : State}
    (hk : Executed k bytes t) : Executed l bytes t := by
  obtain ⟨hq, j, hj, hcore⟩ := hk
  exact ⟨hq, j, hj, (h.executeAll bytes).trans hcore⟩

section InStep

variable {s : State} {l : Lcd} (h : s.inStep l) (hb : l.bf = false)

include h hb

/-- Full register writes, and the responses behind them. -/
theorem run_bytes_executed (bytes : List (Bool × Byte)) (r : List Response) (hq : s.seq = .exec) :
    Executed l bytes (run (bytes.map (fun b => Micro.regWrite b.1 b.2) ++ r.map .ret) s) := by
  obtain ⟨t, k, hrun, hblock, hk, hcore, -⟩ := run_writes_inStep bytes (r.map .ret) h hb
  rw [hrun, run_rets]
  exact ⟨by rw [finish_seq, hblock.seq, hq]; rfl, k, hk, hcore⟩

theorem run_saveAccessRestore_executed (a : Byte) (d : List Byte) (hq : s.seq = .exec) :
    Executed l (restoringBytes l.ac a d) (run (saveAccessRestore a (dataWrites d) ++ [.ret .unit]) s) := by
  obtain ⟨t, k, rfl, hready, -, hk, hcore, -⟩ :=
    run_saveAccessRestore_inStep a (d.map fun v => (true, v)) h hb hq
  rw [List.map_map] at hready hk
  exact ⟨hready, k, hk, hcore⟩

theorem commandOps_executed (bytes : List (Bool × Byte)) (r : Response) (hq : s.seq = .ready) :
    ∃ t, commandOps s (bytes.map (fun b => Micro.regWrite b.1 b.2) ++ [.ret r]) = .next t ∧ Executed l bytes t :=
  ⟨_, commandOps_ready hq _, run_bytes_executed (s := s.accept) h hb bytes [r] rfl⟩

theorem saveAccessRestore_executed (a : Byte) (d : List Byte) (hq : s.seq = .ready) :
    ∃ t, commandOps s (saveAccessRestore a (dataWrites d) ++ [.ret .unit]) = .next t ∧
      Executed l (restoringBytes l.ac a d) t :=
  ⟨_, commandOps_ready hq _, run_saveAccessRestore_executed (s := s.accept) h hb a d rfl⟩

/-- A status command reads without writing: the controller stays as it is, up to the byte being read out (R210,
R211). -/
theorem statusRead_executed (answer : Byte → Response) (hq : s.seq = .ready) :
    ∃ t, command s (fun a => run [.ret (answer (regRead false a).1)] (regRead false a).2) = .next t ∧
      Executed l [] t := by
  obtain ⟨-, hread, -⟩ := regRead_inStep (s := s.accept) h false
  have hblock := regRead_sameBlock false s.accept
  exact ⟨_, command_ready hq _,
    (afterRead_core l false).executed (run_bytes_executed hread hb [] [answer _] hblock.seq)⟩

/-- A backlight command reads the latch back, E low, and transmits it with E low: no edge for the controller (R200,
R201). -/
theorem backlight_executed (on : Bool) {change : Byte → Byte} (hE : ∀ p, (change p).getLsbD 2 = p.getLsbD 2)
    (hq : s.seq = .ready) : ∃ t, backlightCommand on change s = .next t ∧ Executed l [] t := by
  obtain ⟨hlcd, hmode, hphase, hlow, hreplies⟩ := h
  replace hlow : s.latch.getLsbD 2 = false := by simpa [State.eLow] using hlow
  have hanswer : busRead1 s.accept = (.byte s.latch, (busRead1 s.accept).2) := by
    refine Prod.ext ?_ rfl
    simp [busRead1, nextReply, hreplies, hlcd, replyAnswer, pins_low l s.latch hlow]
  refine ⟨_, backlightCommand_ready hq on change, ?_⟩
  rw [hanswer]
  have hchange : (change s.latch).getLsbD 2 = false := (hE s.latch).trans hlow
  have hstep : (busWrite (change s.latch) { (busRead1 s.accept).2 with bl := on }).inStep l :=
    ⟨by simp [hlcd, onBusWrite_low l hlow hchange], hmode, hphase, by simpa [State.eLow] using hchange,
      by simp [hreplies]⟩
  exact run_bytes_executed hstep hb [] [.bool true] rfl

end InStep

/-! ## The bytes an instruction writes -/

theorem cursorOps_eq_map (sizeX x y : Byte) :
    cursorOps sizeX x y = (cursorBytes sizeX x y).map fun b => Micro.regWrite b.1 b.2 := by
  unfold cursorOps cursorBytes
  cases cursorByte sizeX x y <;> rfl

theorem dataWrites_replicate (n : Nat) (v : Byte) :
    dataWrites (List.replicate n v) = (List.replicate n (true, v)).map fun b => Micro.regWrite b.1 b.2 := by
  simp [dataWrites]

/-- A command with a controller in step that is not busy ends at once, the bytes it writes executed. -/
theorem exec_command_executed {i : Instr} {s : State} {l : Lcd} {bytes : List (Bool × Byte)}
    (hw : i.wellFormed = true) (hc : isCommand i = true) (hq : s.seq = .ready) (h : s.inStep l) (hb : l.bf = false)
    (hbytes : writtenBytes s l.ac i = some bytes) : ∃ t, exec i s = .next t ∧ Executed l bytes t := by
  cases i with
  | clearDisplay =>
    cases hbytes
    exact commandOps_executed h hb [(false, 0x01)] .unit hq
  | moveToHome =>
    cases hbytes
    exact commandOps_executed h hb [(false, 0x02)] .unit hq
  | displayChar c =>
    cases hbytes
    exact commandOps_executed h hb [(true, c)] .unit hq
  | enableDisplay | disableDisplay | enableCursor | disableCursor | enableBlinking | disableBlinking =>
    cases hbytes
    exact ⟨_, updateDC_ready hq _,
      run_bytes_executed (s := { s.accept with dc := _ }) h hb [(false, _)] [.unit] rfl⟩
  | displayToLeft | displayToRight | enableShiftOnWrite | disableShiftOnWrite =>
    cases hbytes
    exact ⟨_, updateEM_ready hq _,
      run_bytes_executed (s := { s.accept with em := _ }) h hb [(false, _)] [.unit] rfl⟩
  | shiftCursorLeft | shiftCursorRight | shiftDisplayLeft | shiftDisplayRight =>
    cases hbytes
    exact ⟨_, updateSH_ready hq _,
      run_bytes_executed (s := { s.accept with sh := _ }) h hb [(false, _)] [.unit] rfl⟩
  | setCursor x y =>
    cases hbytes
    have hexec : exec (.setCursor x y) s = commandOps s (cursorOps s.cfg.sizeX x y ++ [.ret .unit]) := rfl
    rw [hexec, cursorOps_eq_map]
    exact commandOps_executed h hb _ .unit hq
  | eraseLine line =>
    cases hbytes
    have hexec : exec (.eraseLine line) s = commandOps s (cursorOps s.cfg.sizeX 0 line ++
        dataWrites (List.replicate s.cfg.sizeX.toNat 0x20) ++ cursorOps s.cfg.sizeX 0 line ++ [.ret .unit]) := rfl
    rw [hexec, cursorOps_eq_map, dataWrites_replicate, List.append_assoc (List.map _ _), ← List.map_append,
      ← List.map_append]
    exact commandOps_executed h hb _ .unit hq
  | writeDdram addr data | writeCgram addr data =>
    cases hbytes
    exact saveAccessRestore_executed h hb _ [data] hq
  | writeGlyph5x8 slot d | writeGlyph5x10 slot d =>
    cases hbytes
    obtain ⟨t, hrun, ht⟩ := saveAccessRestore_executed h hb _ d hq
    exact ⟨t, (if_pos (eq_of_beq hw)).trans hrun, ht⟩
  | enableBacklight | disableBacklight =>
    cases hbytes
    exact backlight_executed h hb _ (by decide) hq
  | getEntryMode | getDisplayControl | getShift | getFunctionSet =>
    cases hbytes
    exact commandOps_executed h hb [] (.byte _) hq
  | readAddressCounter =>
    cases hbytes
    exact statusRead_executed h hb (fun v => .byte (statusAddress v)) hq
  | readBusyFlag =>
    cases hbytes
    exact statusRead_executed h hb (fun v => .bool (busyFlag v)) hq
  | readDdram _ | readCgram _ => cases hbytes
  | lcdClearDisplay | lcdReturnHome | lcdEntryModeSet | lcdDisplayControl | lcdCursorDisplayShift
  | lcdFunctionSet4bit | lcdSetCgramAddress | lcdSetDdramAddress | rawNibble8bitInterface
  | rawNibble4bitInterface | xw | xr => cases hc

/-- Of the words the block emits, those that write a whole byte are the LCD instruction bytes (R98). -/
theorem emittedOps_of_writtenBytes {i : Instr} {s : State} {ac : Addr7} {bytes : List (Bool × Byte)}
    (hc : isCommand i = false) (hbytes : writtenBytes s ac i = some bytes) :
    emittedOps (encode i) = bytes.map fun b => Micro.regWrite b.1 b.2 := by
  cases i with
  | lcdClearDisplay | lcdReturnHome | lcdEntryModeSet | lcdDisplayControl | lcdCursorDisplayShift
  | lcdFunctionSet4bit | lcdSetCgramAddress | lcdSetDdramAddress => cases hbytes; rfl
  | rawNibble8bitInterface | rawNibble4bitInterface | xw | xr => cases hbytes
  | _ => cases hc

theorem exec_emitted_executed {i : Instr} {s : State} {l : Lcd} {bytes : List (Bool × Byte)}
    (hc : isCommand i = false) (hq : s.seq = .ready) (ho : s.ops = []) (h : s.inStep l) (hb : l.bf = false)
    (hbytes : writtenBytes s l.ac i = some bytes) : ∃ t, exec i s = .next t ∧ Executed l bytes t := by
  have hops : emittedOps (encode i) ++ s.ops = bytes.map (fun b => Micro.regWrite b.1 b.2) ++ [].map .ret := by
    rw [emittedOps_of_writtenBytes hc hbytes, ho, List.map_nil]
  refine ⟨_, exec_emitted hc s, ?_⟩
  rw [hops]
  exact run_bytes_executed (s := { s with seq := emitSeq s.seq }) h hb bytes [] (congrArg emitSeq hq)

/-- Settles O57: a command, and an LCD instruction byte too, is a run of full register writes whose bytes the controller
executes in order, and only a data byte or the clear byte touches a memory. -/
theorem responderExecutesTheBytesWritten : Obligations.ResponderExecutesTheBytesWritten := by
  intro i s l bytes hw hq ho h hb hbytes
  have hexec : ∃ t, exec i s = .next t ∧ Executed l bytes t := by
    cases hc : isCommand i with
    | true => exact exec_command_executed hw hc hq h hb hbytes
    | false => exact exec_emitted_executed hc hq ho h hb hbytes
  obtain ⟨t, ht, hready, k, hk, hcore⟩ := hexec
  refine ⟨t, k, ht, hready, hk, (hcore.bf.trans (executeAll_bf bytes l)).trans hb,
    ⟨hcore.dd, hcore.cg, hcore.ac, hcore.space, hcore.inc⟩, fun hmem => ?_⟩
  obtain ⟨hdd, hcg⟩ := executeAll_mem bytes l hmem
  exact ⟨hcore.dd.trans hdd, hcore.cg.trans hcg⟩

/-! ## Glyphs -/

theorem glyph8Base_toNat (slot : Byte) : (glyph8Base slot).toNat = 8 * (slot.toNat % 8) := by
  revert slot; decide

theorem glyph11Base_toNat (slot : Byte) : (glyph11Base slot).toNat = 16 * (slot.toNat % 8 / 2) := by
  revert slot; decide

/-- Settles O13: the mask keeps the slot's low bits, and three places to the left they are within a byte. -/
theorem glyphBases : Obligations.GlyphBases :=
  fun slot => ⟨glyph8Base_toNat slot, glyph11Base_toNat slot⟩

/-- The bytes of a write into CGRAM that does not run past its end, executed: they land in ascending order, and the
address counter comes back in DDRAM space (R55, R124). -/
theorem executeAll_restoringBytes_cgram {l : Lcd} (hi : l.inc = true) (hwf : l.cg.wf cgramSize = true) {base : Byte}
    {d : List Byte} (hbase : base < 0x40) (hfit : base.toNat + d.length ≤ 64) :
    let k := l.executeAll (restoringBytes l.ac (cgramSet base) d)
    k.ac = l.ac ∧ k.space = .ddram ∧ k.dd = l.dd ∧
    (∀ j, (hj : j < d.length) → k.cg.read (base.toNat + j) = d[j]) ∧
    (∀ a, a < base.toNat ∨ base.toNat + d.length ≤ a → k.cg.read a = l.cg.read a) := by
  have haddr : (base.extractLsb' 0 7).toNat = base.toNat := by clear hfit; revert base; decide
  obtain ⟨-, hdd, hin, hout⟩ := executeAll_cgram d { l with space := .cgram, ac := base.extractLsb' 0 7 } base.toNat
    rfl hi haddr hfit hwf
  have hall : l.executeAll (restoringBytes l.ac (cgramSet base) d) =
      { Lcd.executeAll { l with space := .cgram, ac := base.extractLsb' 0 7 } (d.map fun v => (true, v)) with
        space := .ddram, ac := l.ac } := by
    simp [restoringBytes, Lcd.executeAll, cgramSet_exec l base hbase, ← restore_byte, restore_exec]
  rw [hall]
  exact ⟨rfl, rfl, hdd, hin, hout⟩

/-- A glyph command writes its bytes from a base within CGRAM, and its rows end within CGRAM (R180, R181). -/
theorem glyph_writtenBytes {i : Instr} {base : Nat} {d : List Byte}
    (hi : (∃ slot, i = .writeGlyph5x8 slot d ∧ d.length = 8 ∧ base = 8 * (slot.toNat % 8)) ∨
      (∃ slot, i = .writeGlyph5x10 slot d ∧ d.length = 11 ∧ base = 16 * (slot.toNat % 8 / 2)))
    (s : State) (ac : Addr7) :
    i.wellFormed = true ∧ isCommand i = true ∧ ∃ b : Byte, b.toNat = base ∧ base < 64 ∧ base + d.length ≤ 64 ∧
      writtenBytes s ac i = some (restoringBytes ac (cgramSet b) d) := by
  rcases hi with ⟨slot, rfl, hd, rfl⟩ | ⟨slot, rfl, hd, rfl⟩
  · exact ⟨beq_iff_eq.2 hd, rfl, glyph8Base slot, glyph8Base_toNat slot, by omega, by omega, rfl⟩
  · exact ⟨beq_iff_eq.2 hd, rfl, glyph11Base slot, glyph11Base_toNat slot, by omega, by omega, rfl⟩

/-- Settles O60: what the controller makes of the bytes a glyph command writes. -/
theorem glyphStoresItsRows : Obligations.GlyphStoresItsRows := by
  intro i base d hi s l hq h hb hinc hwf
  obtain ⟨hw, hc, b, rfl, hbase, hfit, hbytes⟩ := glyph_writtenBytes hi s l.ac
  obtain ⟨t, ht, hready, k, hk, hcore⟩ := exec_command_executed hw hc hq h hb hbytes
  obtain ⟨hac, hspace, hdd, hin, hout⟩ := executeAll_restoringBytes_cgram hinc hwf (BitVec.lt_def.2 hbase) hfit
  rw [← hcore.cg] at hin hout
  exact ⟨t, k, ht, hready, hk, hcore.ac.trans hac, hcore.space.trans hspace, hin, hout, hcore.dd.trans hdd⟩

end Sys2Proof.Machine
end

section
/-!
The four kinds of words (30_encoding.md): each kind's decoder and the encoder undo each other, and a command
with fewer bytes than its format is an error (R84).
-/

namespace Sys2Proof

/-! ## From instructions to words -/

/-- A well-formed command's bytes decode to it, whatever follows them (R80). -/
theorem decodeCommand_of_encode {i : Instr} {bs : List Byte} (hw : i.wellFormed = true) (he : encode i = .command bs)
    (rest : List Byte) : decodeCommand (bs ++ rest) = .ok (i, rest) := by
  cases i with
  | writeGlyph5x8 slot d | writeGlyph5x10 slot d =>
    cases he
    exact decodeOp_glyph_append _ slot d rest _ _ (eq_of_beq hw)
  | _ => cases he <;> rfl

/-- A well-formed command has the length of its format (R80). -/
theorem commandLength_of_encode {i : Instr} {bs : List Byte} (hw : i.wellFormed = true) (he : encode i = .command bs) :
    i.format.commandLength = some bs.length := by
  cases i with
  | writeGlyph5x8 slot d => cases he; exact (Laws.EncodingFitsFormat.writeGlyph5x8 slot d hw).1
  | writeGlyph5x10 slot d => cases he; exact (Laws.EncodingFitsFormat.writeGlyph5x10 slot d hw).1
  | _ => cases he <;> rfl

/-- A word the block emits decodes to the instruction it encodes (R98, R223, R96, R97). -/
theorem decode_encode_emitted {i : Instr} (hc : Machine.isCommand i = false) : decode (encode i) = .ok i := by
  cases i with
  | lcdClearDisplay | lcdReturnHome | rawNibble8bitInterface | rawNibble4bitInterface => rfl
  | lcdEntryModeSet i s => revert i s; decide
  | lcdDisplayControl d c b => revert d c b; decide
  | lcdCursorDisplayShift s r => revert s r; decide
  | lcdFunctionSet4bit n f => revert n f; decide
  | lcdSetCgramAddress a => revert a; decide
  | lcdSetDdramAddress a => revert a; decide
  | xw n b e r => revert n b e r; decide
  | xr b e r => revert b e r; decide
  | _ => cases hc

theorem decode_command {i : Instr} {bs : List Byte} (h : decodeCommand bs = .ok (i, [])) :
    decode (.command bs) = .ok i := by
  simp only [decode, h]

theorem exists_encode_command {i : Instr} (hc : Machine.isCommand i = true) : ∃ bs, encode i = .command bs := by
  unfold Machine.isCommand at hc
  split at hc
  · exact ⟨_, ‹_›⟩
  · cases hc
  · cases hc
  · cases hc

/-- Settles O1: a command's bytes decode to it with nothing behind them, and a word the block emits holds every operand
in bits of its own. -/
theorem decodeEncodeRoundTrip : Obligations.DecodeEncodeRoundTrip := by
  intro i hw
  cases hc : Machine.isCommand i with
  | true =>
    obtain ⟨bs, he⟩ := exists_encode_command hc
    have hd := decodeCommand_of_encode hw he []
    rw [List.append_nil] at hd
    rw [he, decode_command hd]
  | false => exact decode_encode_emitted hc

/-- Settles O2: opcode and operands are read from the front, and no format reads further. -/
theorem commandBytesDecodeInAnyStream : Obligations.CommandBytesDecodeInAnyStream :=
  fun _ _ rest hw he => ⟨decodeCommand_of_encode hw he rest, commandLength_of_encode hw he⟩

/-- Settles O5: the words are encodings of the instructions, which decoding gives back. -/
theorem specWordsDecode : Obligations.SpecWordsDecode :=
  ⟨decodeEncodeRoundTrip .clearDisplay rfl,
    decodeEncodeRoundTrip (.setCursor 0x05 0x01) rfl,
    decodeEncodeRoundTrip (.writeGlyph5x8 0x0A [0x0E, 0x11, 0x11, 0x11, 0x0E, 0x00, 0x00, 0x00]) rfl,
    decodeEncodeRoundTrip (.readCgram 0x11) rfl,
    decodeEncodeRoundTrip .readBusyFlag rfl,
    decodeEncodeRoundTrip (.lcdEntryModeSet true false) rfl,
    decodeEncodeRoundTrip (.lcdFunctionSet4bit true false) rfl,
    decodeEncodeRoundTrip (.lcdSetDdramAddress 0x45) rfl,
    decodeEncodeRoundTrip .rawNibble8bitInterface rfl,
    decodeEncodeRoundTrip (.xw 0x3 false true false) rfl,
    decodeEncodeRoundTrip (.xr false true false) rfl⟩

/-- Settles O8: the bytes of the first character stand in front of the others'. -/
theorem displayStringExpandsToCharacters : Obligations.DisplayStringExpandsToCharacters := by
  refine ⟨rfl, fun c cs rest => ⟨rfl, ?_⟩⟩
  have hbytes : commandBytes (displayString (c :: cs)) = [0x14, c] ++ commandBytes (displayString cs) := rfl
  rw [hbytes, List.append_assoc]
  exact decodeCommand_of_encode (i := .displayChar c) rfl rfl _

/-! ## From words to instructions -/

/-- `i` is well-formed, and its encoding is what stands in front of `rest` in `bytes`. -/
def TakenFrom (bytes rest : List Byte) (i : Instr) : Prop :=
  i.wellFormed = true ∧ ∃ bs, encode i = .command bs ∧ bytes = bs ++ rest

section Formats

variable {op : Byte} {data rest : List Byte} {i : Instr}

theorem takenFrom_op0 {j : Instr} (h : (Except.ok (j, data) : Except DecodeError _) = .ok (i, rest))
    (hw : j.wellFormed = true) (he : encode j = .command [op]) : TakenFrom (op :: data) rest i := by
  cases h
  exact ⟨hw, _, he, rfl⟩

theorem takenFrom_op1 {mk : Byte → Instr} (h : decodeOp.op1 op data mk = .ok (i, rest))
    (hw : ∀ a, (mk a).wellFormed = true) (he : ∀ a, encode (mk a) = .command [op, a]) :
    TakenFrom (op :: data) rest i := by
  obtain ⟨a, rfl, rfl⟩ := decodeOp_op1_ok.1 h
  exact ⟨hw a, _, he a, rfl⟩

theorem takenFrom_op2 {mk : Byte → Byte → Instr} (h : decodeOp.op2 op data mk = .ok (i, rest))
    (hw : ∀ a b, (mk a b).wellFormed = true) (he : ∀ a b, encode (mk a b) = .command [op, a, b]) :
    TakenFrom (op :: data) rest i := by
  obtain ⟨a, b, rfl, rfl⟩ := decodeOp_op2_ok.1 h
  exact ⟨hw a b, _, he a b, rfl⟩

theorem takenFrom_glyph {mk : Byte → List Byte → Instr} {n : Nat} (h : decodeOp.glyph op data mk n = .ok (i, rest))
    (hw : ∀ slot d, d.length = n → (mk slot d).wellFormed = true)
    (he : ∀ slot d, encode (mk slot d) = .command (op :: slot :: d)) : TakenFrom (op :: data) rest i := by
  obtain ⟨slot, d, rfl, hd, rfl⟩ := decodeOp_glyph_ok.1 h
  exact ⟨hw slot d hd, _, he slot d, rfl⟩

/-- What `decodeOp` decodes was taken from the bytes, opcode by opcode (R82): its branch `h_n` is that of opcode `n`. -/
theorem takenFrom_of_decodeOp (h : decodeOp op data = .ok (i, rest)) : TakenFrom (op :: data) rest i := by
  unfold decodeOp at h
  split at h
  case h_17 | h_18 | h_31 => exact takenFrom_op2 h (fun _ _ => rfl) (fun _ _ => rfl)
  case h_19 | h_20 | h_23 | h_30 => exact takenFrom_op1 h (fun _ => rfl) (fun _ => rfl)
  case h_21 | h_22 => exact takenFrom_glyph h (fun _ _ => beq_iff_eq.2) (fun _ _ => rfl)
  case h_34 => cases h
  all_goals exact takenFrom_op0 h rfl rfl

/-! ## Short commands -/

theorem decodeOp_op1_short (h : data.length < 1) (mk : Byte → Instr) :
    decodeOp.op1 op data mk = .error (.shortCommand op) := by
  obtain rfl := List.length_eq_zero_iff.1 (Nat.lt_one_iff.1 h)
  rfl

theorem decodeOp_op2_short (h : data.length < 2) (mk : Byte → Byte → Instr) :
    decodeOp.op2 op data mk = .error (.shortCommand op) := by
  match data, h with
  | [], _ => rfl
  | [_], _ => rfl

theorem decodeOp_glyph_short {n : Nat} (h : data.length < n + 1) (mk : Byte → List Byte → Instr) :
    decodeOp.glyph op data mk n = .error (.shortCommand op) := by
  cases data with
  | nil => rfl
  | cons slot d => exact if_pos (Nat.lt_of_succ_lt_succ h)

end Formats

/-- With fewer bytes behind it than a command's operands, the command's opcode is a short command (R84). -/
theorem decodeCommand_short {i : Instr} {op : Byte} {operands given : List Byte} (hw : i.wellFormed = true)
    (he : encode i = .command (op :: operands)) (hl : given.length < operands.length) :
    decodeCommand (op :: given) = .error (.shortCommand op) := by
  cases i with
  | setCursor | writeDdram | writeCgram => cases he; exact decodeOp_op2_short hl _
  | readDdram | displayChar | eraseLine | readCgram => cases he; exact decodeOp_op1_short hl _
  | writeGlyph5x8 slot d | writeGlyph5x10 slot d =>
    cases he
    rw [List.length_cons, eq_of_beq hw] at hl
    exact decodeOp_glyph_short hl _
  | _ => cases he <;> exact absurd hl (Nat.not_lt_zero _)

/-- Settles O3: every branch of the decoder takes the bytes of its opcode's format. -/
theorem decodedCommandReencodes : Obligations.DecodedCommandReencodes := by
  intro bytes rest i h
  cases bytes with
  | nil => cases h
  | cons op data => exact takenFrom_of_decodeOp h

/-! ## The words the block emits -/

/-- R98, row by row: the highest set bit decides the row, and the row's operands are the bits below it. -/
theorem encode_of_decodeLcdByte {b : Byte} {i : Instr} (h : decodeLcdByte b = .ok i) : encode i = .lcdByte b := by
  unfold decodeLcdByte at h
  split_ifs at h <;> cases h
  all_goals revert b; decide

theorem encode_of_decodeRawNibble {n : Nibble} {i : Instr} (h : decodeRawNibble n = .ok i) :
    encode i = .rawNibble n := by
  unfold decodeRawNibble at h
  split_ifs at h with h8 h4 <;> cases h
  · rw [h8]; rfl
  · rw [h4]; rfl

/-- R95: bit 1 tells a write frame from a read frame. -/
theorem encode_of_decodeFrame {b : Byte} {i : Instr} (h : decodeFrame b = .ok i) : encode i = .frame b := by
  unfold decodeFrame at h
  split_ifs at h <;> cases h
  all_goals revert b; decide

/-- Settles O4: each of the three decoders reads every bit, as a fixed one or as an operand's. -/
theorem decodedEmittedWordReencodes : Obligations.DecodedEmittedWordReencodes :=
  ⟨fun _ _ => encode_of_decodeLcdByte, fun _ _ => encode_of_decodeRawNibble, fun _ _ => encode_of_decodeFrame⟩

end Sys2Proof
end

section
/-!
What the encodings of 30_encoding.md mean to the machine: the refusals of the command port (R84), the response of a
command (R81), the bits of frames and address-set bytes (R96 to R99), and the LCD instruction bytes (R98).
-/

namespace Sys2Proof.Machine

open Sys2Proof

/-! ## The command port -/

theorem step_noCommand {s : State} {op : Byte} {rest : List Byte} (hr : s.resetIn = none) (hq : s.seq = .ready)
    (hp : s.cmdPort = op :: rest) (hd : decodeCommand (op :: rest) = .error (.noCommand op)) :
    step s = .refused (.noCommand op) := by
  simp only [step, hr, hq, hp, hd]

theorem step_shortCommand {s : State} {op : Byte} {given : List Byte} (hr : s.resetIn = none) (hq : s.seq = .ready)
    (hp : s.cmdPort = op :: given) (hd : decodeCommand (op :: given) = .error (.shortCommand op)) :
    step s = .refused (.shortCommand op) := by
  simp only [step, hr, hq, hp, hd]

/-- Settles O6: what the decoder answers is what the step refuses. -/
theorem undefinedCommandsAreRefused : Obligations.UndefinedCommandsAreRefused :=
  ⟨fun _ _ rest hr hq hp h => step_noCommand hr hq hp (decodeOp_noCommand h rest),
    fun _ _ _ _ _ hr hq hw he hl hp => step_shortCommand hr hq hp (decodeCommand_short hw he hl)⟩

/-! ## Commands and their responses -/

/-- Settles O52: the first step and every later one is a run of codec operations that ends in the one response. -/
theorem oneResponsePerCommand : Obligations.OneResponsePerCommand := by
  constructor
  · intro i s t hc h
    obtain ⟨-, a, ops, last, hb, hp, ha, rfl⟩ := exec_command_next hc h
    obtain ⟨k, hlast, hi⟩ := ha.kind
    rw [← hb.responses, hi]
    rcases run_response hp hlast hb.seq with ⟨hq, ho, r, hr, rfl⟩ | hpending
    · exact .inl ⟨hq, ho, r, hr, rfl⟩
    · exact .inr hpending
  · intro s hr hq hlegal
    obtain ⟨ops, last, k, ho, hcodec, hlast, hk⟩ := (pendingLegal_exec hq).1 hlegal
    refine ⟨_, step_exec hr hq, ?_⟩
    rw [ho, hk]
    rcases run_response (plainOps_codec (bl := s.bl) hcodec) hlast hq with ⟨hq', ho', r, hr', rfl⟩ | hpending
    · exact .inl ⟨hq', ho', r, hr', rfl⟩
    · exact .inr hpending

theorem exec_ready {i : Instr} (hw : i.wellFormed = true) {s : State} (hq : s.seq = .ready) :
    ∃ t, exec i s = .next t := by
  cases hc : isCommand i with
  | true =>
    obtain ⟨effect, e⟩ := exec_command hw hc s
    exact ⟨_, e.trans (command_ready hq effect)⟩
  | false => exact ⟨_, exec_emitted hc s⟩

theorem run_ret_trace (r : Response) (s : State) : (run [.ret r] s).trace = s.trace := by
  rw [run_cons_done [] (micro_ret r s), run_nil, finish_trace, respond_trace]

/-- SET_CURSOR with a line that has no offset is its response alone (R31, R170). -/
theorem exec_setCursor_above {y : Byte} (hy : 3 < y) (x : Byte) {s : State} (hq : s.seq = .ready) :
    exec (.setCursor x y) s = .next (run [.ret .unit] s.accept) := by
  have hexec : exec (.setCursor x y) s = commandOps s (cursorOps s.cfg.sizeX x y ++ [.ret .unit]) := rfl
  rw [hexec, cursorOps_none hy, commandOps_ready hq, List.nil_append]

/-- Settles O7: a command is taken at `READY`, a word the block emits always, and above line 3
SET_CURSOR only answers. -/
theorem everyOperandHasAMeaning : Obligations.EveryOperandHasAMeaning :=
  ⟨fun _ _ hw hq => exec_ready hw hq, fun x _ s hq hy =>
    ⟨_, exec_setCursor_above hy x hq, run_ret_trace .unit s.accept, (run_frame [.ret .unit] s.accept).sameRegisters,
      finish_completed rfl rfl⟩⟩

/-! ## Bits of frames and of address-set bytes -/

/-- Settles O11: each bit of a frame is one argument's. -/
theorem expanderFrameBits : Obligations.ExpanderFrameBits :=
  ⟨fun bl n rs e => ⟨writeFrame_data bl n rs e, writeFrame_bl bl n rs e, writeFrame_e bl n rs e,
      writeFrame_rw bl n rs e, writeFrame_rs bl n rs e⟩,
    fun bl rs e => ⟨readFrame_data bl rs e, readFrame_bl bl rs e, readFrame_e bl rs e, readFrame_rw bl rs e,
      readFrame_rs bl rs e⟩,
    rfl, rfl, rfl, rfl, rfl, rfl, rfl, rfl, rfl, rfl, rfl⟩

theorem decodeLcdByte_of_bit7 {b : Byte} (h : b.getLsbD 7 = true) :
    decodeLcdByte b = .ok (.lcdSetDdramAddress (b.extractLsb' 0 7)) := if_pos h

theorem decodeLcdByte_of_bit6 {b : Byte} (h7 : b.getLsbD 7 = false) (h6 : b.getLsbD 6 = true) :
    decodeLcdByte b = .ok (.lcdSetCgramAddress (b.extractLsb' 0 6)) := by
  simp only [decodeLcdByte, h7, h6, if_true, Bool.false_eq_true, if_false]

theorem ddramSet_bit7 (a : Byte) : (ddramSet a).getLsbD 7 = true := by
  revert a; decide

theorem ddramSet_address (a : Byte) : (ddramSet a).extractLsb' 0 7 = a.extractLsb' 0 7 := by
  revert a; decide

theorem cgramSet_bit6 (a : Byte) : (cgramSet a).getLsbD 6 = true := by
  revert a; decide

/-- The CGRAM tag leaves bit 7 as it is in the address (R99). -/
theorem cgramSet_bit7 (a : Byte) : (cgramSet a).getLsbD 7 = decide (0x80 ≤ a) := by
  revert a; decide

theorem cgramSet_address (a : Byte) : (cgramSet a).extractLsb' 0 6 = (a &&& 0x3F).extractLsb' 0 6 := by
  revert a; decide

/-- Settles O14: bit 7 of an address-set byte decides its row, and the CGRAM tag does not clear it. -/
theorem addressTagsAreOredUnmasked : Obligations.AddressTagsAreOredUnmasked := by
  refine ⟨fun a ha => ?_, fun a ha => ?_, fun a => ?_, fun sizeX x y b hb => ?_⟩
  · exact decodeLcdByte_of_bit7 ((cgramSet_bit7 a).trans (decide_eq_true ha))
  · have hlow : ¬ (0x80 : Byte) ≤ a := by bv_omega
    rw [decodeLcdByte_of_bit6 ((cgramSet_bit7 a).trans (decide_eq_false hlow)) (cgramSet_bit6 a), cgramSet_address]
  · rw [decodeLcdByte_of_bit7 (ddramSet_bit7 a), ddramSet_address]
  · obtain ⟨base, -, rfl⟩ := Option.map_eq_some_iff.1 hb
    exact ddramSet_bit7 (base + x)

/-! ## LCD instruction bytes -/

theorem isCommand_of_encode_lcdByte {i : Instr} {b : Byte} (h : encode i = .lcdByte b) : isCommand i = false := by
  simp only [isCommand, h]

/-- Settles O37: at `READY` with nothing to issue, the byte's register write is the whole run. -/
theorem lcdInstructionBytesAreWritten : Obligations.LcdInstructionBytesAreWritten := by
  intro i b he s hq ho
  have hrun : exec i s = .next (run [.regWrite false b] { s with seq := .exec }) := by
    rw [exec_emitted (isCommand_of_encode_lcdByte he), he, emit, ho, hq]; rfl
  have hframe := run_frame [.regWrite false b] { s with seq := .exec }
  have hsends := run_sends (s := s) (a := { s with seq := .exec }) rfl rfl rfl false b []
  exact ⟨_, hrun, hsends, hframe.sameRegisters, hframe.sameInputs⟩

end Sys2Proof.Machine
end

section
/-!
The codec of 40_codec.md: what a nibble write and a register read put on the bus (R112, R114 to R116), the fields of
the status byte (R122, R123), how a busy poll ends and what it costs (R118 to R121), and the commands that run on
over aborted reads (R117, R124).
-/

namespace Sys2Proof.Machine

open Sys2Proof

/-! ## Nibble writes and register reads -/

theorem nibbleWrite_mask (rs : Bool) (n : Byte) (s : State) : nibbleWrite rs (n &&& 0xF0) s = nibbleWrite rs n s := by
  simp only [nibbleWrite, writeFrame_mask]

/-- Settles O15: the trace law of a nibble write, and its frame. -/
theorem nibbleWriteSendsThreeFrames : Obligations.NibbleWriteSendsThreeFrames := by
  intro rs n s
  have hblock := nibbleWrite_sameBlock rs n s
  exact ⟨nibbleWrite_trace rs n s, (nibbleWrite_mask rs n s).symm, hblock.sameRegisters, hblock.sameInputs, hblock.seq,
    hblock.responses, nibbleWrite_replies rs n s⟩

/-- Settles O16: the three ways a register read is answered, and its frame. -/
theorem regReadTransactions : Obligations.RegReadTransactions := by
  refine ⟨fun rs s v1 v2 rest h => ?_, fun rs s r rest h hr => ?_, fun rs s v1 r rest h hr => ?_, fun rs s => ?_⟩
  · obtain ⟨hvalue, htrace, hreplies, -⟩ := regRead_bytes rs h
    exact ⟨hvalue, htrace, hreplies⟩
  · obtain ⟨hvalue, htrace, hreplies, -⟩ := regRead_short1 rs h hr
    exact ⟨hvalue, htrace, hreplies⟩
  · obtain ⟨hvalue, htrace, hreplies, -⟩ := regRead_short2 rs h hr
    exact ⟨hvalue, htrace, hreplies⟩
  · have hblock := regRead_sameBlock rs s
    exact ⟨hblock.sameRegisters, hblock.sameInputs, hblock.seq, hblock.responses⟩

/-- The status byte 0x00, which an aborted read returns, is address 0 and not busy (R116, R119). -/
theorem statusFields_of_zero {s : State} (h : (regRead false s).1 = 0x00) :
    (readAddressCounter s).1 = 0x00 ∧ (readBusyFlag s).1 = false :=
  ⟨congrArg statusAddress h, congrArg busyFlag h⟩

/-- Settles O17: both are one register read, and an aborted one returns 0x00. -/
theorem statusByteFields : Obligations.StatusByteFields := by
  refine ⟨fun s => ⟨rfl, ?_⟩, fun s r rest h hr => ?_, fun s v1 r rest h hr => ?_⟩
  · rw [ofNat_and_busy]; rfl
  · exact statusFields_of_zero (regRead_short1 false h hr).1
  · exact statusFields_of_zero (regRead_short2 false h hr).1

/-! ## Aborted polls -/

/-- A poll whose status read aborts is over in that turn (R119 (b)). -/
theorem regWrite_aborted {s : State} {a : ReadAnswer} {rest : List Reply} (rs : Bool) (v : Byte)
    (h : s.replies = a.replies ++ rest) (ha : a.legal = true) (h0 : a.value = 0x00) :
    ∃ t, regWrite rs v s = .done t ∧ t.replies = rest ∧
      t.trace = s.trace ++ a.events s.cfg.addr s.bl false ++ writeEvents s.cfg.addr (byteFrames s.bl rs v) := by
  obtain ⟨t, hdone, -, hreplies, htrace⟩ := regWrite_answer rs v h ha (by rw [h0]; rfl)
  exact ⟨t, hdone, hreplies, by rw [htrace, List.append_assoc]⟩

/-- Settles O18: an aborted status read returns 0x00, whose bit 7 is clear. -/
theorem abortedPollCountsAsFree : Obligations.AbortedPollCountsAsFree :=
  ⟨fun rs v _ r _ h hr => regWrite_aborted (a := .short1 r) rs v h (bne_iff_ne.2 hr) rfl,
    fun rs v v1 _ r _ h hr => regWrite_aborted (a := .short2 v1 r) rs v h (bne_iff_ne.2 hr) rfl⟩

/-! ## Turns of a busy poll -/

/-- A full register write, or the restore, is the next thing to issue in a command or an init step, and no reset is
asked for. -/
structure Polling (s : State) (m : Micro) (ms : List Micro) : Prop where
  resetIn : s.resetIn = none
  seq : s.seq ≠ .ready
  ops : s.ops = m :: ms
  polls : m.polls = true

section Turns

variable {s : State} {m : Micro} {ms : List Micro}

theorem Polling.of_sameBlock {t : State} (h : Polling s m ms) (hb : SameBlock s t) (ho : t.ops = m :: ms) :
    Polling t m ms :=
  ⟨hb.resetIn.trans h.resetIn, by rw [hb.seq]; exact h.seq, ho, h.polls⟩

/-- A micro-operation with a poll whose status read finds the busy flag set does nothing more (R118). -/
theorem micro_busyTurn (hm : m.polls = true) (hb : busyFlag (regRead false s).1 = true) :
    micro m s = .busy (regRead false s).2 := by
  cases m with
  | regWrite rs v => exact (regWrite_eq rs v s).trans (if_pos hb)
  | restoreAC => exact (regWrite_eq false _ s).trans (if_pos hb)
  | _ => cases hm

/-- A step whose status read finds the busy flag set is that read: everything stays to be issued (R118, R254). -/
theorem step_busyTurn (h : Polling s m ms) (hb : busyFlag (regRead false s).1 = true) :
    step s = .next { (regRead false s).2 with ops := m :: ms } := by
  rw [step_pending h.resetIn h.seq h.ops, run_cons_busy ms (micro_busyTurn h.polls hb)]

theorem SameBlock.withOps {t : State} (h : SameBlock s t) (ops : List Micro) : SameBlock s { t with ops := ops } :=
  ⟨h.cfg, h.em, h.dc, h.sh, h.fs, h.bl, h.seq, h.saved, h.value, h.cmdPort, h.responses, h.resetIn⟩

theorem busyTurn_sameBlock (s : State) (ops : List Micro) : SameBlock s { (regRead false s).2 with ops := ops } :=
  (regRead_sameBlock false s).withOps ops

/-- The trace items of status reads answered by two bytes each. -/
def statusEvents (addr : Addr7) (bl : Bool) (ps : List (Byte × Byte)) : List Event :=
  ps.flatMap fun p => readEvents addr bl false p.1 p.2

theorem sentBytes_statusEvents_length (addr : Addr7) (bl : Bool) (ps : List (Byte × Byte)) :
    (sentBytes (statusEvents addr bl ps)).length = 5 * ps.length := by
  induction ps with
  | nil => rfl
  | cons p ps ih =>
    simp only [statusEvents, List.flatMap_cons, sentBytes_append, sentBytes_readEvents, List.length_append,
      List.length_cons] at ih ⊢
    rw [ih, show (readFrames bl false).length = 5 from rfl]; omega

theorem readCount_statusEvents (addr : Addr7) (bl : Bool) (ps : List (Byte × Byte)) :
    readCount (statusEvents addr bl ps) = 2 * ps.length := by
  induction ps with
  | nil => rfl
  | cons p ps ih =>
    simp only [statusEvents, List.flatMap_cons, readCount_append, readCount_readEvents, List.length_cons] at ih ⊢
    rw [ih]; omega

theorem pairReplies_append (ps qs : List (Byte × Byte)) : pairReplies (ps ++ qs) = pairReplies ps ++ pairReplies qs :=
  List.flatMap_append

/-- As many steps as there are busy answers: each is one status read (R118, R119 (a)). -/
theorem run_busyTurns {busy : List (Byte × Byte)} {rest : List Reply} (h : Polling s m ms)
    (hb : ∀ p ∈ busy, p.1.getLsbD 7 = true) (hr : s.replies = pairReplies busy ++ rest) :
    ∃ t, Sys2Proof.core.run busy.length s = .next t ∧ SameBlock s t ∧ t.ops = m :: ms ∧ t.replies = rest ∧
      t.trace = s.trace ++ statusEvents s.cfg.addr s.bl busy := by
  induction busy generalizing s with
  | nil => exact ⟨s, rfl, SameBlock.refl s, h.ops, hr, (List.append_nil _).symm⟩
  | cons p busy ih =>
    obtain ⟨hvalue, htrace, hreplies, -⟩ := regRead_bytes false hr
    have hbusy : busyFlag (regRead false s).1 = true := by
      rw [hvalue, busyFlag_joinSamples]; exact hb p List.mem_cons_self
    have hblock := busyTurn_sameBlock s (m :: ms)
    obtain ⟨t, hrun, hblock', hops, hrest, htrace'⟩ :=
      ih (h.of_sameBlock hblock rfl) (fun q hq => hb q (List.mem_cons_of_mem p hq)) hreplies
    refine ⟨t, (core_run_succ busy.length (step_busyTurn h hbusy)).trans hrun, hblock.trans hblock', hops, hrest, ?_⟩
    rw [htrace', hblock.cfg, hblock.bl]
    simp [htrace, statusEvents]

/-- `m` is the full register write of `v`, or the restore that writes `v` when `saved` was saved (R120, R124). -/
def Micro.Writes (m : Micro) (saved : Byte) (rs : Bool) (v : Byte) : Prop :=
  m = .regWrite rs v ∨ (m = .restoreAC ∧ rs = false ∧ v = saved ||| 0x80)

theorem Micro.Writes.micro_eq {saved v : Byte} {rs : Bool} (h : m.Writes saved rs v) (hs : s.saved = saved) :
    micro m s = Machine.regWrite rs v s := by
  subst hs
  rcases h with rfl | ⟨rfl, rfl, rfl⟩ <;> rfl

theorem Micro.Writes.polls {saved v : Byte} {rs : Bool} (h : m.Writes saved rs v) : m.polls = true := by
  rcases h with rfl | ⟨rfl, -, -⟩ <;> rfl

/-- The busy turns and the free one: the byte goes out in the last, and what stands behind it is issued (R120, R121). -/
theorem run_pollTurns {rs : Bool} {v : Byte} {busy : List (Byte × Byte)} {free : Byte × Byte} {rest : List Reply}
    (h : Polling s m ms) (hm : m.Writes s.saved rs v)
    (hb : ∀ p ∈ busy, p.1.getLsbD 7 = true) (hf : free.1.getLsbD 7 = false)
    (hr : s.replies = pairReplies (busy ++ [free]) ++ rest) :
    ∃ u, Sys2Proof.core.run (busy.length + 1) s = .next (run ms u) ∧ SameBlock s u ∧ u.replies = rest ∧
      u.trace = s.trace ++ statusEvents s.cfg.addr s.bl (busy ++ [free]) ++
        writeEvents s.cfg.addr (byteFrames s.bl rs v) := by
  have hr' : s.replies = pairReplies busy ++ (byteReply free.1 :: byteReply free.2 :: rest) := by
    rw [hr, pairReplies_append, List.append_assoc]; rfl
  obtain ⟨t, hrun, hblock, hops, hreplies, htrace⟩ := run_busyTurns h hb hr'
  have ht := h.of_sameBlock hblock hops
  obtain ⟨u, hdone, hblock', hrest, htrace'⟩ := regWrite_free rs v hreplies hf
  have hstep : step t = .next (run ms u) := by
    rw [step_pending ht.resetIn ht.seq ht.ops, run_cons_done ms ((hm.micro_eq hblock.saved).trans hdone)]
  refine ⟨u, core_run_snoc hrun hstep, hblock.trans hblock', hrest, ?_⟩
  rw [htrace', htrace, hblock.cfg, hblock.bl]
  simp [statusEvents]

end Turns

theorem run_retValue (s : State) : run [.retValue] s = run [.ret (.byte s.value)] s := rfl

/-- Settles O19, by induction on the busy answers: the first turns are status reads, the last sends the byte. -/
theorem pollOfKTurnsCosts : Obligations.PollOfKTurnsCosts := by
  intro s rs v m ms busy free rest h0 hq ho hm hb hf hr
  have hw : m.Writes s.saved rs v := hm
  have h : Polling s m ms := ⟨h0, hq, ho, hw.polls⟩
  constructor
  · intro j hj
    have hr' : s.replies = pairReplies (busy.take j) ++ (pairReplies (busy.drop j ++ [free]) ++ rest) := by
      rw [hr, ← List.append_assoc, ← pairReplies_append, ← List.append_assoc, List.take_append_drop]
    obtain ⟨t, hrun, hblock, hops, -, -⟩ := run_busyTurns h (fun p hp => hb p (List.mem_of_mem_take hp)) hr'
    rw [List.length_take_of_le hj] at hrun
    exact ⟨t, hrun, hblock.seq, hops, hblock.responses, hblock.sameRegisters, hblock.sameInputs⟩
  · obtain ⟨u, hrun, hblock, hreplies, htrace⟩ := run_pollTurns h hw hb hf hr
    refine ⟨u, hrun, hblock.seq, hblock.saved, hblock.value, hblock.responses, hblock.sameRegisters, hblock.sameInputs,
      hreplies, htrace, ?_, ?_, ?_, ?_, ?_⟩
    · rw [htrace, sentBytes_append, sentBytes_append, List.length_append, List.length_append,
        sentBytes_statusEvents_length, sentBytes_writeEvents, List.length_append]
      rfl
    · rw [htrace, readCount_append, readCount_append, readCount_statusEvents, readCount_writeEvents,
        List.length_append]
      rfl
    · rintro r hexec rfl
      exact ⟨finish_completed (hblock.seq.trans hexec) hblock.responses, run_ret_trace r u⟩
    · rintro hexec rfl
      rw [run_retValue, hblock.value]
      exact ⟨finish_completed (hblock.seq.trans hexec) hblock.responses, run_ret_trace _ u⟩
    · rintro rfl
      have hseq : (run [] u).seq = nextSeq s.cfg.family s.seq := by rw [run_nil, finish_seq, hblock.cfg, hblock.seq]
      exact ⟨rfl, hblock.responses, rfl, fun hexec => by rw [hseq, hexec]; rfl, fun k hinit => by rw [hseq, hinit]; rfl⟩

/-! ## A poll that never ends -/

/-- With a responder in step whose busy flag is set, a turn of the poll leaves it so (R119 (c)). -/
theorem regRead_busy_inStep {s : State} {l : Lcd} (h : s.inStep l) (hb : l.bf = true) :
    busyFlag (regRead false s).1 = true ∧ (regRead false s).2.inStep (l.afterRead false) ∧
      (l.afterRead false).bf = true ∧
      sentBytes (regRead false s).2.trace = sentBytes s.trace ++ readFrames s.bl false := by
  obtain ⟨hvalue, hstep, hsent⟩ := regRead_inStep h false
  exact ⟨by rw [hvalue]; exact (busyFlag_append l.bf l.ac).trans hb, hstep, hb, hsent⟩

/-- Any number of steps, each one turn of the poll. -/
theorem run_endlessBusy (n : Nat) {s : State} {l : Lcd} {m : Micro} {ms : List Micro} (h : Polling s m ms)
    (hl : s.inStep l) (hb : l.bf = true) :
    ∃ t, Sys2Proof.core.run n s = .next t ∧ SameBlock s t ∧ t.ops = m :: ms ∧
      sentBytes t.trace = sentBytes s.trace ++ (List.replicate n (readFrames s.bl false)).flatten := by
  induction n generalizing s l with
  | zero => exact ⟨s, rfl, SameBlock.refl s, h.ops, (List.append_nil _).symm⟩
  | succ n ih =>
    obtain ⟨hbusy, hl', hb', hsent⟩ := regRead_busy_inStep hl hb
    have hblock := busyTurn_sameBlock s (m :: ms)
    obtain ⟨t, hrun, hblock', hops, hsent'⟩ := ih (h.of_sameBlock hblock rfl) hl' hb'
    refine ⟨t, (core_run_succ n (step_busyTurn h hbusy)).trans hrun, hblock.trans hblock', hops, ?_⟩
    rw [hsent', hblock.bl, hsent, List.replicate_succ, List.flatten_cons, List.append_assoc]

/-- Settles O20, by induction on the number of steps. -/
theorem endlessBusyNeverEnds : Obligations.EndlessBusyNeverEnds := by
  intro n s l m ms h0 hl hb hq ho hm
  have hpolls : m.polls = true := by rcases hm with ⟨rs, v, rfl⟩ | rfl <;> rfl
  obtain ⟨t, hrun, hblock, hops, hsent⟩ := run_endlessBusy n ⟨h0, hq, ho, hpolls⟩ hl hb
  exact ⟨t, hrun, hblock.seq, hops.trans ho.symm, hblock.responses, hblock.sameRegisters, hblock.sameInputs, hsent⟩

/-! ## Commands over aborted reads -/

section SaveAndRestore

variable {s : State} {save : ReadAnswer} {rest : List Reply} (hq : s.seq = .ready) (hs : save.legal = true)

include hq hs

/-- A save and restore command that writes data: it completes, however its reads are answered, no status read finding
the busy flag set (R117, R124, R175). -/
theorem commandOps_saveWriteRestore (addressSet : Byte) (d : List Byte) {polls : List ReadAnswer}
    (hl : polls.length = d.length + 2) (hp : freeAnswers polls)
    (h : s.replies = answerReplies (save :: polls) ++ rest) :
    ∃ t, commandOps s (saveAccessRestore addressSet (dataWrites d) ++ [.ret .unit]) = .next t ∧
      s.completed t .unit ∧ sameRegisters s t ∧ sameInputs s t ∧ t.replies = rest ∧
      t.trace = s.trace ++ save.events s.cfg.addr s.bl false ++
        answeredCycles s.cfg.addr s.bl polls
          ((false, addressSet) :: (d.map (fun v => (true, v)) ++ [(false, (save.value &&& 0x7F) ||| 0x80)])) := by
  rw [answerReplies_cons] at h
  obtain ⟨u, hrun, hseq, hresponses, hreplies, htrace⟩ := run_saveAccessRestore_answer (a := s.accept) addressSet
    (d.map fun v => (true, v)) hs (by rw [hl, List.length_map]) hp h rfl
  rw [List.map_map] at hrun
  have hframe := run_frame (saveAccessRestore addressSet (dataWrites d) ++ [.ret .unit]) s.accept
  refine ⟨_, commandOps_ready hq _, ?_, hframe.sameRegisters, hframe.sameInputs, ?_, ?_⟩
  · exact hrun ▸ finish_completed hseq hresponses
  · exact hrun ▸ hreplies
  · exact hrun ▸ (run_ret_trace .unit u).trans htrace

/-- A save and restore command that reads a byte: the response is the byte read, 0x00 where that read aborts
(R117, R177). -/
theorem commandOps_saveReadRestore (addressSet : Byte) {p1 d p2 : ReadAnswer} (hd : d.legal = true)
    (hp : freeAnswers [p1, p2]) (h : s.replies = answerReplies [save, p1, d, p2] ++ rest) :
    ∃ t, commandOps s (saveAccessRestore addressSet [.readData] ++ [.retValue]) = .next t ∧
      s.completed t (.byte d.value) ∧ sameRegisters s t ∧ sameInputs s t ∧ t.replies = rest ∧
      t.trace = s.trace ++ save.events s.cfg.addr s.bl false ++
        answeredCycles s.cfg.addr s.bl [p1] [(false, addressSet)] ++ d.events s.cfg.addr s.bl true ++
        answeredCycles s.cfg.addr s.bl [p2] [(false, (save.value &&& 0x7F) ||| 0x80)] := by
  simp only [answerReplies_cons] at h
  obtain ⟨u, hrun, hseq, hresponses, hreplies, htrace⟩ :=
    run_saveReadRestore_answer (a := s.accept) addressSet hs hd hp h rfl
  have hframe := run_frame (saveAccessRestore addressSet [.readData] ++ [.retValue]) s.accept
  refine ⟨_, commandOps_ready hq _, ?_, hframe.sameRegisters, hframe.sameInputs, ?_, ?_⟩
  · exact hrun ▸ finish_completed hseq hresponses
  · exact hrun ▸ hreplies
  · exact hrun ▸ (run_ret_trace _ u).trans htrace

end SaveAndRestore

/-- The commands that save, write data and restore, with the address-set byte of each (R176, R179 to R181). -/
theorem exec_saveWriteRestore {i : Instr} {addressSet : Byte} {d : List Byte}
    (hi : (∃ addr v, i = .writeDdram addr v ∧ addressSet = addr ||| 0x80 ∧ d = [v]) ∨
      (∃ addr v, i = .writeCgram addr v ∧ addressSet = addr ||| 0x40 ∧ d = [v]) ∨
      (∃ slot, i = .writeGlyph5x8 slot d ∧ d.length = 8 ∧ addressSet = ((slot &&& 0x07) <<< 3) ||| 0x40) ∨
      (∃ slot, i = .writeGlyph5x10 slot d ∧ d.length = 11 ∧ addressSet = ((slot &&& 0x06) <<< 3) ||| 0x40))
    (s : State) :
    exec i s = commandOps s (saveAccessRestore addressSet (dataWrites d) ++ [.ret .unit]) := by
  rcases hi with ⟨addr, v, rfl, rfl, rfl⟩ | ⟨addr, v, rfl, rfl, rfl⟩ | ⟨slot, rfl, hd, rfl⟩ | ⟨slot, rfl, hd, rfl⟩
  · rfl
  · rfl
  · exact if_pos hd
  · exact if_pos hd

/-- The commands that save, read a byte and restore (R177, R178). -/
theorem exec_saveReadRestore {i : Instr} {addressSet : Byte}
    (hi : (∃ addr, i = .readDdram addr ∧ addressSet = addr ||| 0x80) ∨
      (∃ addr, i = .readCgram addr ∧ addressSet = addr ||| 0x40)) (s : State) :
    exec i s = commandOps s (saveAccessRestore addressSet [.readData] ++ [.retValue]) := by
  rcases hi with ⟨addr, rfl, rfl⟩ | ⟨addr, rfl, rfl⟩ <;> rfl

/-- Settles O33: each of the six commands is its pattern, which completes however its reads are answered. -/
theorem shortReadsDoNotStopACommand : Obligations.ShortReadsDoNotStopACommand := by
  refine ⟨fun i addressSet d hi s save polls rest hq hs hl hp h => ?_,
    fun i addressSet hi s save p1 d p2 rest hq hs hd hp h => ?_, fun r v1 => ⟨rfl, rfl, rfl⟩⟩
  · rw [exec_saveWriteRestore hi]
    exact commandOps_saveWriteRestore hq hs addressSet d hl hp h
  · rw [exec_saveReadRestore hi]
    exact commandOps_saveReadRestore hq hs addressSet hd hp h

end Sys2Proof.Machine
end

section
/-!
The register commands of 41_register_commands.md: the mask function `upd` (R140, R141) and its form for `SH` (R154),
and the clear, home, display-control, entry-mode and shift commands (R142 to R153, R155 to R158), each one full
register write with the response `Unit`.
-/

namespace Sys2Proof.Machine

open Sys2Proof

/-! ## Set and clear masks -/

theorem upd_clearMask {mask : Byte} (h : 0x10 < mask.toNat) (current : Byte) : upd current mask = current &&& mask :=
  if_pos h

theorem upd_setMask {mask : Byte} (h : mask.toNat ≤ 0x10) (current : Byte) : upd current mask = current ||| mask :=
  if_neg (Nat.not_lt.2 h)

/-- Settles O9: the two kinds of masks, and four of them. -/
theorem updFollowsTheMaskConvention : Obligations.UpdFollowsTheMaskConvention := by
  refine ⟨fun current _ h => upd_clearMask h current, fun current _ h => upd_setMask h current, fun current => ?_⟩
  have hclear : upd current 0xFE = current &&& 0xFE := upd_clearMask (by decide) current
  have hnone : upd current 0x00 = current ||| 0x00 := upd_setMask (by decide) current
  refine ⟨upd_clearMask (by decide) current, hnone.trans BitVec.or_zero, upd_setMask (by decide) current, ?_⟩
  rw [hclear, BitVec.getLsbD_and]
  exact Bool.and_false _

theorem upd_idem (current mask : Byte) : upd (upd current mask) mask = upd current mask := by
  rcases Nat.lt_or_ge 0x10 mask.toNat with h | h
  · rw [upd_clearMask h, upd_clearMask h, BitVec.and_assoc, BitVec.and_self]
  · rw [upd_setMask h, upd_setMask h, BitVec.or_assoc, BitVec.or_self]

theorem and_upd_setMask {mask : Byte} (h : mask.toNat ≤ 0x10) (current : Byte) :
    current &&& upd current mask = current := by
  rw [upd_setMask h]
  ext i hi
  rw [BitVec.getElem_and, BitVec.getElem_or]
  exact inf_sup_self

theorem or_upd_clearMask {mask : Byte} (h : 0x10 < mask.toNat) (current : Byte) :
    current ||| upd current mask = current := by
  rw [upd_clearMask h]
  ext i hi
  rw [BitVec.getElem_or, BitVec.getElem_and]
  exact sup_inf_self

/-- Settles O10: AND and OR with a fixed mask are idempotent, and each goes one way. -/
theorem updIsIdempotentAndOneSided : Obligations.UpdIsIdempotentAndOneSided :=
  ⟨upd_idem, fun current _ h => and_upd_setMask h current, fun current _ h => or_upd_clearMask h current,
    fun current => ⟨upd_clearMask (by decide) current, upd_clearMask (by decide) current,
      upd_clearMask (by decide) current⟩⟩

theorem updSH_eq (mask : Byte) : updSH mask = if 0x10 < mask.toNat then 0x10 else mask ||| 0x10 := by
  have hzeroed : updSH mask = upd 0#8 mask ||| 0x10 := rfl
  rw [hzeroed]
  split
  case isTrue h => rw [upd_clearMask h, BitVec.zero_and, BitVec.zero_or]
  case isFalse h => rw [upd_setMask (Nat.not_lt.1 h), BitVec.zero_or]

/-! ## Commands that are one register write -/

/-- One register write and the response `Unit`, from a state `a` in which the command is in progress, whose bus part
is that of `s`: what is sent, and what stays. -/
theorem run_regWrite_unit {s a : State} (hb : a = s.onRest a) (hq : a.seq = .exec) (hr : a.responses = s.responses)
    (rs : Bool) (v : Byte) :
    sendsByte rs v [.unit] s (run [.regWrite rs v, .ret .unit] a) ∧
      sameRegisters a (run [.regWrite rs v, .ret .unit] a) ∧ sameInputs a (run [.regWrite rs v, .ret .unit] a) :=
  have hframe := run_frame [.regWrite rs v, .ret .unit] a
  ⟨run_sends hb hq hr rs v [.unit], hframe.sameRegisters, hframe.sameInputs⟩

/-- A command that is one register write changes no register. -/
theorem commandOps_regWrite_unit {s : State} (hq : s.seq = .ready) (rs : Bool) (v : Byte) :
    ∃ t, commandOps s [.regWrite rs v, .ret .unit] = .next t ∧ sendsByte rs v [.unit] s t ∧ sameRegisters s t ∧
      sameInputs s t :=
  ⟨_, commandOps_ready hq _, run_regWrite_unit (s := s) (a := s.accept) rfl rfl rfl rs v⟩

theorem updateDC_sends {s : State} (hq : s.seq = .ready) (mask : Byte) :
    ∃ t, updateDC mask s = .next t ∧ t.dc = upd s.dc mask ∧ sendsByte false (upd s.dc mask) [.unit] s t ∧
      sameRegisters { s with dc := upd s.dc mask } t ∧ sameInputs s t := by
  obtain ⟨hsends, hregisters, hinputs⟩ := run_regWrite_unit (s := s) (a := { s.accept with dc := upd s.dc mask })
    rfl rfl rfl false (upd s.dc mask)
  exact ⟨_, updateDC_ready hq mask, (run_frame _ _).dc, hsends, hregisters, hinputs⟩

theorem updateEM_sends {s : State} (hq : s.seq = .ready) (mask : Byte) :
    ∃ t, updateEM mask s = .next t ∧ t.em = upd s.em mask ∧ sendsByte false (upd s.em mask) [.unit] s t ∧
      sameRegisters { s with em := upd s.em mask } t ∧ sameInputs s t := by
  obtain ⟨hsends, hregisters, hinputs⟩ := run_regWrite_unit (s := s) (a := { s.accept with em := upd s.em mask })
    rfl rfl rfl false (upd s.em mask)
  exact ⟨_, updateEM_ready hq mask, (run_frame _ _).em, hsends, hregisters, hinputs⟩

theorem updateSH_sends {s : State} (hq : s.seq = .ready) (mask : Byte) :
    ∃ t, updateSH mask s = .next t ∧ t.sh = updSH mask ∧ sendsByte false (updSH mask) [.unit] s t ∧
      sameRegisters { s with sh := updSH mask } t ∧ sameInputs s t := by
  obtain ⟨hsends, hregisters, hinputs⟩ := run_regWrite_unit (s := s) (a := { s.accept with sh := updSH mask })
    rfl rfl rfl false (updSH mask)
  exact ⟨_, updateSH_ready hq mask, (run_frame _ _).sh, hsends, hregisters, hinputs⟩

/-! ## The commands -/

/-- Settles O22: each is its register write alone. -/
theorem clearAndHomeSendTheirByte : Obligations.ClearAndHomeSendTheirByte := by
  intro i v hi s hq
  have hexec : exec i s = commandOps s [.regWrite false v, .ret .unit] := by
    simp only [List.mem_cons, Prod.mk.injEq, List.not_mem_nil, or_false] at hi
    rcases hi with ⟨rfl, rfl⟩ | ⟨rfl, rfl⟩ <;> rfl
  rw [hexec]
  exact commandOps_regWrite_unit hq false v

/-- Settles O23: each updates `DC` with its own mask. -/
theorem displayControlCommands : Obligations.DisplayControlCommands := by
  intro i mask hi s hq
  have hexec : exec i s = updateDC mask s := by
    simp only [List.mem_cons, Prod.mk.injEq, List.not_mem_nil, or_false] at hi
    rcases hi with ⟨rfl, rfl⟩ | ⟨rfl, rfl⟩ | ⟨rfl, rfl⟩ | ⟨rfl, rfl⟩ | ⟨rfl, rfl⟩ | ⟨rfl, rfl⟩ <;> rfl
  rw [hexec]
  exact updateDC_sends hq mask

/-- Settles O24: each updates `EM` with its own mask. -/
theorem entryModeCommands : Obligations.EntryModeCommands := by
  intro i mask hi s hq
  have hexec : exec i s = updateEM mask s := by
    simp only [List.mem_cons, Prod.mk.injEq, List.not_mem_nil, or_false] at hi
    rcases hi with ⟨rfl, rfl⟩ | ⟨rfl, rfl⟩ | ⟨rfl, rfl⟩ | ⟨rfl, rfl⟩ <;> rfl
  rw [hexec]
  exact updateEM_sends hq mask

/-- Settles O25: each updates `SH` with a set mask, of which `updSH` makes the value. -/
theorem shiftCommands : Obligations.ShiftCommands := by
  refine ⟨updSH_eq, fun i v hi s hq => ?_⟩
  have hexec : ∃ mask, exec i s = updateSH mask s ∧ updSH mask = v := by
    simp only [List.mem_cons, Prod.mk.injEq, List.not_mem_nil, or_false] at hi
    rcases hi with ⟨rfl, rfl⟩ | ⟨rfl, rfl⟩ | ⟨rfl, rfl⟩ | ⟨rfl, rfl⟩
    · exact ⟨0x00, rfl, rfl⟩
    · exact ⟨0x04, rfl, rfl⟩
    · exact ⟨0x08, rfl, rfl⟩
    · exact ⟨0x0C, rfl, rfl⟩
  obtain ⟨mask, hmask, rfl⟩ := hexec
  rw [hmask]
  exact updateSH_sends hq mask

end Sys2Proof.Machine
end

section
/-!
The addressing layer and the data commands of 42_addressing_commands.md: cursor and character (R170, R171), the erased
line (R173), and the commands that save, access and restore (R175 to R181), alone and as a byte written and read back
through a controller in step (20_memory.md section 8).
-/

namespace Sys2Proof.Machine

open Sys2Proof

/-! ## Cursor and character -/

theorem exec_setCursor {y base : Byte} {s : State} (h : lineOffset s.cfg.sizeX y = some base) (x : Byte) :
    exec (.setCursor x y) s = commandOps s [.regWrite false (ddramSet (base + x)), .ret .unit] := by
  have hexec : exec (.setCursor x y) s = commandOps s (cursorOps s.cfg.sizeX x y ++ [.ret .unit]) := rfl
  rw [hexec, cursorOps, cursorByte, h]
  rfl

/-- The lines of the table are those not above 3 (R31). -/
theorem exists_lineOffset {y : Byte} (hy : ¬ 3 < y) (sizeX : Byte) : ∃ base, lineOffset sizeX y = some base := by
  obtain rfl | rfl | rfl | rfl : y = 0 ∨ y = 1 ∨ y = 2 ∨ y = 3 := by bv_omega
  all_goals exact ⟨_, rfl⟩

/-- Settles O26: above line 3 the command is its response alone, else one register write of the line's offset
plus `x`. -/
theorem setCursorCommand : Obligations.SetCursorCommand := by
  intro x y s hq
  by_cases hy : 3 < y
  · have hframe := run_frame [.ret .unit] s.accept
    refine ⟨_, exec_setCursor_above hy x hq, hframe.sameRegisters, hframe.sameInputs,
      fun _ => ⟨run_ret_trace .unit s.accept, rfl, finish_completed rfl rfl⟩, ?_, ?_, ?_, ?_⟩
    all_goals rintro rfl; exact absurd hy (by decide)
  · obtain ⟨base, hbase⟩ := exists_lineOffset hy s.cfg.sizeX
    obtain ⟨t, hrun, hsends, hregisters, hinputs⟩ := commandOps_regWrite_unit hq false (ddramSet (base + x))
    refine ⟨t, (exec_setCursor hbase x).trans hrun, hregisters, hinputs, fun h => absurd h hy, ?_, ?_, ?_, ?_⟩
    all_goals rintro rfl; cases hbase
    · have hsum : (0x00 : Byte) + x = x := BitVec.zero_add x
      rwa [hsum] at hsends
    all_goals exact hsends

/-- Settles O27: the command is one register write to the data register. -/
theorem displayCharCommand : Obligations.DisplayCharCommand :=
  fun c _ hq => commandOps_regWrite_unit hq true c

/-! ## The erased line -/

theorem cursorBytes_some {sizeX line base : Byte} (h : lineOffset sizeX line = some base) :
    cursorBytes sizeX 0 line = [(false, base ||| 0x80)] := by
  simp [cursorBytes, cursorByte, h, ddramSet]

theorem cursorBytes_none {line : Byte} (h : 3 < line) (sizeX x : Byte) : cursorBytes sizeX x line = [] := by
  simp [cursorBytes, cursorByte, lineOffset_above h]

/-- ERASE_LINE is full register writes: a cursor step, the spaces, a cursor step (R173). -/
theorem exec_eraseLine (line : Byte) (s : State) :
    exec (.eraseLine line) s = commandOps s ((cursorBytes s.cfg.sizeX 0 line ++
      (List.replicate s.cfg.sizeX.toNat (true, 0x20#8) ++ cursorBytes s.cfg.sizeX 0 line)).map
        (fun b => Micro.regWrite b.1 b.2) ++ [.ret .unit]) := by
  have hexec : exec (.eraseLine line) s = commandOps s (cursorOps s.cfg.sizeX 0 line ++
      dataWrites (List.replicate s.cfg.sizeX.toNat 0x20#8) ++ cursorOps s.cfg.sizeX 0 line ++ [.ret .unit]) := rfl
  rw [hexec, cursorOps_eq_map, dataWrites_replicate, List.append_assoc (List.map _ _), ← List.map_append,
    ← List.map_append]

/-- A command that is full register writes, each status read answered and free, completes with `Unit` (R118, R120). -/
theorem commandOps_writes {s : State} (hq : s.seq = .ready) (bytes : List (Bool × Byte)) {polls : List (Byte × Byte)}
    {rest : List Reply} (hl : polls.length = bytes.length) (hp : freePolls polls)
    (h : s.replies = pairReplies polls ++ rest) :
    ∃ t, commandOps s (bytes.map (fun b => Micro.regWrite b.1 b.2) ++ [.ret .unit]) = .next t ∧
      s.completed t .unit ∧ sameRegisters s t ∧ sameInputs s t ∧ t.replies = rest ∧
      t.trace = s.trace ++ cycleEvents s.cfg.addr s.bl polls bytes := by
  obtain ⟨u, hrun, hblock, hreplies, htrace⟩ := run_writes bytes [.ret .unit] (s := s.accept) hl hp h
  have hframe := run_frame (bytes.map (fun b => Micro.regWrite b.1 b.2) ++ [.ret .unit]) s.accept
  refine ⟨_, commandOps_ready hq _, ?_, hframe.sameRegisters, hframe.sameInputs, ?_, ?_⟩
  · exact hrun ▸ finish_completed hblock.seq hblock.responses
  · exact hrun ▸ hreplies
  · exact hrun ▸ (run_ret_trace .unit u).trans htrace

/-- Settles O28: the command's full register writes, with the cursor steps the line has. -/
theorem eraseLineCommand : Obligations.EraseLineCommand := by
  constructor
  · intro line base s polls rest hq hbase hl hp h
    rw [exec_eraseLine, cursorBytes_some hbase]
    exact commandOps_writes hq _ (by simp [hl]) hp h
  · intro line s polls rest hq hline hl hp h
    rw [exec_eraseLine, cursorBytes_none hline, List.nil_append, List.append_nil]
    exact commandOps_writes hq _ (by rw [hl, List.length_replicate]) hp h

/-! ## Save, access, restore with answered reads -/

/-- A save and restore command that writes data, its reads answered and its polls free (R175). -/
theorem commandOps_saveWriteRestore_free {s : State} (hq : s.seq = .ready) (addressSet : Byte) (d : List Byte)
    {save : Byte × Byte} {polls : List (Byte × Byte)} {rest : List Reply} (hl : polls.length = d.length + 2)
    (hp : freePolls polls) (h : s.replies = pairReplies (save :: polls) ++ rest) :
    ∃ t, commandOps s (saveAccessRestore addressSet (dataWrites d) ++ [.ret .unit]) = .next t ∧
      s.completed t .unit ∧ sameRegisters s t ∧ sameInputs s t ∧ t.replies = rest ∧
      t.trace = s.trace ++ readEvents s.cfg.addr s.bl false save.1 save.2 ++
        cycleEvents s.cfg.addr s.bl polls ((false, addressSet) ::
          (d.map (fun v => (true, v)) ++ [(false, (joinSamples save.1 save.2 &&& 0x7F) ||| 0x80)])) := by
  rw [← byteAnswers_cycles]
  exact commandOps_saveWriteRestore hq (save := .bytes save.1 save.2) rfl addressSet d
    ((List.length_map _).trans hl) (byteAnswers_free hp) (by rw [h, ← byteAnswers_replies]; rfl)

/-- Settles O29: each is the pattern with one data byte. -/
theorem singleByteWriteCommands : Obligations.SingleByteWriteCommands := by
  intro i addressSet v hi s save polls rest hq hl hp h
  have hexec : exec i s = commandOps s (saveAccessRestore addressSet (dataWrites [v]) ++ [.ret .unit]) := by
    rcases hi with ⟨addr, rfl, rfl⟩ | ⟨addr, rfl, rfl⟩ <;> rfl
  rw [hexec]
  exact commandOps_saveWriteRestore_free hq addressSet [v] hl hp h

/-- Settles O31: each is the pattern with the glyph's bytes, from the base its own mask gives. -/
theorem glyphCommands : Obligations.GlyphCommands := by
  intro i base d hi s save polls rest hq hl hp h
  have hexec : exec i s = commandOps s (saveAccessRestore (base ||| 0x40) (dataWrites d) ++ [.ret .unit]) := by
    rcases hi with ⟨slot, rfl, hd, rfl⟩ | ⟨slot, rfl, hd, rfl⟩ <;> exact if_pos hd
  rw [hexec]
  exact commandOps_saveWriteRestore_free hq (base ||| 0x40) d hl hp h

/-- Settles O30: the pattern with a data read, every read answered by two bytes. -/
theorem singleByteReadCommands : Obligations.SingleByteReadCommands := by
  intro i addressSet hi s save p1 d p2 rest hq hp h
  rw [exec_saveReadRestore hi]
  simp only [← byteAnswers_cycles]
  exact commandOps_saveReadRestore hq (save := .bytes save.1 save.2) rfl addressSet (p1 := .bytes p1.1 p1.2)
    (d := .bytes d.1 d.2) (p2 := .bytes p2.1 p2.2) rfl (byteAnswers_free hp) h

/-! ## A byte written and read back -/

/-- The controller with its address counter at `ac` in a space. -/
def Lcd.pointedAt (l : Lcd) (space : Space) (ac : Addr7) : Lcd := { l with space := space, ac := ac }

@[simp] theorem stepAC_pointedAt (l : Lcd) (sp : Space) (ac : Addr7) :
    l.stepAC.pointedAt sp ac = l.pointedAt sp ac := rfl

/-- Storing a byte moves the address counter nowhere by itself. -/
theorem memWrite_pointedAt (l : Lcd) (sp : Space) (ac : Addr7) (v : Byte) :
    ((l.pointedAt sp ac).memWrite v).pointedAt sp ac = (l.pointedAt sp ac).memWrite v := by
  cases sp <;> rfl

/-- The core of a controller pointed somewhere is its core pointed there. -/
theorem SameCore.pointedAt {l k : Lcd} (h : SameCore l k) (sp : Space) (ac : Addr7) :
    SameCore (l.pointedAt sp ac) (k.pointedAt sp ac) :=
  ⟨rfl, rfl, h.dd, h.cg, h.inc, h.bf⟩

theorem restore_pointedAt (l : Lcd) (ac : Addr7) : l.execute false (0b1#1 ++ ac) = l.pointedAt .ddram ac := by
  rw [← restore_byte]
  exact restore_exec l ac

/-- The byte `addressSet` points a controller at `ac` in space `sp`. -/
def PointsAt (addressSet : Byte) (sp : Space) (ac : Addr7) : Prop :=
  ∀ l : Lcd, l.execute false addressSet = l.pointedAt sp ac

theorem ddramSet_pointsAt {a : Byte} (ha : a < 0x80) : PointsAt (ddramSet a) .ddram (a.extractLsb' 0 7) :=
  fun l => ddramSet_exec l a ha

theorem cgramSet_pointsAt {a : Byte} (ha : a < 0x40) : PointsAt (cgramSet a) .cgram (a.extractLsb' 0 7) :=
  fun l => cgramSet_exec l a ha

/-- The save, access, restore pattern with a data read, up to its response (R175, R177): the byte read is the one at
the address. -/
theorem run_saveReadRestore_inStep {s : State} {l : Lcd} {addressSet : Byte} {sp : Space} {ac : Addr7}
    (hset : PointsAt addressSet sp ac) (h : s.inStep l) (hb : l.bf = false) :
    ∃ t k, run (saveAccessRestore addressSet [.readData] ++ [.retValue]) s = run [.retValue] t ∧ t.seq = s.seq ∧
      t.responses = s.responses ∧ t.value = (l.pointedAt sp ac).memRead ∧ t.inStep k ∧
      SameCore (l.pointedAt .ddram l.ac) k := by
  obtain ⟨t1, k1, hsave, b1, i1, c1⟩ := saveAC_inStep h
  obtain ⟨t2, k2, hpoint, b2, i2, c2, -⟩ := regWrite_inStep i1 (c1.bf.trans hb) false addressSet
  obtain ⟨t3, k3, hread, b3, i3, c3⟩ := readData_inStep i2
  have hpointed : SameCore (l.pointedAt sp ac) k2 := hset l ▸ (c1.execute false addressSet).trans c2
  have hstepped : SameCore (l.pointedAt sp ac).stepAC k3 := hpointed.stepAC.trans c3
  obtain ⟨t4, k4, hrestore, b4, i4, c4, -⟩ := regWrite_inStep i3 (hstepped.bf.trans hb) false (ddramSet t3.saved)
  have hsaved : t3.saved = 0#1 ++ l.ac := b3.saved.trans (b2.saved.trans b1.saved)
  rw [hsaved, restore_byte] at c4
  have hrestored := (hstepped.execute false (0b1#1 ++ l.ac)).trans c4
  rw [restore_pointedAt] at hrestored
  refine ⟨t4, k4, ?_, b4.seq.trans (b3.seq.trans (b2.seq.trans b1.seq)),
    b4.responses.trans (b3.responses.trans (b2.responses.trans b1.responses)),
    (b4.value.trans b3.value).trans hpointed.memRead, i4, hrestored⟩
  have hops : saveAccessRestore addressSet [.readData] ++ [.retValue] =
    [.saveAC, .regWrite false addressSet, .readData, .restoreAC, .retValue] := rfl
  rw [hops, run_cons_done _ hsave, run_cons_done _ ((micro_regWrite _ _ _).trans hpoint), run_cons_done _ hread,
    run_cons_done _ ((micro_restoreAC _).trans hrestore)]

section InStep

variable {s : State} {l : Lcd} {addressSet : Byte} {sp : Space} {ac : Addr7} (hset : PointsAt addressSet sp ac)
  (hq : s.seq = .ready) (h : s.inStep l) (hb : l.bf = false)

include hset hq h hb

/-- Writing one byte stores it at the address, and the address counter comes back in DDRAM space (R176, R179). -/
theorem commandOps_saveWriteRestore_inStep (v : Byte) :
    ∃ t k, commandOps s (saveAccessRestore addressSet (dataWrites [v]) ++ [.ret .unit]) = .next t ∧
      t.seq = .ready ∧ t.responses = s.responses ++ [.unit] ∧ t.inStep k ∧
      SameCore (((l.pointedAt sp ac).memWrite v).pointedAt .ddram l.ac) k := by
  obtain ⟨t, k, hrun, hready, hresponses, hk, hcore, -⟩ :=
    run_saveAccessRestore_inStep (s := s.accept) addressSet [(true, v)] h hb rfl
  have hall := calc l.executeAll [(false, addressSet), (true, v), (false, 0b1#1 ++ l.ac)]
    _ = ((l.execute false addressSet).memWrite v).stepAC.execute false (0b1#1 ++ l.ac) := rfl
    _ = ((l.pointedAt sp ac).memWrite v).pointedAt .ddram l.ac := by rw [hset, restore_pointedAt, stepAC_pointedAt]
  exact ⟨t, k, (commandOps_ready hq _).trans (congrArg _ hrun), hready, hresponses, hk, hall ▸ hcore⟩

/-- Reading one byte answers with the byte at the address, and the address counter comes back in DDRAM space (R177,
R178). -/
theorem commandOps_saveReadRestore_inStep :
    ∃ t k, commandOps s (saveAccessRestore addressSet [.readData] ++ [.retValue]) = .next t ∧ t.seq = .ready ∧
      t.responses = s.responses ++ [.byte (l.pointedAt sp ac).memRead] ∧ t.inStep k ∧
      SameCore (l.pointedAt .ddram l.ac) k := by
  obtain ⟨t, k, hrun, hseq, hresponses, hvalue, hk, hcore⟩ := run_saveReadRestore_inStep hset (s := s.accept) h hb
  obtain ⟨hready, -, -, -, hanswer⟩ := finish_completed (s := s) (r := .byte t.value) hseq hresponses
  rw [commandOps_ready hq, hrun, run_retValue]
  exact ⟨_, k, rfl, hready, hvalue ▸ hanswer, hk, hcore⟩

/-- The two, one after the other: the byte read is the one stored. -/
theorem commandOps_writeThenRead_inStep (v : Byte) :
    ∃ t1 t2 k, commandOps s (saveAccessRestore addressSet (dataWrites [v]) ++ [.ret .unit]) = .next t1 ∧
      commandOps t1 (saveAccessRestore addressSet [.readData] ++ [.retValue]) = .next t2 ∧
      t2.responses = s.responses ++ [.unit, .byte ((l.pointedAt sp ac).memWrite v).memRead] ∧ t2.seq = .ready ∧
      t2.inStep k ∧ SameCore (((l.pointedAt sp ac).memWrite v).pointedAt .ddram l.ac) k := by
  obtain ⟨t1, k1, hwrite, hready1, hresponses1, hk1, hcore1⟩ := commandOps_saveWriteRestore_inStep hset hq h hb v
  have hbf : ((l.pointedAt sp ac).memWrite v).bf = l.bf := by simp [Lcd.pointedAt]
  obtain ⟨t2, k2, hread, hready2, hresponses2, hk2, hcore2⟩ :=
    commandOps_saveReadRestore_inStep hset hready1 hk1 (hcore1.bf.trans (hbf.trans hb))
  have hbyte : (k1.pointedAt sp ac).memRead = ((l.pointedAt sp ac).memWrite v).memRead := by
    rw [← memWrite_pointedAt]
    exact (hcore1.pointedAt sp ac).memRead
  refine ⟨t1, t2, k2, hwrite, hread, ?_, hready2, hk2, ?_⟩
  · rw [hresponses2, hresponses1, hbyte, List.append_assoc]
    rfl
  · have hac : k1.ac = l.ac := hcore1.ac
    rw [hac] at hcore2
    exact (hcore1.pointedAt .ddram l.ac).trans hcore2

end InStep

/-- Settles O58: both commands point at `a` in DDRAM space, where the byte is stored. -/
theorem ddramRoundTrip : Obligations.DdramRoundTrip := by
  intro a v s l ha hq h hb hwf
  have haddr : (a.extractLsb' 0 7).toNat = a.toNat := by revert a; decide
  obtain ⟨t1, t2, k, hwrite, hread, hresponses, hready, hk, hcore⟩ :=
    commandOps_writeThenRead_inStep (ddramSet_pointsAt ha) hq h hb v
  have hdd : k.dd = l.dd.write a.toNat v := by rw [hcore.dd, ← haddr]; rfl
  have hbyte : ((l.pointedAt .ddram (a.extractLsb' 0 7)).memWrite v).memRead = v := Memory.read_write_same hwf _ v
  rw [hbyte] at hresponses
  refine ⟨t1, t2, k, hwrite, hread, hresponses, hready, hk, hcore.ac, hcore.space, ?_, fun b hne => ?_, hcore.cg⟩
  · rw [hdd, Memory.read_write_same hwf]
  · rw [hdd, Memory.read_write_other hwf _ _ hne]

/-- Settles O59: the same in CGRAM space, whose addresses are the low six bits of the address counter. -/
theorem cgramRoundTrip : Obligations.CgramRoundTrip := by
  intro a v s l ha hq h hb hwf
  have haddr : (a.extractLsb' 0 7 &&& 0x3F).toNat = a.toNat := by revert a; decide
  obtain ⟨t1, t2, k, hwrite, hread, hresponses, hready, hk, hcore⟩ :=
    commandOps_writeThenRead_inStep (cgramSet_pointsAt ha) hq h hb v
  have hcg : k.cg = l.cg.write a.toNat v := by rw [hcore.cg, ← haddr]; rfl
  have hbyte : ((l.pointedAt .cgram (a.extractLsb' 0 7)).memWrite v).memRead = v := Memory.read_write_same hwf _ v
  rw [hbyte] at hresponses
  refine ⟨t1, t2, k, hwrite, hread, hresponses, hready, hk, hcore.ac, hcore.space, ?_, fun b hne => ?_, hcore.dd⟩
  · rw [hcg, Memory.read_write_same hwf]
  · rw [hcg, Memory.read_write_other hwf _ _ hne]

end Sys2Proof.Machine
end

section
/-!
The backlight commands, the register getters and the status commands of 43_system_commands.md: none polls the busy
flag, so each ends at once with its response.
-/

namespace Sys2Proof.Machine

open Sys2Proof

/-! ## The backlight commands -/

/-- A short read: the response alone is left to give. -/
theorem backlightCommand_short {s : State} (hq : s.seq = .ready) (on : Bool) (change : Byte → Byte)
    (h : (busRead1 s).1 = .short) :
    backlightCommand on change s = .next (run [.ret (.bool false)] (busRead1 s.accept).2) := by
  have hread : busRead1 s.accept = (.short, (busRead1 s.accept).2) := Prod.ext h rfl
  rw [backlightCommand_ready hq, hread]

/-- A byte read: `BL` takes its value before the byte goes back. -/
theorem backlightCommand_byte {s : State} (hq : s.seq = .ready) (on : Bool) (change : Byte → Byte) {p : Byte}
    (h : (busRead1 s).1 = .byte p) :
    backlightCommand on change s =
      .next (run [.bus (change p), .ret (.bool true)] { (busRead1 s.accept).2 with bl := on }) := by
  have hread : busRead1 s.accept = (.byte p, (busRead1 s.accept).2) := Prod.ext h rfl
  rw [backlightCommand_ready hq, hread]

/-- Both backlight commands, by the answer to their one read (R200, R201). -/
theorem backlightCommand_completes {s : State} (hq : s.seq = .ready) (on : Bool) (change : Byte → Byte) :
    ∃ t, backlightCommand on change s = .next t ∧ sameInputs s t ∧
      ((busRead1 s).1 = .short → s.completed t (.bool false) ∧ sameRegisters s t ∧
        t.trace = s.trace ++ [Event.read s.cfg.addr .short]) ∧
      (∀ p, (busRead1 s).1 = .byte p → s.completed t (.bool true) ∧ sameRegisters { s with bl := on } t ∧
        t.trace = s.trace ++ [Event.read s.cfg.addr (.byte p), Event.write s.cfg.addr (change p)]) := by
  cases h : (busRead1 s).1 with
  | short =>
    have hframe := run_frame [.ret (.bool false)] (busRead1 s.accept).2
    refine ⟨_, backlightCommand_short hq on change h, hframe.sameInputs, fun _ => ?_, fun _ hp => (nomatch hp)⟩
    refine ⟨finish_completed rfl rfl, hframe.sameRegisters, ?_⟩
    rw [run_ret_trace, ← h]
    rfl
  | byte p =>
    have hframe := run_frame [.bus (change p), .ret (.bool true)] { (busRead1 s.accept).2 with bl := on }
    refine ⟨_, backlightCommand_byte hq on change h, hframe.sameInputs, fun hp => (nomatch hp), fun _ hp => ?_⟩
    cases hp
    rw [run_cons_done _ (micro_bus (change p) _)] at hframe ⊢
    refine ⟨finish_completed rfl rfl, hframe.sameRegisters, ?_⟩
    rw [run_ret_trace, busWrite_trace, ← h]
    exact List.append_assoc s.trace _ _

/-- Settles O34: set with bit 3, cleared with bit 3. -/
theorem backlightCommands : Obligations.BacklightCommands := fun _ hq =>
  ⟨backlightCommand_completes hq true (· ||| 0x08), backlightCommand_completes hq false (· &&& 0xF7)⟩

/-! ## The getters -/

/-- A command that only responds changes nothing but the responses and the sequencer's scratch. -/
theorem commandOps_ret {s : State} (hq : s.seq = .ready) (r : Response) :
    commandOps s [.ret r] = .next { s with responses := s.responses ++ [r], ops := [], saved := 0, value := 0 } := by
  have hseq : ((s.accept.respond r).finish).seq = s.seq := hq.symm
  rw [commandOps_ready hq, run_cons_done [] (micro_ret r s.accept), run_nil, ← hseq]
  rfl

/-- Settles O35: each getter is its response alone. -/
theorem gettersAnswerWithTheRegister : Obligations.GettersAnswerWithTheRegister := by
  intro s hq i v hi
  have hexec : exec i s = commandOps s [.ret (.byte v)] := by
    simp only [List.mem_cons, Prod.mk.injEq, List.not_mem_nil, or_false] at hi
    rcases hi with ⟨rfl, rfl⟩ | ⟨rfl, rfl⟩ | ⟨rfl, rfl⟩ | ⟨rfl, rfl⟩ <;> rfl
  rw [hexec, commandOps_ret hq]

/-! ## The status commands -/

/-- One status read and a response made of its byte, whatever the answer to the read (R210, R211). -/
theorem statusRead_completes {s : State} (hq : s.seq = .ready) (answer : Byte → Response) :
    ∃ t, command s (fun a => run [.ret (answer (regRead false a).1)] (regRead false a).2) = .next t ∧
      s.completed t (answer (regRead false s).1) ∧ t.trace = (regRead false s).2.trace ∧ sameRegisters s t ∧
      sameInputs s t ∧ sameMemory s t := by
  have hread : regRead false s.accept = ((regRead false s).1, (regRead false s).2.onRest s.accept) :=
    regRead_onRest false s s.accept
  have hblock := regRead_sameBlock false s.accept
  have hmemory := regRead_sameMemory false s.accept
  refine ⟨_, command_ready hq _, ?_⟩
  rw [hread] at hblock hmemory ⊢
  have hframe := hblock.frame.trans (run_frame [.ret (answer (regRead false s).1)] _)
  exact ⟨finish_completed hblock.seq hblock.responses, run_ret_trace _ _, hframe.sameRegisters, hframe.sameInputs,
    hmemory⟩

/-- Settles O36: the address counter and the busy flag are fields of the byte read. -/
theorem statusCommands : Obligations.StatusCommands := by
  refine fun s hq => ⟨statusRead_completes hq fun v => .byte (v &&& 0x7F), ?_⟩
  rw [ofNat_and_busy]
  exact statusRead_completes hq fun v => .bool (busyFlag v)

end Sys2Proof.Machine
end

section
/-!
The initialization sequences of 44_init_sequences.md: the responder that answers no read (R229), the waits (R221, R305),
the raw nibbles (R222, R223) and frames at `READY`, and the init steps that send a fixed word (R225 to R227).
-/

namespace Sys2Proof.Machine

open Sys2Proof

/-! ## A responder that answers no read -/

/-- A short answer aborts the status read, which counts as free (R119 (b)). -/
theorem freeAnswers_short {short : List Reply} (h : ∀ r ∈ short, r.available ≠ 1) :
    freeAnswers (short.map .short1) := by
  intro a ha
  obtain ⟨r, hr, rfl⟩ := List.mem_map.1 ha
  exact ⟨bne_iff_ne.2 (h r hr), BitVec.getLsbD_zero⟩

/-- Settles O43: initialization with its five status reads aborted at the first sample. -/
theorem silentResponderDoesNotBlockInitialization : Obligations.SilentResponderDoesNotBlockInitialization := by
  rintro p s short rest rfl hlength hshort
  obtain ⟨r1, r2, r3, r4, r5, rfl⟩ : ∃ r1 r2 r3 r4 r5, short = [r1, r2, r3, r4, r5] := by
    match short, hlength with
    | [r1, r2, r3, r4, r5], _ => exact ⟨r1, r2, r3, r4, r5, rfl⟩
  obtain ⟨t, hrun, hseq, hem, hdc, hsh, hfs, hbl, -, hreplies, -, -⟩ :=
    initializationEndsReady p _ (.short1 r1) (.short1 r2) (.short1 r3) (.short1 r4) (.short1 r5) rest
      rfl (freeAnswers_short hshort)
  exact ⟨t, hrun, hseq, hem, hdc, hsh, hfs.trans (configuredFS_eq p).symm, hbl, hreplies⟩

/-! ## Waits -/

/-- The bound of a wait, in whole units of the clock, the first change of the reading not counted. -/
theorem le_waitReadings (d : Nat) {res : Nat} (hres : 0 < res) : d + res ≤ waitReadings d res * res := by
  have h := Nat.lt_mul_div_succ (d + res - 1) hres
  rw [waitReadings, Nat.mul_comm]
  omega

/-- A reading of the clock that has changed `waitReadings d res` times has seen `d` pass (R221). -/
theorem elapsed_of_waitReadings {d res t0 t1 : Nat} (hres : 0 < res) (h : t0 / res + waitReadings d res ≤ t1 / res) :
    t0 + d ≤ t1 := by
  have hbound := le_waitReadings d hres
  have hstart : t0 < (t0 / res + 1) * res := Nat.lt_mul_of_div_lt (Nat.lt_succ_self _) hres
  have hend : (t0 / res + waitReadings d res) * res ≤ t1 :=
    (Nat.mul_le_mul_right res h).trans (Nat.div_mul_le_self t1 res)
  rw [Nat.add_mul] at hstart hend
  omega

/-- The step number and the bound of an init step that is a wait. -/
def InitAction.waitAt : InitAction × Nat → Option (Nat × Nat)
  | (.wait d, k) => some (k, d)
  | _ => none

theorem InitAction.waitAt_eq_some {a : InitAction × Nat} {k d : Nat} :
    InitAction.waitAt a = some (k, d) ↔ a = (.wait d, k) := by
  obtain ⟨a, j⟩ := a
  cases a <;> simp [InitAction.waitAt, and_comm]

/-- The waits of a variant: step numbers, counted from 1, and bounds. -/
def initWaits (family : Family) : List (Nat × Nat) := ((initSequence family).zipIdx 1).filterMap InitAction.waitAt

theorem mem_initWaits {family : Family} {k d : Nat} :
    (k, d) ∈ initWaits family ↔ initAction family k = some (.wait d) := by
  simp only [initWaits, List.mem_filterMap, InitAction.waitAt_eq_some, exists_eq_right,
    List.mk_mem_zipIdx_iff_le_and_getElem?_sub]
  cases k <;> simp [initAction]

/-- Settles O44: the rule of the wait, the arithmetic of the clock's readings, and the waits listed from each table. -/
theorem waitsAreLowerBounds : Obligations.WaitsAreLowerBounds :=
  ⟨fun d s => ⟨waitAtLeast_bound d s, waitAtLeast_trace d s⟩, fun _ _ _ _ => elapsed_of_waitReadings, rfl,
    fun _ _ => (mem_initWaits (family := .hd44780)).symm, fun _ _ => (mem_initWaits (family := .ks0066)).symm⟩

/-! ## Raw nibbles and frames at `READY` -/

theorem isCommand_of_encode_rawNibble {i : Instr} {n : Nibble} (h : encode i = .rawNibble n) : isCommand i = false := by
  simp only [isCommand, h]

theorem isCommand_of_encode_frame {i : Instr} {b : Byte} (h : encode i = .frame b) : isCommand i = false := by
  simp only [isCommand, h]

/-- In `t` the block is at `READY`, and no register, input or response is other than in `s`. -/
structure SentAlone (s t : State) : Prop where
  seq : t.seq = .ready
  registers : sameRegisters s t
  inputs : sameInputs s t
  responses : t.responses = s.responses

/-- A word emitted at `READY` with nothing to issue is its micro-operations alone. -/
theorem exec_emitted_ready {i : Instr} (hc : isCommand i = false) {s : State} (hq : s.seq = .ready) (ho : s.ops = []) :
    exec i s = .next (run (emittedOps (encode i)) { s with seq := .exec }) := by
  rw [exec_emitted hc, emit, ho, hq, List.append_nil]; rfl

/-- A micro-operation that is over at once, and uses the bus alone, leads back to `READY`. -/
theorem SentAlone.of_sameBlock {s t : State} (h : SameBlock { s with seq := .exec } t) : SentAlone s t.finish :=
  ⟨by rw [finish_seq, h.seq]; rfl, h.sameRegisters, h.sameInputs, h.responses⟩

/-- A raw nibble at `READY` is one nibble write (R222). -/
theorem exec_rawNibble {i : Instr} {n : Nibble} (hi : encode i = .rawNibble n) {s : State} (hq : s.seq = .ready)
    (ho : s.ops = []) : ∃ t, exec i s = .next t ∧ SentAlone s t ∧ t.replies = s.replies ∧
      t.trace = s.trace ++ writeEvents s.cfg.addr (nibbleFrames s.bl false (n ++ 0#4)) :=
  ⟨(nibbleWrite false (n ++ 0#4) { s with seq := .exec }).finish,
    by rw [exec_emitted_ready (isCommand_of_encode_rawNibble hi) hq ho, hi]; rfl,
    .of_sameBlock (nibbleWrite_sameBlock _ _ _), nibbleWrite_replies _ _ _, nibbleWrite_trace _ _ _⟩

/-- A frame at `READY` is one transmission of its byte (R110), which the latch then holds (R52). -/
theorem exec_frame {i : Instr} {b : Byte} (hi : encode i = .frame b) {s : State} (hq : s.seq = .ready)
    (ho : s.ops = []) : ∃ t, exec i s = .next t ∧ SentAlone s t ∧ t.replies = s.replies ∧ t.latch = b ∧
      t.trace = s.trace ++ [Event.write s.cfg.addr b] :=
  ⟨(busWrite b { s with seq := .exec }).finish,
    by rw [exec_emitted_ready (isCommand_of_encode_frame hi) hq ho, hi]; rfl,
    .of_sameBlock (busWrite_sameBlock _ _), rfl, rfl, rfl⟩

/-- The write frame `nnnnbe0r` of the opcode table is the codec's (R96). -/
theorem encode_xw (n : Nibble) (b e r : Bool) : encode (.xw n b e r) = .frame (writeFrame b (n ++ 0#4) r e) := by
  revert n b e r; decide

/-- The read frame `1111be1r` of the opcode table is the codec's (R97). -/
theorem encode_xr (b e r : Bool) : encode (.xr b e r) = .frame (readFrame b r e) := by
  revert b e r; decide

/-- Settles O38: the rows of the opcode table by the kind of word they encode to. -/
theorem rawNibblesAndFramesAreSent : Obligations.RawNibblesAndFramesAreSent := by
  intro s hq ho
  refine ⟨?_, ?_, fun n b e r => ?_, fun b e r => ?_⟩
  · obtain ⟨t, hexec, hsent, hreplies, htrace⟩ := exec_rawNibble (i := .rawNibble8bitInterface) rfl hq ho
    exact ⟨t, hexec, hsent.seq, hsent.registers, hsent.inputs, hsent.responses, hreplies, htrace⟩
  · obtain ⟨t, hexec, hsent, hreplies, htrace⟩ := exec_rawNibble (i := .rawNibble4bitInterface) rfl hq ho
    exact ⟨t, hexec, hsent.seq, hsent.registers, hsent.inputs, hsent.responses, hreplies, htrace⟩
  · obtain ⟨t, hexec, hsent, hreplies, hlatch, htrace⟩ := exec_frame (encode_xw n b e r) hq ho
    exact ⟨t, hexec, hsent.seq, hsent.registers, hsent.inputs, hsent.responses, hreplies, hlatch, htrace⟩
  · obtain ⟨t, hexec, hsent, hreplies, hlatch, htrace⟩ := exec_frame (encode_xr b e r) hq ho
    exact ⟨t, hexec, hsent.seq, hsent.registers, hsent.inputs, hsent.responses, hreplies, hlatch, htrace⟩

/-! ## Init steps that send a fixed word -/

/-- The action is the word `i`, which the block emits: no register update, and the word's micro-operations. -/
structure InitAction.Emits (a : InitAction) (i : Instr) : Prop where
  emitted : isCommand i = false
  prepare : ∀ s, a.prepare s = s
  ops : ∀ s, a.ops s = emittedOps (encode i)

theorem rawNibble_emits_8bit : (InitAction.rawNibble 0x30).Emits .rawNibble8bitInterface :=
  ⟨rfl, fun _ => rfl, fun _ => rfl⟩

theorem rawNibble_emits_4bit : (InitAction.rawNibble 0x20).Emits .rawNibble4bitInterface :=
  ⟨rfl, fun _ => rfl, fun _ => rfl⟩

/-- Display off is the display-control byte with all three bits clear, `DC` left alone (R227). -/
theorem displayOff_emits : InitAction.displayOff.Emits (.lcdDisplayControl false false false) :=
  ⟨rfl, fun _ => rfl, fun _ => rfl⟩

theorem clear_emits : InitAction.clear.Emits .lcdClearDisplay := ⟨rfl, fun _ => rfl, fun _ => rfl⟩

/-- An init step begun whose action is a word is that word's meaning. -/
theorem step_init_emits {s : State} {k : Nat} {a : InitAction} {i : Instr} (hr : s.resetIn = none)
    (hq : s.seq = .init k) (ho : s.ops = []) (ha : initAction s.cfg.family k = some a) (he : a.Emits i) :
    step s = exec i s := by
  have hseq : { s with seq := emitSeq s.seq } = s := by rw [hq, emitSeq, ← hq]
  rw [step_init hr hq, initTurn_begin ha ho, he.prepare, he.ops, exec_emitted he.emitted, emit, hseq, ho,
    List.append_nil]

theorem initAction_of_ne_ks0066 {family : Family} (h : family ≠ .ks0066) (k : Nat) :
    initAction family k = initAction .hd44780 k := by
  cases family with
  | hd44780 | splc780d => rfl
  | ks0066 => exact absurd rfl h

/-- Settles O45: each listed position's action emits the listed word. -/
theorem initStepsAreTheEmittedWords : Obligations.InitStepsAreTheEmittedWords := by
  intro s k i hr hq ho h
  suffices ∃ a : InitAction, initAction s.cfg.family k = some a ∧ a.Emits i by
    obtain ⟨a, ha, he⟩ := this
    exact step_init_emits hr hq ho ha he
  simp only [List.mem_cons, Prod.mk.injEq, List.not_mem_nil, or_false] at h
  rcases h with ⟨hf, h⟩ | ⟨hf, h⟩
  · rw [initAction_of_ne_ks0066 hf]
    rcases h with ⟨rfl, rfl⟩ | ⟨rfl, rfl⟩ | ⟨rfl, rfl⟩ | ⟨rfl, rfl⟩ | ⟨rfl, rfl⟩ | ⟨rfl, rfl⟩
    · exact ⟨_, rfl, rawNibble_emits_8bit⟩
    · exact ⟨_, rfl, rawNibble_emits_8bit⟩
    · exact ⟨_, rfl, rawNibble_emits_8bit⟩
    · exact ⟨_, rfl, rawNibble_emits_4bit⟩
    · exact ⟨_, rfl, displayOff_emits⟩
    · exact ⟨_, rfl, clear_emits⟩
  · rw [hf]
    rcases h with ⟨rfl, rfl⟩ | ⟨rfl, rfl⟩ | ⟨rfl, rfl⟩
    · exact ⟨_, rfl, rawNibble_emits_4bit⟩
    · exact ⟨_, rfl, displayOff_emits⟩
    · exact ⟨_, rfl, clear_emits⟩

end Sys2Proof.Machine
end

section
/-!
Reset and hazards (70_reset_and_hazards.md): a reset from any state (R280), the level E is left at (R292), and that
no command loses the nibble pairing while no read is short (R293).
-/

namespace Sys2Proof.Machine

open Sys2Proof

/-! ## Data reads with a controller in step -/

/-- A byte with bit 7 or bit 6 set points the controller somewhere, in DDRAM space if bit 7 is set (R99). -/
theorem exists_pointsAt {b : Byte} (h : b.getLsbD 7 = true ∨ b.getLsbD 6 = true) : ∃ sp ac, PointsAt b sp ac := by
  cases h7 : b.getLsbD 7 with
  | true => exact ⟨.ddram, b.extractLsb' 0 7, fun l => by rw [Lcd.execute, Lcd.instruction, h7]; rfl⟩
  | false =>
    have h6 : b.getLsbD 6 = true := h.resolve_left (Bool.eq_false_iff.1 h7)
    exact ⟨.cgram, (b &&& 0x3F).extractLsb' 0 7, fun l => by rw [Lcd.execute, Lcd.instruction, h7, h6]; rfl⟩

/-- Of the commands, those that write no fixed list of bytes are the two that read data back: save, address-set, read
and restore, with an address-set byte that points somewhere for every operand (R177, R178). -/
theorem exec_of_writtenBytes_eq_none {i : Instr} {s : State} {ac : Addr7} (hc : isCommand i = true)
    (hbytes : writtenBytes s ac i = none) :
    ∃ addressSet, (∃ sp ac, PointsAt addressSet sp ac) ∧
      exec i s = commandOps s (saveAccessRestore addressSet [.readData] ++ [.retValue]) := by
  cases i with
  | readDdram a =>
    exact ⟨ddramSet a, exists_pointsAt (.inl (ddramSet_bit7 a)), exec_saveReadRestore (.inl ⟨a, rfl, rfl⟩) s⟩
  | readCgram a =>
    exact ⟨cgramSet a, exists_pointsAt (.inr (cgramSet_bit6 a)), exec_saveReadRestore (.inr ⟨a, rfl, rfl⟩) s⟩
  | lcdClearDisplay | lcdReturnHome | lcdEntryModeSet | lcdDisplayControl | lcdCursorDisplayShift
  | lcdFunctionSet4bit | lcdSetCgramAddress | lcdSetDdramAddress | rawNibble8bitInterface
  | rawNibble4bitInterface | xw | xr => cases hc
  | _ => cases hbytes

/-- Settles O56: a command either writes a list of bytes, which the controller executes, or reads one byte between a
save and a restore; both keep the pairing and the busy flag. -/
theorem commandsEndAndKeepTheResponderInStep : Obligations.CommandsEndAndKeepTheResponderInStep := by
  intro i s l hw hc hq h hb
  cases hbytes : writtenBytes s l.ac i with
  | some bytes =>
    obtain ⟨t, ht, hready, k, hk, hcore⟩ := exec_command_executed hw hc hq h hb hbytes
    exact ⟨t, k, ht, hready, hk, (hcore.bf.trans (executeAll_bf bytes l)).trans hb⟩
  | none =>
    obtain ⟨addressSet, ⟨sp, ac, hset⟩, hexec⟩ := exec_of_writtenBytes_eq_none hc hbytes
    obtain ⟨t, k, ht, hready, -, hk, hcore⟩ := commandOps_saveReadRestore_inStep hset hq h hb
    exact ⟨t, k, hexec.trans ht, hready, hk, hcore.bf.trans hb⟩

/-! ## The level of E -/

theorem eLow_of_latch_writeFrame {s : State} {bl rs e : Bool} {n : Byte} (h : s.latch = writeFrame bl n rs e) :
    s.eLow = !e := by
  simp [State.eLow, h]

theorem eLow_of_latch_readFrame {s : State} {bl rs e : Bool} (h : s.latch = readFrame bl rs e) : s.eLow = !e := by
  simp [State.eLow, h]

/-- Settles O21: the last frame is the E-low one, unless a short sample, taken while E is high, ends the read. -/
theorem enableLineLevels : Obligations.EnableLineLevels := by
  refine ⟨fun rs n s => eLow_of_latch_writeFrame (nibbleWrite_latch rs n s), fun rs s v1 v2 rest h => ?_,
    fun rs s r rest h hr => ?_, fun rs s v1 r rest h hr => ?_⟩
  · obtain ⟨-, -, -, hlatch⟩ := regRead_bytes rs h
    exact eLow_of_latch_readFrame hlatch
  · obtain ⟨-, -, -, hlatch⟩ := regRead_short1 rs h hr
    exact eLow_of_latch_readFrame hlatch
  · obtain ⟨-, -, -, hlatch⟩ := regRead_short2 rs h hr
    exact eLow_of_latch_readFrame hlatch

/-! ## Reset -/

/-- Settles O41: a step that finds a reset asked for is that reset, whatever is in progress. -/
theorem resetReloadsFromAnyState : Obligations.ResetReloadsFromAnyState :=
  fun s p h => ⟨s.resetWith p, step_reset h, by simp⟩

end Sys2Proof.Machine
end

section
/-!
The reference responder's memories (20_memory.md section 8): the laws of one memory, which every controller action on
DDRAM and CGRAM goes through.
-/

namespace Sys2Proof.Machine

open Sys2Proof

/-- Settles O55: reading back the byte written, reading any other byte, and the canonical form are one law each. -/
theorem responderMemoryLaws : Obligations.ResponderMemoryLaws :=
  fun _ _ a v hwf ha =>
    ⟨Memory.read_write_same hwf a v, fun _ hb => Memory.read_write_other hwf a v hb, Memory.wf_write hwf ha v⟩

end Sys2Proof.Machine
end
